-- ==== Sys2Proof/Word.lean ====
section
/-! DEFINITION. The word types of the block: bytes, 64-bit command words and 16-bit output frames (00_scope.md R6, R8). -/

namespace Sys2Proof

/-- A byte: a register byte, a value byte, a character code or a glyph column (R6, R8). -/
abbrev Byte := BitVec 8

/-- A command word, presented in parallel on the command port (30_encoding.md R70). -/
abbrev CommandWord := BitVec 64

/-- An output frame: register byte in bits 15..8, value byte in bits 7..0 (30_encoding.md R77). -/
abbrev FrameWord := BitVec 16

/-- A glyph, glyph byte `c` at index `c` (00_scope.md R13). A glyph of the block has 8 bytes. -/
abbrev Glyph := List Byte

/-- The glyph of eight zero bytes (R13). -/
def zero8 : Glyph := List.replicate 8 0

end Sys2Proof
end

