-- ==== Sys2Proof/Config.lean ====
section
/-! DEFINITION. What an elaboration of the block fixes (00_scope.md R6), the named register codes (30_encoding.md R78)
and the free values. -/

namespace Sys2Proof.Config

/-- Order in which the transport shifts the bits of a byte: the open parameter XPORT_BIT_ORDER (R6, R52). -/
inductive BitOrder where
  | msbFirst
  | lsbFirst
  deriving DecidableEq, Repr

/-- The parameters of 00_scope.md R6. They are plain data in State that no step writes, so a statement about every
state is a statement about every elaboration. DESIGN CHOICE (log 1). -/
structure Params where
  /-- N - 1, the position of the last chip; 1 <= N <= 256 holds by this field's type (R6, D6). -/
  lastPos : Fin 256
  /-- INIT_REPEAT: how often OPEN repeats its configuration group (R6, D10, U13; log 17). -/
  initRepeat : Nat
  /-- XPORT_BIT_ORDER (R52; log 18). -/
  bitOrder : BitOrder
  deriving DecidableEq, Repr

/-- N, the number of chip positions (R6). -/
def Params.n (p : Params) : Nat := p.lastPos.val + 1

/-- The elaboration with N chips and the default INIT_REPEAT = N (R6, D10), for the chain whose last position is `k`. -/
def Params.ofLastPos (k : Fin 256) : Params := { lastPos := k, initRepeat := k.val + 1, bitOrder := .msbFirst }

/-- The no-op register byte (R78). -/
def regNoop : Byte := 0x00
/-- The register bytes of the digit registers: column `col` goes to register `col + 1` (R78, R108). -/
def regDigit (col : Nat) : Byte := BitVec.ofNat 8 (col + 1)
/-- REG_DECODE. PRESUMED (log 2): the spec's K1 takes the code from general knowledge. -/
def regDecode : Byte := 0x09
/-- REG_INTENSITY. PRESUMED (log 2). -/
def regIntensity : Byte := 0x0A
/-- REG_SCANLIMIT. PRESUMED (log 2). -/
def regScanLimit : Byte := 0x0B
/-- REG_SHUTDOWN. PRESUMED (log 2). -/
def regShutdown : Byte := 0x0C
/-- REG_DISPLAYTEST. PRESUMED (log 2). -/
def regDisplayTest : Byte := 0x0F
/-- DISPLAY_TEST_OFF. PRESUMED (log 2): the spec's K2. -/
def displayTestOff : Byte := 0x00
/-- Scan limit 7: all 8 rows active (R141). -/
def scanLimitAll : Byte := 0x07
/-- Decode mode 0: raw bitmap (R141). -/
def decodeRaw : Byte := 0x00
/-- Intensity 15: maximum (R141). -/
def intensityMax : Byte := 0x0F
/-- The mask of SET_INTENSITY (R143). -/
def intensityMask : Byte := 0x0F
/-- Shutdown register 1: normal operation (R140). -/
def shutdownOff : Byte := 0x01
/-- Shutdown register 0: power-down (R142). -/
def shutdownOn : Byte := 0x00
/-- The code of the space character, the blank of RENDER_TEXT (R144). -/
def spaceCode : Byte := 0x20

/-- FREE VALUE: the FONT byte a lookup reads at an address the host writes during the command (R62, R184, U6). Applied to the
count of such writes, the lookup's tag and the address (log 9). -/
opaque racedFontByte : Nat → Nat → Nat → BitVec 8

/-- FREE VALUE: the TEXT byte read at an address the host writes during the command (R62, R184, U6; log 9). -/
opaque racedTextByte : Nat → Nat → Nat → BitVec 8

end Sys2Proof.Config
end

