-- ==== Sys2Proof/Syntax.lean ====
section
/-! DEFINITION. The instructions: one constructor per row of spec/opcode_table.json, 8 commands and 14 output frames. -/

namespace Sys2Proof

/-- The instructions of spec/opcode_table.json. The operands of a command are the assembled ones of 30_encoding.md R72:
positions and lengths unsigned numbers, the offset a signed number, register and value bytes passed unchanged. -/
inductive Instr where
  /-- OPEN (44_display_session.md R140). -/
  | openSession
  /-- CLOSE (44_display_session.md R142). -/
  | closeSession
  /-- SET_INTENSITY level (44_display_session.md R143). -/
  | setIntensity (level : Byte)
  /-- RENDER_TEXT len (44_display_session.md R145). -/
  | renderText (len : Nat)
  /-- RENDER_SCROLL len, ofs (43_scroll_compositor.md R127). -/
  | renderScroll (len : Nat) (ofs : Int)
  /-- SEND_POS pos, reg, val (41_register_protocol.md R94). -/
  | sendPos (pos : Nat) (reg val : Byte)
  /-- SEND_ALL reg, val (41_register_protocol.md R95). -/
  | sendAll (reg val : Byte)
  /-- RENDER_CHAR pos, code (42_glyph_rotator.md R109). -/
  | renderChar (pos : Nat) (code : Byte)
  /-- The frames of 30_encoding.md R78, each with its value byte. -/
  | frameNoop (val : Byte)
  | frameDigit1 (val : Byte)
  | frameDigit2 (val : Byte)
  | frameDigit3 (val : Byte)
  | frameDigit4 (val : Byte)
  | frameDigit5 (val : Byte)
  | frameDigit6 (val : Byte)
  | frameDigit7 (val : Byte)
  | frameDigit8 (val : Byte)
  | frameDecodeMode (val : Byte)
  | frameIntensity (val : Byte)
  | frameScanLimit (val : Byte)
  | frameShutdown (val : Byte)
  | frameDisplayTest (val : Byte)
  deriving DecidableEq, Repr

/-- The two kinds of word the block has (30_encoding.md): a command word and an output frame. -/
inductive Words where
  | command (w : CommandWord)
  | frame (w : FrameWord)
  deriving DecidableEq, Repr

/-- The legal opcodes (30_encoding.md R73). -/
inductive Opcode where
  | opOpen | opClose | opSetIntensity | opRenderText | opRenderScroll | opSendPos | opSendAll | opRenderChar
  deriving DecidableEq, Repr

/-- The two ways a command word is illegal (30_encoding.md R75). -/
inductive Illegal where
  /-- OP is 0x0 or 0x9..0xF. -/
  | illegalOpcode
  /-- OP is legal and RSV is not 0. -/
  | reservedBits
  deriving DecidableEq, Repr

/-- What decoding a command word answers: `Command | Illegal(cause)` of 30_encoding.md R76. -/
inductive Decoded where
  | instr (i : Instr)
  | illegal (c : Illegal)
  deriving DecidableEq, Repr

/-- One row of spec/opcode_table.json. -/
structure TableRow where
  nbits : Nat
  pattern : Nat
  mask : Nat
  deriving DecidableEq, Repr

end Sys2Proof
end

