-- ==== Sys2Proof/Machine/State.lean ====
section
/-! DEFINITION. The state of the machine: the block's architectural state (10_state.md R28), its transient state (R38), the
ports, the host's memories, the trace, the reference chain, and the schedule of the agents. Plain data throughout. -/

namespace Sys2Proof.Machine

open Sys2Proof.Config

/-- SESSION (R28, R29). -/
inductive Session where
  | closed
  | opened
  deriving DecidableEq, Repr

/-- The fault causes (60_exceptions.md R160). The codes 0x5..0xF are never written, so they have no constructor (log 21). -/
inductive Cause where
  | none
  | illegalOpcode
  | reservedBits
  | notOpen
  | badPosition
  deriving DecidableEq, Repr

/-- The transport events (R27). -/
inductive Event where
  /-- Configure the select line as an output and drive it high. -/
  | selDrive
  /-- Initialise the transport. -/
  | xportInit
  /-- Drive select low, begin a pulse. -/
  | selAssert
  /-- Transfer one byte; the returned byte is discarded. -/
  | xfer (b : Byte)
  /-- Drive select high, end the pulse (latch). -/
  | selDeassert
  /-- Release the transport. -/
  | xportRelease
  deriving DecidableEq, Repr

/-- A memory as address and byte pairs in one canonical form (`Memory.wf`, Machine/Ops.lean). -/
abbrev Memory := List Host.Cell

/-- SEL_DRIVEN, SEL_LEVEL and XPORT_ACTIVE (R28): the part of the block's state that emitting an event writes (R31, R32). -/
structure Lines where
  selDriven : Bool
  /-- false = asserted, true = de-asserted. -/
  selLevel : Bool
  xportActive : Bool
  deriving DecidableEq, Repr

/-- What the chain has received since the select line was asserted (20_memory.md R55, R57). -/
inductive Pulse where
  /-- No pulse is open. -/
  | idle
  /-- A pulse is open; its bytes so far, the first transferred first. -/
  | opened (bytes : List Byte)
  /-- A pulse is open and a foreign bus agent has acted during it (R187, U10; log 13). -/
  | spoiled
  deriving DecidableEq, Repr

/-- The reference chain (R55 to R60). `regs` lists the known CHIPREG entries, `CHIPREG[k][r]` under the key `256*k + r`, in
canonical form; an entry not listed is `unknown` (R56). `refused` is the mark of R59. -/
structure Chain where
  pulse : Pulse
  regs : List Host.Cell
  refused : Bool
  deriving DecidableEq, Repr

/-- The command in execution and how many of its events the transport has completed: the sequencer's counters (R38, R39). -/
structure Job where
  instr : Instr
  done : Nat
  deriving DecidableEq, Repr

/-- One agent's turn (R23; log 5). -/
inductive Turn where
  /-- The block moves, with the transport: it accepts a command, or goes on with the one in execution. -/
  | block
  /-- The host drives `cmd_valid = 1` and `cmd_word = w` (R24). A word it presented before and that was not accepted is replaced: the
  host has not held it (R185; log 4). -/
  | hostPresents (w : CommandWord)
  /-- The host drives `cmd_valid = 0`: it withdraws the word it presents (R24, R185; log 4). -/
  | hostWithdraws
  /-- The host writes a byte of FONT (R46, R62). -/
  | hostWritesFont (a : BitVec 11) (b : Byte)
  /-- The host writes a byte of TEXT (R49, R62). -/
  | hostWritesText (a : BitVec 16) (b : Byte)
  /-- The host asserts or releases `rst` (70_reset_and_hazards.md R180). -/
  | hostDrivesReset (level : Bool)
  /-- The transport will complete this many more events and then stall, or all of them (R23, R167; log 6). -/
  | transportGrants (g : Option Nat)
  /-- Another agent drives the select line or the bus (R187, U10; log 13). -/
  | foreignBusAgent
  deriving DecidableEq, Repr

/-- The machine's state. -/
structure State where
  /-- The elaboration's parameters (00_scope.md R6); never written. -/
  params : Params
  /-- SESSION (R28). -/
  session : Session
  /-- BUSY (R28, R30). -/
  busy : Bool
  /-- FAULTED (R28, R33). -/
  faulted : Bool
  /-- CAUSE (R28, R160). -/
  cause : Cause
  /-- FAULT_CMD (R28, R36). -/
  faultCmd : CommandWord
  /-- SEL_DRIVEN, SEL_LEVEL, XPORT_ACTIVE (R28). -/
  lines : Lines
  /-- The latched command word (R24, R38), transient; 0 while no command is in execution (log 14). -/
  latched : CommandWord
  /-- The command in execution, transient (R38, R39). -/
  job : Option Job
  /-- The command port (R24): the word on `cmd_word` while `cmd_valid = 1`, none while `cmd_valid = 0`. One word: nothing is queued
  (70_reset_and_hazards.md R185; log 4). -/
  port : Option CommandWord
  /-- The reset input (R180). -/
  rst : Bool
  /-- FONT (R46). -/
  font : Memory
  /-- TEXT (R49). -/
  text : Memory
  /-- MODEL: FONT addresses the host wrote during the command in execution (R62, U6; log 9). -/
  racedFont : List Nat
  /-- MODEL: TEXT addresses the host wrote during the command in execution (R62, U6; log 9). -/
  racedText : List Nat
  /-- MODEL: how many writes have raced with a command; the free values are applied to it (log 9). -/
  raceCount : Nat
  /-- The trace, the first event first (R27). -/
  trace : List Event
  /-- MODEL: how many more events the transport completes; `none` means every event it is given (R167, R190; log 6). -/
  grant : Option Nat
  /-- The reference chain (R55 to R60). -/
  chain : Chain
  /-- MODEL: whose turns come next; when it is empty the block moves (log 5). -/
  sched : List Turn
  deriving DecidableEq, Repr

/-- The reasons a step stops with a fault: there are none. Every fault of 60_exceptions.md R160 is a state the machine goes on
from (R162), a stalled transport is a state it stays in (R167), and no access faults (R68). -/
inductive Fault where
  deriving DecidableEq, Repr

/-- The reasons a step is refused. -/
inductive Refusal where
  /-- An instruction with no meaning yet, raised by `exec` alone. Safe: no claim about such an instruction can be proved. -/
  | notModelled (mnemonic : String)
  deriving DecidableEq, Repr

/-- The lines after reset (R40): the select line not driven, its level de-asserted, the transport not initialised. -/
def Lines.reset : Lines := { selDriven := false, selLevel := true, xportActive := false }

/-- The chain at power-on (R56): no pulse open, every register unknown. -/
def Chain.powerOn : Chain := { pulse := .idle, regs := [], refused := false }

/-- The machine right after reset (R40, R180), for an elaboration with the parameters `p`. -/
def State.resetOf (p : Params) : State :=
  { params := p
    session := .closed
    busy := false
    faulted := false
    cause := .none
    faultCmd := 0
    lines := Lines.reset
    latched := 0
    job := none
    port := none
    rst := false
    font := []
    text := []
    racedFont := []
    racedText := []
    raceCount := 0
    trace := []
    grant := none
    chain := Chain.powerOn
    sched := [] }

/-- The machine right after reset. Its chain has one chip: DESIGN CHOICE (log 1). -/
def State.reset : State := State.resetOf (Params.ofLastPos 0)

end Sys2Proof.Machine
end

