-- ==== Sys2Proof/Machine/Ops.lean ====
section
/-! DEFINITION. The named operations over memories, lines, trace and chain; emitting events and the transport's part in it; the
checks of a command and the taking of a fault; the beginning and the end of a command. -/

namespace Sys2Proof.Machine

open Sys2Proof.Config

/-! ## Cells in canonical form -/

/-- The addresses of a list of cells rise strictly. -/
abbrev Memory.rising (m : List Host.Cell) : Prop := m.Pairwise (fun c d => c.1 < d.1)

/-- The canonical form of a memory of `size` bytes: addresses strictly rising and inside the memory, and no entry that holds
0x00, which is what an unlisted address reads as. -/
abbrev Memory.wf (size : Nat) (m : Memory) : Prop :=
  Memory.rising m ∧ ∀ c ∈ m, c.1 < size ∧ c.2 ≠ 0

/-- The byte listed at an address, if one is. -/
def cellAt (m : List Host.Cell) (a : Nat) : Option Byte :=
  match m with
  | [] => none
  | c :: rest => if c.1 = a then some c.2 else cellAt rest a

/-- List a byte at an address, in the place the order of addresses gives it. -/
def putCell (m : List Host.Cell) (a : Nat) (b : Byte) : List Host.Cell :=
  match m with
  | [] => [(a, b)]
  | c :: rest =>
    if a < c.1 then (a, b) :: c :: rest
    else if c.1 = a then (a, b) :: rest
    else c :: putCell rest a b

/-- Drop the entry of an address. -/
def dropCell (m : List Host.Cell) (a : Nat) : List Host.Cell :=
  m.filter (fun c => c.1 != a)

/-- What an address of FONT or TEXT reads as that nothing has written. DESIGN CHOICE (log 3), unsafe: the contents are the
host's and the spec gives none. -/
def unwrittenByte : Byte := 0

/-- `MemRead(M, a, 1)` of FONT or TEXT as the host left it (R11). -/
def Memory.readByte (m : Memory) (a : Nat) : Byte := (cellAt m a).getD unwrittenByte

/-- A host write of one byte. -/
def Memory.writeByte (m : Memory) (a : Nat) (b : Byte) : Memory :=
  if b = unwrittenByte then dropCell m a else putCell m a b

/-- The size of FONT (20_memory.md R46). -/
def fontSize : Nat := 2048
/-- The size of TEXT (R49). -/
def textSize : Nat := 65536

/-! ## Reads of FONT and TEXT by a command -/

/-- The FONT byte a command's lookup `tag` reads at an address: what the host left there, or, where the host has written the
address during the command, any byte (R62, R184, U6; log 9). -/
def State.fontByte (s : State) (tag a : Nat) : Byte :=
  if a ∈ s.racedFont then racedFontByte s.raceCount tag a else s.font.readByte a

/-- The TEXT byte a command reads at an address, with the same exception (R49, R62, U6; log 9). -/
def State.textByte (s : State) (tag a : Nat) : Byte :=
  if a ∈ s.racedText then racedTextByte s.raceCount tag a else s.text.readByte a

/-- `glyph(ch) = MemRead(FONT, ch*8, 8)` (R46, R47). -/
def State.glyph (s : State) (tag : Nat) (ch : Byte) : Glyph :=
  (List.range 8).map (fun c => s.fontByte tag (ch.toNat * 8 + c))

/-- `char(i) = MemRead(TEXT, i, 1)` (R49). -/
def State.char (s : State) (tag i : Nat) : Byte := s.textByte tag i

/-! ## Lines -/

/-- What an event does to SEL_DRIVEN, SEL_LEVEL and XPORT_ACTIVE (R31, R32). -/
def Lines.take (l : Lines) (e : Event) : Lines :=
  match e with
  | .selDrive => { l with selDriven := true, selLevel := true }
  | .xportInit => { l with xportActive := true }
  | .selAssert => { l with selLevel := false }
  | .xfer _ => l
  | .selDeassert => { l with selLevel := true }
  | .xportRelease => { l with xportActive := false }

/-! ## The reference chain -/

/-- The key of `CHIPREG[k][r]` in the chain's cells. -/
def chipKey (k : Nat) (r : Byte) : Nat := 256 * k + r.toNat

/-- `CHIPREG[k][r]`: a byte, or `none` for unknown (R56). -/
def Chain.chipReg (c : Chain) (k : Nat) (r : Byte) : Option Byte := cellAt c.regs (chipKey k r)

/-- The canonical form of the chain's cells, for N chips: keys strictly rising, positions in 0..N-1, register bytes in
0x01..0xFF (R56). -/
abbrev Chain.wf (n : Nat) (c : Chain) : Prop :=
  Memory.rising c.regs ∧ ∀ x ∈ c.regs, x.1 / 256 < n ∧ x.1 % 256 ≠ 0

/-- The frames of a pulse's bytes: `f_j = (b(2j), b(2j+1))` (R55). -/
def framesOf : List Byte → List (Byte × Byte)
  | r :: v :: rest => (r, v) :: framesOf rest
  | [_] => []
  | [] => []

/-- The chip at position `k` applies its frame: a frame whose register byte is 0x00 changes nothing (R57, R58). -/
def latchFrame (regs : List Host.Cell) (k : Nat) (f : Byte × Byte) : List Host.Cell :=
  if f.1 = 0 then regs else putCell regs (chipKey k f.1) f.2

/-- Every position from `k` on applies its frame; the chip at position `k` takes the frame in slot `k` (R55, R57). -/
def latchFrom (regs : List Host.Cell) (k : Nat) : List (Byte × Byte) → List Host.Cell
  | [] => regs
  | f :: rest => latchFrom (latchFrame regs k f) (k + 1) rest

/-- The latch at a SelDeassert, for N chips (R57). A pulse of other than N frames is refused (R59, U8): the run is marked, and no
register keeps a value (log 12). A pulse another agent disturbed leaves every register unknown (R187, U10; log 13). -/
def Chain.latch (n : Nat) (c : Chain) : Chain :=
  match c.pulse with
  | .idle => c
  | .opened bytes =>
    if bytes.length = 2 * n then { c with pulse := .idle, regs := latchFrom c.regs 0 (framesOf bytes) }
    else { pulse := .idle, regs := [], refused := true }
  | .spoiled => { c with pulse := .idle, regs := [] }

/-- What the chain of N chips makes of an event (R55 to R60). Nothing changes in a chip at SelAssert or at an Xfer (R57). -/
def Chain.take (n : Nat) (c : Chain) (e : Event) : Chain :=
  match e with
  | .selDrive => c
  | .xportInit => c
  | .selAssert => { c with pulse := .opened [] }
  | .xfer b =>
    match c.pulse with
    | .opened bytes => { c with pulse := .opened (bytes ++ [b]) }
    | .idle => c
    | .spoiled => c
  | .selDeassert => c.latch n
  | .xportRelease => c

/-- Every register unknown: after a reset (R40, R181, U5; log 10). -/
def Chain.forget (c : Chain) : Chain := { c with pulse := .idle, regs := [] }

/-- Another agent has driven the select line or the bus: every register is unknown, and so is what an open pulse will latch
(R187, U10; log 13). -/
def Chain.disturb (c : Chain) : Chain :=
  { c with
    regs := []
    pulse := match c.pulse with
      | .idle => .idle
      | .opened _ => .spoiled
      | .spoiled => .spoiled }

/-! ## Emitting events -/

/-- `emit(e)`, completed by the transport (R12): the trace, the lines and the chain. DESIGN CHOICE (log 23): SEL_DRIVEN, SEL_LEVEL and
XPORT_ACTIVE change when the transport has completed the event, together with the trace; the spec names no moment within `emit`. -/
def State.emit (s : State) (e : Event) : State :=
  { s with
    trace := s.trace ++ [e]
    lines := s.lines.take e
    chain := s.chain.take s.params.n e }

/-- The events of a list, completed one after another (R12, R61). -/
def State.emitAll (s : State) (evs : List Event) : State := evs.foldl State.emit s

/-- How many of `k` events given to it the transport completes before it stalls (R23, R167; log 6). -/
def State.completes (s : State) (k : Nat) : Nat :=
  match s.grant with
  | none => k
  | some g => min g k

/-- Give the transport the events of a list; those it completes are emitted and counted, and at the first it does not complete the
block waits (R61, R167). An event it has not completed has changed no line yet: DESIGN CHOICE (log 23). -/
def State.transfer (s : State) (evs : List Event) : State :=
  let m := s.completes evs.length
  let t := s.emitAll (evs.take m)
  { t with
    grant := t.grant.map (fun g => g - m)
    job := t.job.map (fun j => { j with done := j.done + m }) }

/-! ## The beginning and the end of a command -/

/-- SESSION at the end of a command: OPEN and CLOSE write it (R29, R140, R142), no other instruction does. -/
def sessionAfter (i : Instr) (old : Session) : Session :=
  match i with
  | .openSession => .opened
  | .closeSession => .closed
  | .setIntensity _ => old
  | .renderText _ => old
  | .renderScroll _ _ => old
  | .sendPos _ _ _ => old
  | .sendAll _ _ => old
  | .renderChar _ _ => old
  | .frameNoop _ => old
  | .frameDigit1 _ => old
  | .frameDigit2 _ => old
  | .frameDigit3 _ => old
  | .frameDigit4 _ => old
  | .frameDigit5 _ => old
  | .frameDigit6 _ => old
  | .frameDigit7 _ => old
  | .frameDigit8 _ => old
  | .frameDecodeMode _ => old
  | .frameIntensity _ => old
  | .frameScanLimit _ => old
  | .frameShutdown _ => old
  | .frameDisplayTest _ => old

/-- No transient state survives a command (R38; log 14). -/
def State.clearTransient (s : State) : State :=
  { s with latched := 0, job := none, racedFont := [], racedText := [] }

/-- The command `i` begins: BUSY <- 1, no event of it emitted yet (R30, R161). -/
def State.beginCommand (s : State) (i : Instr) : State :=
  { s with busy := true, job := some { instr := i, done := 0 } }

/-- The command `i` has emitted its last event: it writes its last state element and BUSY <- 0 (R30, R161). -/
def State.endCommand (s : State) (i : Instr) : State :=
  { s.clearTransient with session := sessionAfter i s.session, busy := false }

/-- End the command in execution if all its events, `total` of them, are completed. -/
def State.settle (s : State) (total : Nat) : State :=
  match s.job with
  | none => s
  | some j => if total ≤ j.done then s.endCommand j.instr else s

/-- `perform d`: run the command `i`, whose events are `evs`, as far as the transport completes them (R161, R167; log 7). -/
def State.perform (s : State) (i : Instr) (evs : List Event) : State :=
  ((s.beginCommand i).transfer evs).settle evs.length

/-! ## Faults -/

/-- `raise Fault(c)` (60_exceptions.md R162): FAULTED, CAUSE, FAULT_CMD and BUSY are written, no event is emitted, and no other
architectural state changes. The transient state ends with the command (R38). -/
def State.raise (s : State) (c : Cause) : State :=
  { s.clearTransient with faulted := true, cause := c, faultCmd := s.latched, busy := false }

/-- The check of R161: every command but OPEN needs SESSION = OPEN, else NOT_OPEN. -/
def State.whenOpen (s : State) (k : State) : State :=
  match s.session with
  | .closed => s.raise .notOpen
  | .opened => k

/-- The check of R161: SEND_POS and RENDER_CHAR need p < N, else BAD_POSITION. -/
def State.whenPosition (s : State) (p : Nat) (k : State) : State :=
  if p < s.params.n then k else s.raise .badPosition

/-- The cause a decoding failure raises (R75, R161). -/
def causeOf : Illegal → Cause
  | .illegalOpcode => .illegalOpcode
  | .reservedBits => .reservedBits

/-! ## Reset and the other agents -/

/-- Reset of the block (R180, R181): every element of R28 takes its reset value, a command in execution is abandoned, and every
chip register is unknown (log 10). FONT, TEXT, the word presented, the transport and the parameters are not the block's. -/
def State.resetBlock (s : State) : State :=
  { s.clearTransient with
    session := .closed
    busy := false
    faulted := false
    cause := .none
    faultCmd := 0
    lines := Lines.reset
    chain := s.chain.forget }

/-- The host drives the command port: a word with `cmd_valid = 1`, or `cmd_valid = 0` (R24, R185; log 4). -/
def State.drivePort (s : State) (w : Option CommandWord) : State := { s with port := w }

/-- A host write to FONT; during a command it races with the command's reads (R62, R184; log 9). -/
def State.hostWriteFont (s : State) (a : BitVec 11) (b : Byte) : State :=
  let t := { s with font := s.font.writeByte a.toNat b }
  if s.busy then { t with racedFont := a.toNat :: t.racedFont, raceCount := t.raceCount + 1 } else t

/-- A host write to TEXT; during a command it races with the command's reads (R62, R184; log 9). -/
def State.hostWriteText (s : State) (a : BitVec 16) (b : Byte) : State :=
  let t := { s with text := s.text.writeByte a.toNat b }
  if s.busy then { t with racedText := a.toNat :: t.racedText, raceCount := t.raceCount + 1 } else t

/-- The host drives `rst`. Asserting it resets the block at once; the block stays in reset until it is released (R180). -/
def State.driveReset (s : State) (level : Bool) : State :=
  if level then { s.resetBlock with rst := true } else { s with rst := false }

end Sys2Proof.Machine
end

