-- ==== Sys2Proof/Machine/Operands.lean ====
section
/-! DEFINITION. What the operands of a command stand for (30_encoding.md R72): the masked level, the parts of the pixel offset,
and the pseudo-instructions of R81. -/

namespace Sys2Proof.Machine

open Sys2Proof.Config

/-- `level & 0x0F`: masked, not saturated (44_display_session.md R143; 90_conflicts.md C4). -/
def maskedLevel (level : Byte) : Byte := level &&& intensityMask

/-- `firstGlyphIndex = floor_div(o, 8)` (43_scroll_compositor.md R121). Division of integers by a positive number rounds toward
negative infinity here. -/
def firstGlyphIndex (o : Int) : Int := o / 8

/-- `subOffset = mod8(o) = o - 8*firstGlyphIndex`, in 0..7 (R121). -/
def subOffset (o : Int) : Nat := (o - 8 * firstGlyphIndex o).toNat

/-- The pseudo-instructions of 30_encoding.md R81. -/
inductive Pseudo where
  | clear
  | shutdown
  | wake
  | nopPulse
  | setColumn (pos : Nat) (col : Fin 8) (val : Byte)
  deriving DecidableEq, Repr

/-- The expansion of a pseudo-instruction (R81). -/
def expandPseudo : Pseudo → Instr
  | .clear => .renderText 0
  | .shutdown => .sendAll regShutdown shutdownOn
  | .wake => .sendAll regShutdown shutdownOff
  | .nopPulse => .sendAll 0x00 0x00
  | .setColumn pos col val => .sendPos pos (regDigit col.val) val

end Sys2Proof.Machine
end

