-- ==== Sys2Proof/Machine/Protocol.lean ====
section
/-! DEFINITION. chain_register_sequencer: the two pulse primitives and the commands that expose them (41_register_protocol.md). -/

namespace Sys2Proof.Machine

/-- A frame as two byte transfers, the register byte first (20_memory.md R50; 30_encoding.md R77). -/
def frameEvents (r v : Byte) : List Event := [.xfer r, .xfer v]

/-- `count` no-op frames (R90). -/
def noopFrames (count : Nat) : List Event := (List.replicate count (frameEvents 0x00 0x00)).flatten

/-- `sendToPosition(p, r, v)` of R90, on a chain of `n`: `p` no-op frames, the frame, `n - p - 1` no-op frames. -/
def sendToPosition (n p : Nat) (r v : Byte) : List Event :=
  [.selAssert] ++ noopFrames p ++ frameEvents r v ++ noopFrames (n - p - 1) ++ [.selDeassert]

/-- `sendToAll(r, v)` of R91, on a chain of `n`. -/
def sendToAll (n : Nat) (r v : Byte) : List Event :=
  [.selAssert] ++ (List.replicate n (frameEvents r v)).flatten ++ [.selDeassert]

/-- The events of SEND_POS (R94). -/
def sendPosEvents (p : Nat) (r v : Byte) (s : State) : List Event := sendToPosition s.params.n p r v

/-- The events of SEND_ALL (R95). -/
def sendAllEvents (r v : Byte) (s : State) : List Event := sendToAll s.params.n r v

/-- SEND_POS (R94): the session check, then the position check (R161), then the pulse. -/
def execSendPos (p : Nat) (r v : Byte) (s : State) : Host.Outcome State Fault Refusal :=
  .next (s.whenOpen (s.whenPosition p (s.perform (.sendPos p r v) (sendPosEvents p r v s))))

/-- SEND_ALL (R95): the session check, then the pulse. -/
def execSendAll (r v : Byte) (s : State) : Host.Outcome State Fault Refusal :=
  .next (s.whenOpen (s.perform (.sendAll r v) (sendAllEvents r v s)))

end Sys2Proof.Machine
end

