-- ==== Sys2Proof/Machine/Frames.lean ====
section
/-! DEFINITION. The output frames of 30_encoding.md R78 as instructions: the sequencer gives the transport one frame, in the next
slot of the pulse in flight (log 8). -/

namespace Sys2Proof.Machine

/-- One frame handed to the transport (R77): its register byte, then its value byte. -/
def State.sendFrame (s : State) (r v : Byte) : State := s.transfer (frameEvents r v)

/-- FRAME_NOOP: register byte 0x00 (R78, R90). -/
def execFrameNoop (v : Byte) (s : State) : Host.Outcome State Fault Refusal := .next (s.sendFrame 0x00 v)
/-- FRAME_DIGIT1: register byte 0x01 (R78, R108). -/
def execFrameDigit1 (v : Byte) (s : State) : Host.Outcome State Fault Refusal := .next (s.sendFrame 0x01 v)
/-- FRAME_DIGIT2: register byte 0x02 (R78, R108). -/
def execFrameDigit2 (v : Byte) (s : State) : Host.Outcome State Fault Refusal := .next (s.sendFrame 0x02 v)
/-- FRAME_DIGIT3: register byte 0x03 (R78, R108). -/
def execFrameDigit3 (v : Byte) (s : State) : Host.Outcome State Fault Refusal := .next (s.sendFrame 0x03 v)
/-- FRAME_DIGIT4: register byte 0x04 (R78, R108). -/
def execFrameDigit4 (v : Byte) (s : State) : Host.Outcome State Fault Refusal := .next (s.sendFrame 0x04 v)
/-- FRAME_DIGIT5: register byte 0x05 (R78, R108). -/
def execFrameDigit5 (v : Byte) (s : State) : Host.Outcome State Fault Refusal := .next (s.sendFrame 0x05 v)
/-- FRAME_DIGIT6: register byte 0x06 (R78, R108). -/
def execFrameDigit6 (v : Byte) (s : State) : Host.Outcome State Fault Refusal := .next (s.sendFrame 0x06 v)
/-- FRAME_DIGIT7: register byte 0x07 (R78, R108). -/
def execFrameDigit7 (v : Byte) (s : State) : Host.Outcome State Fault Refusal := .next (s.sendFrame 0x07 v)
/-- FRAME_DIGIT8: register byte 0x08 (R78, R108). -/
def execFrameDigit8 (v : Byte) (s : State) : Host.Outcome State Fault Refusal := .next (s.sendFrame 0x08 v)
/-- FRAME_DECODE_MODE: register byte 0x09 (R78, R141). -/
def execFrameDecodeMode (v : Byte) (s : State) : Host.Outcome State Fault Refusal := .next (s.sendFrame 0x09 v)
/-- FRAME_INTENSITY: register byte 0x0A (R78, R143). -/
def execFrameIntensity (v : Byte) (s : State) : Host.Outcome State Fault Refusal := .next (s.sendFrame 0x0A v)
/-- FRAME_SCAN_LIMIT: register byte 0x0B (R78, R141). -/
def execFrameScanLimit (v : Byte) (s : State) : Host.Outcome State Fault Refusal := .next (s.sendFrame 0x0B v)
/-- FRAME_SHUTDOWN: register byte 0x0C (R78, R140, R142). -/
def execFrameShutdown (v : Byte) (s : State) : Host.Outcome State Fault Refusal := .next (s.sendFrame 0x0C v)
/-- FRAME_DISPLAY_TEST: register byte 0x0F (R78, R141). -/
def execFrameDisplayTest (v : Byte) (s : State) : Host.Outcome State Fault Refusal := .next (s.sendFrame 0x0F v)

end Sys2Proof.Machine
end

