-- ==== Sys2Proof/Machine/Rotator.lean ====
section
/-! DEFINITION. glyph_column_to_row_rotator: the transform, its inverse, the render primitive and RENDER_CHAR
(42_glyph_rotator.md). -/

namespace Sys2Proof.Machine

open Sys2Proof.Config

/-- Byte `i` of a glyph. -/
def glyphByte (g : Glyph) (i : Nat) : Byte := g.getD i 0

/-- A bit put at a place of a byte that is otherwise 0. -/
def bitAt (b : Bool) (place : Nat) : Byte := (BitVec.ofBool b).setWidth 8 <<< place

/-- `C_col` of R105: bit (7 - i) is bit `col` of glyph byte `i`, gathered by or over i = 0..7. -/
def rotByte (g : Glyph) (col : Nat) : Byte :=
  (List.range 8).foldl (fun b i => b ||| bitAt ((glyphByte g i).getLsbD col) (7 - i)) 0

/-- `rot(G)` of R105. -/
def rot (g : Glyph) : Glyph := (List.range 8).map (rotByte g)

/-- `G_i` of R106: bit `col` is bit (7 - i) of `C_col`. -/
def unrotByte (c : Glyph) (i : Nat) : Byte :=
  (List.range 8).foldl (fun b col => b ||| bitAt ((glyphByte c col).getLsbD (7 - i)) col) 0

/-- `unrot(C)` of R106. -/
def unrot (c : Glyph) : Glyph := (List.range 8).map (unrotByte c)

/-- The byte with its 8 bits reversed: `bitrev8` of R107. -/
def bitrev8 (b : Byte) : Byte :=
  (List.range 8).foldl (fun x i => x ||| bitAt (b.getLsbD i) (7 - i)) 0

/-- `renderGlyph(p, G)` of R108, on a chain of `n`: one pulse for each column, column `col` to register `col + 1`. -/
def renderGlyph (n p : Nat) (g : Glyph) : List Event :=
  (List.range 8).flatMap (fun col => sendToPosition n p (regDigit col) (glyphByte (rot g) col))

/-- The tag of the glyph lookup of slot `slot` at position `k`, by which two reads of one raced address are told apart (log 9).
A lookup that is not the compositor's has slot 1, as the compositor's centre slot. -/
def lookupTag (k slot : Nat) : Nat := 3 * k + slot

/-- The events of RENDER_CHAR (R109): `renderGlyph(p, glyph(ch))`. -/
def renderCharEvents (p : Nat) (ch : Byte) (s : State) : List Event :=
  renderGlyph s.params.n p (s.glyph (lookupTag p 1) ch)

/-- RENDER_CHAR (R109): the session check, then the position check (R161), then the 8 pulses. -/
def execRenderChar (p : Nat) (ch : Byte) (s : State) : Host.Outcome State Fault Refusal :=
  .next (s.whenOpen (s.whenPosition p (s.perform (.renderChar p ch) (renderCharEvents p ch s))))

end Sys2Proof.Machine
end

