-- ==== Sys2Proof/Machine/Scroll.lean ====
section
/-! DEFINITION. pixel_scroll_compositor: the window at a pixel offset and RENDER_SCROLL (43_scroll_compositor.md). All arithmetic
is on integers, without wrap-around (R120). -/

namespace Sys2Proof.Machine

/-- `g(c)` of R122: the glyph of character `c` of a text of length `len`, or eight zero bytes where `c` is out of range. -/
def charGlyph (s : State) (len tag : Nat) (c : Int) : Glyph :=
  if 0 ≤ c ∧ c < len then s.glyph tag (s.char tag c.toNat) else zero8

/-- The 24-byte scratch buffer of position `k` (R123): left, centre and right slot. -/
def scratch (s : State) (len : Nat) (o : Int) (k : Nat) : List Byte :=
  let a := firstGlyphIndex o + k
  charGlyph s len (lookupTag k 0) (a - 1) ++ charGlyph s len (lookupTag k 1) a ++ charGlyph s len (lookupTag k 2) (a + 1)

/-- `window(k)` of R124: 8 columns of the scratch buffer from index `8 + subOffset`. -/
def window (s : State) (len : Nat) (o : Int) (k : Nat) : Glyph :=
  ((scratch s len o k).drop (8 + subOffset o)).take 8

/-- `renderScroll(L, o)` of R126. -/
def renderScrollEvents (len : Nat) (o : Int) (s : State) : List Event :=
  (List.range s.params.n).flatMap (fun k => renderGlyph s.params.n k (window s len o k))

/-- RENDER_SCROLL (R127): the session check, then every position's window. No offset or length is an error. -/
def execRenderScroll (len : Nat) (o : Int) (s : State) : Host.Outcome State Fault Refusal :=
  .next (s.whenOpen (s.perform (.renderScroll len o) (renderScrollEvents len o s)))

end Sys2Proof.Machine
end

