-- ==== Sys2Proof/Machine/Session.lean ====
section
/-! DEFINITION. Display session sequencing: OPEN, CLOSE, SET_INTENSITY and RENDER_TEXT (44_display_session.md). -/

namespace Sys2Proof.Machine

open Sys2Proof.Config

/-- What `renderText(L)` of R144 renders at position `k`: the text's character there, or the font's space glyph. -/
def textGlyph (s : State) (len k : Nat) : Glyph :=
  if k < len then s.glyph (lookupTag k 1) (s.char (lookupTag k 1) k) else s.glyph (lookupTag k 1) spaceCode

/-- `renderText(L)` of R144: every position in increasing order. -/
def renderTextEvents (len : Nat) (s : State) : List Event :=
  (List.range s.params.n).flatMap (fun k => renderGlyph s.params.n k (textGlyph s len k))

/-- `initGroup()` of R141, on a chain of `n`. -/
def initGroup (n : Nat) : List Event :=
  sendToAll n regScanLimit scanLimitAll ++ sendToAll n regDecode decodeRaw ++ sendToAll n regDisplayTest displayTestOff
    ++ sendToAll n regIntensity intensityMax

/-- The events of OPEN (R140). -/
def openEvents (s : State) : List Event :=
  [.selDrive, .xportInit] ++ (List.replicate s.params.initRepeat (initGroup s.params.n)).flatten ++ renderTextEvents 0 s
    ++ sendToAll s.params.n regShutdown shutdownOff

/-- The events of CLOSE (R142). -/
def closeEvents (s : State) : List Event := sendToAll s.params.n regShutdown shutdownOn ++ [.xportRelease]

/-- The events of SET_INTENSITY (R143). -/
def setIntensityEvents (level : Byte) (s : State) : List Event := sendToAll s.params.n regIntensity (maskedLevel level)

/-- OPEN (R140): accepted in either session state (R161); SESSION <- OPEN at the end. -/
def execOpen (s : State) : Host.Outcome State Fault Refusal :=
  .next (s.perform .openSession (openEvents s))

/-- CLOSE (R142): the session check; SESSION <- CLOSED at the end. -/
def execClose (s : State) : Host.Outcome State Fault Refusal :=
  .next (s.whenOpen (s.perform .closeSession (closeEvents s)))

/-- SET_INTENSITY (R143): the session check, then the broadcast. No level is an error. -/
def execSetIntensity (level : Byte) (s : State) : Host.Outcome State Fault Refusal :=
  .next (s.whenOpen (s.perform (.setIntensity level) (setIntensityEvents level s)))

/-- RENDER_TEXT (R145): the session check, then every position's character or blank. No length is an error. -/
def execRenderText (len : Nat) (s : State) : Host.Outcome State Fault Refusal :=
  .next (s.whenOpen (s.perform (.renderText len) (renderTextEvents len s)))

end Sys2Proof.Machine
end

