-- ==== Sys2Proof/Machine/Dispatch.lean ====
section
/-! DEFINITION. The meaning of every instruction, one arm each. -/

namespace Sys2Proof.Machine

def exec (i : Instr) (s : State) : Host.Outcome State Fault Refusal :=
  match i with
  | .openSession => Sys2Proof.Machine.execOpen s
  | .closeSession => Sys2Proof.Machine.execClose s
  | .setIntensity level => Sys2Proof.Machine.execSetIntensity level s
  | .renderText len => Sys2Proof.Machine.execRenderText len s
  | .renderScroll len ofs => Sys2Proof.Machine.execRenderScroll len ofs s
  | .sendPos pos reg val => Sys2Proof.Machine.execSendPos pos reg val s
  | .sendAll reg val => Sys2Proof.Machine.execSendAll reg val s
  | .renderChar pos code => Sys2Proof.Machine.execRenderChar pos code s
  | .frameNoop val => Sys2Proof.Machine.execFrameNoop val s
  | .frameDigit1 val => Sys2Proof.Machine.execFrameDigit1 val s
  | .frameDigit2 val => Sys2Proof.Machine.execFrameDigit2 val s
  | .frameDigit3 val => Sys2Proof.Machine.execFrameDigit3 val s
  | .frameDigit4 val => Sys2Proof.Machine.execFrameDigit4 val s
  | .frameDigit5 val => Sys2Proof.Machine.execFrameDigit5 val s
  | .frameDigit6 val => Sys2Proof.Machine.execFrameDigit6 val s
  | .frameDigit7 val => Sys2Proof.Machine.execFrameDigit7 val s
  | .frameDigit8 val => Sys2Proof.Machine.execFrameDigit8 val s
  | .frameDecodeMode val => Sys2Proof.Machine.execFrameDecodeMode val s
  | .frameIntensity val => Sys2Proof.Machine.execFrameIntensity val s
  | .frameScanLimit val => Sys2Proof.Machine.execFrameScanLimit val s
  | .frameShutdown val => Sys2Proof.Machine.execFrameShutdown val s
  | .frameDisplayTest val => Sys2Proof.Machine.execFrameDisplayTest val s

end Sys2Proof.Machine
end

