-- ==== Sys2Proof/Machine/Flags.lean ====
section
/-! DEFINITION. What the host sees of the block: the command port's ready line, STATUS, CHAIN_LEN, FAULT_CMD and fault_out
(10_state.md R24, R34 to R37, R42). Every read is free of side effects. -/

namespace Sys2Proof.Machine

/-- The 4-bit code of a cause (60_exceptions.md R160). -/
def Cause.code : Cause → BitVec 4
  | .none => 0x0
  | .illegalOpcode => 0x1
  | .reservedBits => 0x2
  | .notOpen => 0x3
  | .badPosition => 0x4

/-- STATUS bit 1: 1 when SESSION = OPEN (R34). -/
def State.openBit (s : State) : Bool :=
  match s.session with
  | .closed => false
  | .opened => true

/-- STATUS (R34): CAUSE in bits 7:4, SEL_DRIVEN in bit 3, FAULTED in bit 2, OPEN in bit 1, BUSY in bit 0. -/
def State.status (s : State) : BitVec 8 :=
  s.cause.code ++ BitVec.ofBool s.lines.selDriven ++ BitVec.ofBool s.faulted ++ BitVec.ofBool s.openBit ++ BitVec.ofBool s.busy

/-- CHAIN_LEN: N as a 16-bit unsigned number (R35). -/
def State.chainLen (s : State) : BitVec 16 := BitVec.ofNat 16 s.params.n

/-- FAULT_CMD (R36). -/
def State.faultCmdRegister (s : State) : CommandWord := s.faultCmd

/-- `fault_out`, equal to FAULTED (R42). -/
def State.faultOut (s : State) : Bool := s.faulted

/-- `cmd_ready = 1` exactly when `BUSY = 0` and `FAULTED = 0` (R24). -/
def State.cmdReady (s : State) : Bool := !s.busy && !s.faulted

/-- `cmd_valid`: the host presents a word (R24). -/
def State.cmdValid (s : State) : Bool := s.port.isSome

/-- `cmd_word`: the word presented (R24); 0 while none is, when no rule reads it. -/
def State.cmdWord (s : State) : CommandWord := s.port.getD 0

end Sys2Proof.Machine
end

