-- ==== Sys2Proof/WellFormed.lean ====
section
/-! DEFINITION. Which instructions have an encoding: the operand ranges of 30_encoding.md R80. -/

namespace Sys2Proof

/-- The operand ranges of 30_encoding.md R80, for the operands whose type does not already keep them: POS in 0..255, LEN in
0..65535, the offset in -32768..32767. -/
def Instr.wellFormed : Instr → Bool
  | .openSession => true
  | .closeSession => true
  | .setIntensity _ => true
  | .renderText len => decide (len < 65536)
  | .renderScroll len ofs => decide (len < 65536) && decide (-32768 ≤ ofs) && decide (ofs < 32768)
  | .sendPos pos _ _ => decide (pos < 256)
  | .sendAll _ _ => true
  | .renderChar pos _ => decide (pos < 256)
  | .frameNoop _ => true
  | .frameDigit1 _ => true
  | .frameDigit2 _ => true
  | .frameDigit3 _ => true
  | .frameDigit4 _ => true
  | .frameDigit5 _ => true
  | .frameDigit6 _ => true
  | .frameDigit7 _ => true
  | .frameDigit8 _ => true
  | .frameDecodeMode _ => true
  | .frameIntensity _ => true
  | .frameScanLimit _ => true
  | .frameShutdown _ => true
  | .frameDisplayTest _ => true

/-- Whether an instruction is a command, which the host presents, and not an output frame. -/
def Instr.isCommand : Instr → Bool
  | .openSession => true
  | .closeSession => true
  | .setIntensity _ => true
  | .renderText _ => true
  | .renderScroll _ _ => true
  | .sendPos _ _ _ => true
  | .sendAll _ _ => true
  | .renderChar _ _ => true
  | .frameNoop _ => false
  | .frameDigit1 _ => false
  | .frameDigit2 _ => false
  | .frameDigit3 _ => false
  | .frameDigit4 _ => false
  | .frameDigit5 _ => false
  | .frameDigit6 _ => false
  | .frameDigit7 _ => false
  | .frameDigit8 _ => false
  | .frameDecodeMode _ => false
  | .frameIntensity _ => false
  | .frameScanLimit _ => false
  | .frameShutdown _ => false
  | .frameDisplayTest _ => false

end Sys2Proof
end

