-- ==== Sys2Proof/Decode.lean ====
section
/-! DEFINITION. Decoding of command words and output frames, total on all words (30_encoding.md R70 to R78), and after it the
encoder, written from the same tables. -/

namespace Sys2Proof

/-- Field OP, bits 63:60 (R71). -/
def opField (w : CommandWord) : BitVec 4 := w.extractLsb' 60 4
/-- Field RSV, bits 59:56 (R71). -/
def rsvField (w : CommandWord) : BitVec 4 := w.extractLsb' 56 4
/-- Field POS, bits 55:48 (R71). -/
def posField (w : CommandWord) : BitVec 8 := w.extractLsb' 48 8
/-- Field REG, bits 47:40 (R71). -/
def regField (w : CommandWord) : Byte := w.extractLsb' 40 8
/-- Field VAL, bits 39:32 (R71). -/
def valField (w : CommandWord) : Byte := w.extractLsb' 32 8
/-- Field LEN, bits 31:16 (R71). -/
def lenField (w : CommandWord) : BitVec 16 := w.extractLsb' 16 16
/-- Field OFS, bits 15:0 (R71). -/
def ofsField (w : CommandWord) : BitVec 16 := w.extractLsb' 0 16

/-- `p = zext(w[55:48])` (R72). -/
def posOperand (w : CommandWord) : Nat := (posField w).toNat
/-- `L = zext(w[31:16])` (R72). -/
def lenOperand (w : CommandWord) : Nat := (lenField w).toNat
/-- `o = sval(w[15:0])`, sign-extended from bit 15 (R72). -/
def ofsOperand (w : CommandWord) : Int := (ofsField w).toInt

/-- The opcode map of R73: 0x1 to 0x8; every other value is reserved. -/
def opcodeOf (op : BitVec 4) : Option Opcode :=
  match op.toNat with
  | 1 => some .opOpen
  | 2 => some .opClose
  | 3 => some .opSetIntensity
  | 4 => some .opRenderText
  | 5 => some .opRenderScroll
  | 6 => some .opSendPos
  | 7 => some .opSendAll
  | 8 => some .opRenderChar
  | _ => none

/-- Operand assembly of a legal word (R72, R76). Fields the opcode does not use are not read (R74). -/
def assembleOperands (op : Opcode) (w : CommandWord) : Instr :=
  match op with
  | .opOpen => .openSession
  | .opClose => .closeSession
  | .opSetIntensity => .setIntensity (valField w)
  | .opRenderText => .renderText (lenOperand w)
  | .opRenderScroll => .renderScroll (lenOperand w) (ofsOperand w)
  | .opSendPos => .sendPos (posOperand w) (regField w) (valField w)
  | .opSendAll => .sendAll (regField w) (valField w)
  | .opRenderChar => .renderChar (posOperand w) (valField w)

/-- `decode(w)` of R76: first the opcode, then the reserved bits, then the operands. -/
def decodeCommand (w : CommandWord) : Decoded :=
  match opcodeOf (opField w) with
  | none => .illegal .illegalOpcode
  | some op => if rsvField w = 0 then .instr (assembleOperands op w) else .illegal .reservedBits

/-- The register byte of a frame word (R77). -/
def frameReg (w : FrameWord) : Byte := w.extractLsb' 8 8
/-- The value byte of a frame word (R77). -/
def frameVal (w : FrameWord) : Byte := w.extractLsb' 0 8

/-- The register codes of R78. `none`: the register byte is in no row of the table; the block still transfers such a frame
(R79), and the reference chain stores it under its byte (R56). -/
def decodeFrame (w : FrameWord) : Option Instr :=
  match (frameReg w).toNat with
  | 0x00 => some (.frameNoop (frameVal w))
  | 0x01 => some (.frameDigit1 (frameVal w))
  | 0x02 => some (.frameDigit2 (frameVal w))
  | 0x03 => some (.frameDigit3 (frameVal w))
  | 0x04 => some (.frameDigit4 (frameVal w))
  | 0x05 => some (.frameDigit5 (frameVal w))
  | 0x06 => some (.frameDigit6 (frameVal w))
  | 0x07 => some (.frameDigit7 (frameVal w))
  | 0x08 => some (.frameDigit8 (frameVal w))
  | 0x09 => some (.frameDecodeMode (frameVal w))
  | 0x0A => some (.frameIntensity (frameVal w))
  | 0x0B => some (.frameScanLimit (frameVal w))
  | 0x0C => some (.frameShutdown (frameVal w))
  | 0x0F => some (.frameDisplayTest (frameVal w))
  | _ => none

/-- The instruction a word of either kind holds, `none` where it holds none. -/
def decodeWords : Words → Option Instr
  | .command w =>
    match decodeCommand w with
    | .instr i => some i
    | .illegal _ => none
  | .frame w => decodeFrame w

/-- The word of the table's numbering, `nbits` bits of it: a frame where it fits 16 bits, else a command word. -/
def wordsOfBits (nbits w : Nat) : Words :=
  if nbits ≤ 16 then .frame (BitVec.ofNat 16 (w % 2 ^ nbits)) else .command (BitVec.ofNat 64 (w % 2 ^ nbits))

/-- The instruction the decoder reads from a table row's word. -/
def decodeTableWord (nbits w : Nat) : Option Instr := decodeWords (wordsOfBits nbits w)

/-! ## Encoder -/

/-- A command word from its fields, each at its place in R71's diagram, with RSV = 0. -/
def commandWord (op : BitVec 4) (pos reg val : BitVec 8) (len ofs : BitVec 16) : CommandWord :=
  op.setWidth 64 <<< 60 ||| pos.setWidth 64 <<< 48 ||| reg.setWidth 64 <<< 40 ||| val.setWidth 64 <<< 32
    ||| len.setWidth 64 <<< 16 ||| ofs.setWidth 64

/-- A frame word: register byte above value byte (R77). -/
def frameWord (reg val : Byte) : FrameWord := reg.setWidth 16 <<< 8 ||| val.setWidth 16

/-- The word of an instruction, with 0 in every field it does not name (R73, R80). `OFS = offset mod 2^16` (R80). -/
def encode : Instr → Words
  | .openSession => .command (commandWord 0x1 0 0 0 0 0)
  | .closeSession => .command (commandWord 0x2 0 0 0 0 0)
  | .setIntensity level => .command (commandWord 0x3 0 0 level 0 0)
  | .renderText len => .command (commandWord 0x4 0 0 0 (BitVec.ofNat 16 len) 0)
  | .renderScroll len ofs => .command (commandWord 0x5 0 0 0 (BitVec.ofNat 16 len) (BitVec.ofInt 16 ofs))
  | .sendPos pos reg val => .command (commandWord 0x6 (BitVec.ofNat 8 pos) reg val 0 0)
  | .sendAll reg val => .command (commandWord 0x7 0 reg val 0 0)
  | .renderChar pos code => .command (commandWord 0x8 (BitVec.ofNat 8 pos) 0 code 0 0)
  | .frameNoop v => .frame (frameWord 0x00 v)
  | .frameDigit1 v => .frame (frameWord 0x01 v)
  | .frameDigit2 v => .frame (frameWord 0x02 v)
  | .frameDigit3 v => .frame (frameWord 0x03 v)
  | .frameDigit4 v => .frame (frameWord 0x04 v)
  | .frameDigit5 v => .frame (frameWord 0x05 v)
  | .frameDigit6 v => .frame (frameWord 0x06 v)
  | .frameDigit7 v => .frame (frameWord 0x07 v)
  | .frameDigit8 v => .frame (frameWord 0x08 v)
  | .frameDecodeMode v => .frame (frameWord 0x09 v)
  | .frameIntensity v => .frame (frameWord 0x0A v)
  | .frameScanLimit v => .frame (frameWord 0x0B v)
  | .frameShutdown v => .frame (frameWord 0x0C v)
  | .frameDisplayTest v => .frame (frameWord 0x0F v)

/-- A word as a number, bit 0 its least significant bit. -/
def Words.toNat : Words → Nat
  | .command w => BitVec.toNat w
  | .frame w => BitVec.toNat w

/-- The row of spec/opcode_table.json an instruction belongs to. -/
def Instr.row : Instr → TableRow
  | .openSession => ⟨64, 0x1000000000000000, 0xFF00000000000000⟩
  | .closeSession => ⟨64, 0x2000000000000000, 0xFF00000000000000⟩
  | .setIntensity _ => ⟨64, 0x3000000000000000, 0xFF00000000000000⟩
  | .renderText _ => ⟨64, 0x4000000000000000, 0xFF00000000000000⟩
  | .renderScroll _ _ => ⟨64, 0x5000000000000000, 0xFF00000000000000⟩
  | .sendPos _ _ _ => ⟨64, 0x6000000000000000, 0xFF00000000000000⟩
  | .sendAll _ _ => ⟨64, 0x7000000000000000, 0xFF00000000000000⟩
  | .renderChar _ _ => ⟨64, 0x8000000000000000, 0xFF00000000000000⟩
  | .frameNoop _ => ⟨16, 0x0000, 0xFF00⟩
  | .frameDigit1 _ => ⟨16, 0x0100, 0xFF00⟩
  | .frameDigit2 _ => ⟨16, 0x0200, 0xFF00⟩
  | .frameDigit3 _ => ⟨16, 0x0300, 0xFF00⟩
  | .frameDigit4 _ => ⟨16, 0x0400, 0xFF00⟩
  | .frameDigit5 _ => ⟨16, 0x0500, 0xFF00⟩
  | .frameDigit6 _ => ⟨16, 0x0600, 0xFF00⟩
  | .frameDigit7 _ => ⟨16, 0x0700, 0xFF00⟩
  | .frameDigit8 _ => ⟨16, 0x0800, 0xFF00⟩
  | .frameDecodeMode _ => ⟨16, 0x0900, 0xFF00⟩
  | .frameIntensity _ => ⟨16, 0x0A00, 0xFF00⟩
  | .frameScanLimit _ => ⟨16, 0x0B00, 0xFF00⟩
  | .frameShutdown _ => ⟨16, 0x0C00, 0xFF00⟩
  | .frameDisplayTest _ => ⟨16, 0x0F00, 0xFF00⟩

/-- A word matches a table row: same width, and the fixed bits as the row has them. -/
def TableRow.covers (r : TableRow) : Words → Bool
  | .command w => r.nbits == 64 && (w &&& BitVec.ofNat 64 r.mask) == BitVec.ofNat 64 r.pattern
  | .frame w => r.nbits == 16 && (w &&& BitVec.ofNat 16 r.mask) == BitVec.ofNat 16 r.pattern

end Sys2Proof
end

