-- ==== Sys2Proof/Machine/Sequencer.lean ====
section
/-! DEFINITION. The sequencer: the events of an instruction, the item it has reached in the command in execution, and the ports
that show it (10_state.md R25, R26, R38, R39; log 7). -/

namespace Sys2Proof.Machine

open Sys2Proof.Config

/-- The events an instruction emits, for the parameters and memories of a state (R12, R82). -/
def instrEvents (i : Instr) (s : State) : List Event :=
  match i with
  | .openSession => openEvents s
  | .closeSession => closeEvents s
  | .setIntensity level => setIntensityEvents level s
  | .renderText len => renderTextEvents len s
  | .renderScroll len ofs => renderScrollEvents len ofs s
  | .sendPos pos reg val => sendPosEvents pos reg val s
  | .sendAll reg val => sendAllEvents reg val s
  | .renderChar pos code => renderCharEvents pos code s
  | .frameNoop v => frameEvents 0x00 v
  | .frameDigit1 v => frameEvents 0x01 v
  | .frameDigit2 v => frameEvents 0x02 v
  | .frameDigit3 v => frameEvents 0x03 v
  | .frameDigit4 v => frameEvents 0x04 v
  | .frameDigit5 v => frameEvents 0x05 v
  | .frameDigit6 v => frameEvents 0x06 v
  | .frameDigit7 v => frameEvents 0x07 v
  | .frameDigit8 v => frameEvents 0x08 v
  | .frameDecodeMode v => frameEvents 0x09 v
  | .frameIntensity v => frameEvents 0x0A v
  | .frameScanLimit v => frameEvents 0x0B v
  | .frameShutdown v => frameEvents 0x0C v
  | .frameDisplayTest v => frameEvents 0x0F v

/-- Whether an event is a byte transfer. -/
def Event.isXfer : Event → Bool
  | .selDrive => false
  | .xportInit => false
  | .selAssert => false
  | .xfer _ => true
  | .selDeassert => false
  | .xportRelease => false

/-- The sequencer's next item: a whole frame where it stands at the start of a slot, else one event. -/
inductive Item where
  | frame (w : FrameWord)
  | event (e : Event)
  deriving DecidableEq, Repr

/-- The item a command has reached: `evs` are its events, `done` of them are completed. Every pulse has an even number of
transfers (R92), so a slot begins where the number of completed transfers is even. -/
def nextItem (evs : List Event) (done : Nat) : Option Item :=
  match evs.drop done with
  | [] => none
  | .xfer r :: .xfer v :: _ =>
    if (evs.take done).countP Event.isXfer % 2 = 0 then some (.frame (frameWord r v)) else some (.event (.xfer r))
  | e :: _ => some (.event e)

/-- One event of the command in execution, the last of which ends the command. -/
def State.sendEvent (s : State) (e : Event) (total : Nat) : State := (s.transfer [e]).settle total

/-! ## The ports that show the sequencer -/

/-- `sel_oe` mirrors SEL_DRIVEN (R25), which changes when the transport has completed the event: DESIGN CHOICE (log 23), as for `sel_n`
and `xport_en`. -/
def State.selOe (s : State) : Bool := s.lines.selDriven

/-- `sel_n` mirrors SEL_LEVEL (R25). -/
def State.selN (s : State) : Bool := s.lines.selLevel

/-- `xport_en` mirrors XPORT_ACTIVE (R25). -/
def State.xportEn (s : State) : Bool := s.lines.xportActive

/-- The byte transfer requested (R25): the byte of the event the command in execution waits for, if that is a transfer. -/
def State.txRequest (s : State) : Option Byte :=
  match s.job with
  | none => none
  | some j =>
    match (instrEvents j.instr s).drop j.done with
    | .xfer b :: _ => some b
    | _ => none

/-- `tx_valid` (R25). -/
def State.txValid (s : State) : Bool := s.txRequest.isSome

/-- `tx_byte` (R25); 0 while `tx_valid` is 0, when no rule reads it. -/
def State.txByte (s : State) : Byte := s.txRequest.getD 0

/-- `font_glyph[63:0]` for `font_code`: glyph byte c in bits 8c+7:8c (R26). -/
def State.fontPort (s : State) (code : Byte) : BitVec 64 :=
  let g := fun c => s.font.readByte (code.toNat * 8 + c)
  g 7 ++ g 6 ++ g 5 ++ g 4 ++ g 3 ++ g 2 ++ g 1 ++ g 0

/-- `text_data[7:0]` for `text_addr` (R26). -/
def State.textPort (s : State) (a : BitVec 16) : Byte := s.text.readByte a.toNat

/-- The bits of a byte in the order the transport shifts them (R52): the one reader of XPORT_BIT_ORDER. No rule of the block
depends on it. -/
def wireBits (order : BitOrder) (b : Byte) : List Bool :=
  match order with
  | .msbFirst => (List.range 8).map (fun i => b.getLsbD (7 - i))
  | .lsbFirst => (List.range 8).map (fun i => b.getLsbD i)

end Sys2Proof.Machine
end

