-- ==== Sys2Proof/Machine/Turns.lean ====
section
/-! DEFINITION. The turns of the agents: accepting a command, going on with the one in execution, and what the host, the transport
and a foreign bus agent do (10_state.md R23, R24; 60_exceptions.md R161; log 5, log 7). -/

namespace Sys2Proof.Machine

/-- Execution of a latched word `w` (R161): BUSY <- 1, decode, and the command's meaning, or the fault of an illegal word. -/
def executeWord (w : CommandWord) (s : State) : Host.Outcome State Fault Refusal :=
  let t := { s with busy := true, latched := w }
  match decodeCommand w with
  | .illegal c => .next (t.raise (causeOf c))
  | .instr i => exec i t

/-- The command in execution goes on by one item (log 7). A frame whose register byte is in no row of the table is transferred all
the same (R79). -/
def continueJob (j : Job) (s : State) : Host.Outcome State Fault Refusal :=
  let evs := instrEvents j.instr s
  match nextItem evs j.done with
  | none => .next (s.settle evs.length)
  | some (.event e) => .next (s.sendEvent e evs.length)
  | some (.frame w) =>
    match decodeFrame w with
    | some i => exec i s
    | none => .next (s.sendFrame (frameReg w) (frameVal w))

/-- The block's turn. In reset it does nothing (R180). It goes on with the command in execution; else, where it is ready and a word
is presented, it accepts the word, and the host sees that and drives `cmd_valid = 0` (R24; log 4); else it waits, and after a fault it waits until reset (R164). -/
def blockTurn (s : State) : Host.Outcome State Fault Refusal :=
  if s.rst then .next s
  else
    match s.job with
    | some j => continueJob j s
    | none =>
      if s.cmdReady then
        match s.port with
        | none => .next s
        | some w => executeWord w { s with port := none }
      else .next s

/-- One agent's turn. -/
def takeTurn (t : Turn) (s : State) : Host.Outcome State Fault Refusal :=
  match t with
  | .block => blockTurn s
  | .hostPresents w => .next (s.drivePort (some w))
  | .hostWithdraws => .next (s.drivePort none)
  | .hostWritesFont a b => .next (s.hostWriteFont a b)
  | .hostWritesText a b => .next (s.hostWriteText a b)
  | .hostDrivesReset level => .next (s.driveReset level)
  | .transportGrants g => .next { s with grant := g }
  | .foreignBusAgent => .next { s with chain := s.chain.disturb }

/-- The turn the schedule says, and the block's where it says none. -/
def scheduledTurn (s : State) : Host.Outcome State Fault Refusal :=
  match s.sched with
  | [] => blockTurn s
  | t :: rest => takeTurn t { s with sched := rest }

/-- The state in which the block's next turn accepts the command word `w`: it is the word presented, and the block is ready
and not in reset (R24, R180). -/
def State.presentNext (s : State) (w : CommandWord) : State :=
  { s.clearTransient with
    busy := false
    faulted := false
    cause := .none
    faultCmd := 0
    rst := false
    port := some w
    sched := [] }

/-- The state in which the sequencer's next item is the frame `w`: a SEND_ALL of that frame is in execution in an open session, and
its pulse has just been opened (R91; log 8). -/
def State.frameNext (s : State) (w : FrameWord) : State :=
  let i := Instr.sendAll (frameReg w) (frameVal w)
  let t : State :=
    { s.clearTransient with
      session := .opened
      faulted := false
      cause := .none
      faultCmd := 0
      rst := false
      lines := { selDriven := true, selLevel := true, xportActive := true }
      latched := commandWord 0x7 0 (frameReg w) (frameVal w) 0 0
      grant := none
      sched := [] }
  (t.beginCommand i).transfer [.selAssert]

end Sys2Proof.Machine
end

