-- ==== Sys2Proof/Machine/Step.lean ====
section
/-! DEFINITION. One step of the machine, and the state whose next step runs a given word. -/

namespace Sys2Proof.Machine

/-- One step: the scheduled agent's turn (Machine/Turns.lean). -/
def step (s : State) : Host.Outcome State Fault Refusal := scheduledTurn s

/-- `s` with the word of a table row where the next step takes its instruction from: a command word on the command port, a frame
in the pulse in flight (log 4, log 8). -/
def State.withFetchWord (s : State) (nbits w : Nat) : State :=
  match wordsOfBits nbits w with
  | .command c => s.presentNext c
  | .frame f => s.frameNext f

end Sys2Proof.Machine
end

