-- ==== Sys2Proof/Machine/Assembler.lean ====
section
/-! DEFINITION. The assembler of 30_encoding.md R80 and R81: one line of text to one instruction. An operand out of its range
refuses the line; nothing is truncated. Blanks, letter case and empty lines are this model's (log 19). -/

namespace Sys2Proof.Machine

/-- What assembling a line answers. -/
inductive AsmResult where
  /-- The line holds no command: it is blank or a comment. -/
  | nothing
  /-- The line is refused (R80). -/
  | refused
  /-- The line's command. -/
  | instr (i : Instr)
  deriving DecidableEq, Repr

/-- A line without its comment: `;` starts a comment (R80). -/
def stripComment (line : List Char) : List Char := line.takeWhile (· != ';')

/-- A blank between the words of a line. -/
def isBlank (c : Char) : Bool := c == ' ' || c == '\t'

/-- Text without the blanks around it. -/
def trimBlanks (t : List Char) : List Char := ((t.dropWhile isBlank).reverse.dropWhile isBlank).reverse

/-- The value of a digit in a base of at most 16. -/
def digitValue (base : Nat) (c : Char) : Option Nat :=
  let n := c.toNat
  let v := if 48 ≤ n ∧ n ≤ 57 then n - 48
    else if 97 ≤ n ∧ n ≤ 102 then n - 87
    else if 65 ≤ n ∧ n ≤ 70 then n - 55
    else base
  if v < base then some v else none

/-- The number the digits stand for, most significant first, after the value `acc`. -/
def digitsValue (base acc : Nat) : List Char → Option Nat
  | [] => some acc
  | c :: rest => (digitValue base c).bind (fun v => digitsValue base (acc * base + v) rest)

/-- A number without a sign: decimal, `0x` hexadecimal or `0b` binary (R80). -/
def parseUnsigned : List Char → Option Nat
  | [] => none
  | ['0', 'x'] => none
  | ['0', 'b'] => none
  | '0' :: 'x' :: ds => digitsValue 16 0 ds
  | '0' :: 'b' :: ds => digitsValue 2 0 ds
  | ds => digitsValue 10 0 ds

/-- A number, with a minus sign where it is negative (R80). -/
def parseNumber : List Char → Option Int
  | '-' :: rest => (parseUnsigned rest).map (fun n => -(n : Int))
  | t => (parseUnsigned t).map (fun n => (n : Int))

/-- The pieces of a text between commas. -/
def splitCommas : List Char → List (List Char)
  | [] => [[]]
  | c :: rest =>
    if c = ',' then [] :: splitCommas rest
    else
      match splitCommas rest with
      | [] => [[c]]
      | piece :: pieces => (c :: piece) :: pieces

/-- The numbers of a list of texts, if all are numbers. -/
def parseAll : List (List Char) → Option (List Int)
  | [] => some []
  | t :: rest => (parseNumber (trimBlanks t)).bind (fun n => (parseAll rest).map (fun ns => n :: ns))

/-- The operands of a line, after its mnemonic. -/
def parseOperands (t : List Char) : Option (List Int) :=
  match trimBlanks t with
  | [] => some []
  | u => parseAll (splitCommas u)

/-- A number in 0..255 as a byte. -/
def asByte (n : Int) : Option Byte := if 0 ≤ n ∧ n ≤ 255 then some (BitVec.ofInt 8 n) else none
/-- A number in 0..255 as a position. -/
def asPos (n : Int) : Option Nat := if 0 ≤ n ∧ n ≤ 255 then some n.toNat else none
/-- A number in 0..65535 as a length. -/
def asLen (n : Int) : Option Nat := if 0 ≤ n ∧ n ≤ 65535 then some n.toNat else none
/-- A number in -32768..32767 as an offset. -/
def asOfs (n : Int) : Option Int := if -32768 ≤ n ∧ n ≤ 32767 then some n else none
/-- A number in 0..7 as a column. -/
def asCol (n : Int) : Option (Fin 8) := if h : n.toNat < 8 then (if 0 ≤ n then some ⟨n.toNat, h⟩ else none) else none

/-- The mnemonics of R80 and the pseudo-instructions of R81. -/
inductive Mnemonic where
  | open'
  | close
  | setIntensity
  | renderText
  | renderScroll
  | sendPos
  | sendAll
  | renderChar
  | clear
  | shutdown
  | wake
  | nopPulse
  | setColumn
  deriving DecidableEq, Repr

/-- The mnemonics as they are written. -/
def mnemonicNames : List (List Char × Mnemonic) :=
  [("OPEN".toList, .open'), ("CLOSE".toList, .close), ("SET_INTENSITY".toList, .setIntensity),
    ("RENDER_TEXT".toList, .renderText), ("RENDER_SCROLL".toList, .renderScroll), ("SEND_POS".toList, .sendPos),
    ("SEND_ALL".toList, .sendAll), ("RENDER_CHAR".toList, .renderChar), ("CLEAR".toList, .clear),
    ("SHUTDOWN".toList, .shutdown), ("WAKE".toList, .wake), ("NOP_PULSE".toList, .nopPulse),
    ("SET_COLUMN".toList, .setColumn)]

/-- The mnemonic a word of a line is. -/
def mnemonicOf (t : List Char) : Option Mnemonic := (mnemonicNames.find? (fun x => x.1 == t)).map (fun x => x.2)

/-- The instruction of a mnemonic and its operands: the syntax table of R80 and the pseudo-instructions of R81. -/
def assembleParts (m : Mnemonic) (ops : List Int) : Option Instr :=
  match m, ops with
  | .open', [] => some .openSession
  | .close, [] => some .closeSession
  | .setIntensity, [l] => (asByte l).map Instr.setIntensity
  | .renderText, [l] => (asLen l).map Instr.renderText
  | .renderScroll, [l, o] => (asLen l).bind (fun l' => (asOfs o).map (fun o' => Instr.renderScroll l' o'))
  | .sendPos, [p, r, v] =>
    (asPos p).bind (fun p' => (asByte r).bind (fun r' => (asByte v).map (fun v' => Instr.sendPos p' r' v')))
  | .sendAll, [r, v] => (asByte r).bind (fun r' => (asByte v).map (fun v' => Instr.sendAll r' v'))
  | .renderChar, [p, c] => (asPos p).bind (fun p' => (asByte c).map (fun c' => Instr.renderChar p' c'))
  | .clear, [] => some (expandPseudo .clear)
  | .shutdown, [] => some (expandPseudo .shutdown)
  | .wake, [] => some (expandPseudo .wake)
  | .nopPulse, [] => some (expandPseudo .nopPulse)
  | .setColumn, [p, c, b] =>
    (asPos p).bind (fun p' => (asCol c).bind (fun c' => (asByte b).map (fun b' => expandPseudo (.setColumn p' c' b'))))
  | _, _ => none

/-- Assemble one line (R80). -/
def assembleLine (line : List Char) : AsmResult :=
  let body := trimBlanks (stripComment line)
  match body with
  | [] => .nothing
  | _ =>
    match parseOperands (body.dropWhile (fun c => !isBlank c)) with
    | none => .refused
    | some ops =>
      match (mnemonicOf (body.takeWhile (fun c => !isBlank c))).bind (fun m => assembleParts m ops) with
      | none => .refused
      | some i => .instr i

/-- Assemble one line to its word. -/
def assembleWord (line : List Char) : Option Words :=
  match assembleLine line with
  | .nothing => none
  | .refused => none
  | .instr i => some (encode i)

end Sys2Proof.Machine
end

