-- ==== Sys2Proof/Safety.lean ====
section
/-! DEFINITION. What counts as a good run, in the terms the statements use: pulse structure, the invariant of the machine, the
preconditions on the host, and the results of commands as plain records. -/

namespace Sys2Proof.Machine

open Sys2Proof.Config

/-! ## Pulse structure of a list of events (41_register_protocol.md R92) -/

/-- Where a list of events stands: outside every pulse, or inside one after `count` transfers. -/
inductive Phase where
  | outside
  | inside (count : Nat)
  deriving DecidableEq, Repr

/-- One event more, for a chain of `n`: `none` where the event breaks the structure of R92. -/
def Phase.next (n : Nat) (p : Phase) (e : Event) : Option Phase :=
  match p, e with
  | .outside, .selDrive => some .outside
  | .outside, .xportInit => some .outside
  | .outside, .selAssert => some (.inside 0)
  | .outside, .xfer _ => none
  | .outside, .selDeassert => none
  | .outside, .xportRelease => some .outside
  | .inside _, .selDrive => none
  | .inside _, .xportInit => none
  | .inside _, .selAssert => none
  | .inside c, .xfer _ => some (.inside (c + 1))
  | .inside c, .selDeassert => if c = 2 * n then some .outside else none
  | .inside _, .xportRelease => none

/-- Where a list of events leads, from `p`; `none` where it breaks the structure. -/
def scanPulses (n : Nat) (p : Phase) : List Event → Option Phase
  | [] => some p
  | e :: rest =>
    match p.next n e with
    | some q => scanPulses n q rest
    | none => none

/-! ## The invariant -/

/-- The position of a command that names one lies in the chain (R161). -/
def positionInChain (n : Nat) (i : Instr) : Prop :=
  match i with
  | .sendPos p _ _ => p < n
  | .renderChar p _ => p < n
  | _ => True

/-- What the chain has received agrees with where the sequencer stands. -/
def Phase.agrees (p : Phase) (q : Pulse) : Prop :=
  match p with
  | .outside => q = .idle
  | .inside c => q = .spoiled ∨ ∃ bytes : List Byte, q = .opened bytes ∧ bytes.length = c

/-- What holds of a command in execution. -/
structure JobInv (s : State) (j : Job) : Prop where
  command : j.instr.isCommand = true
  position : positionInChain s.params.n j.instr
  session : j.instr = .openSession ∨ s.session = .opened
  unfinished : j.done < (instrEvents j.instr s).length
  driven : j.instr = .openSession → 1 ≤ j.done → s.lines.selDriven = true
  active : j.instr = .openSession → 2 ≤ j.done → s.lines.xportActive = true
  phase : ∃ p, scanPulses s.params.n .outside ((instrEvents j.instr s).take j.done) = some p ∧ p.agrees s.chain.pulse ∧
    (p = .outside → s.lines.selDriven = true → s.lines.selLevel = true) ∧ (p ≠ .outside → s.lines.selLevel = false)

/-- The invariant of the machine: what the spec says of every state a run reaches. -/
structure State.Inv (s : State) : Prop where
  /-- FONT and TEXT are in canonical form and inside their address ranges (20_memory.md R46, R49). -/
  fontWf : Memory.wf fontSize s.font
  textWf : Memory.wf textSize s.text
  /-- The chain's registers are in canonical form, of positions in 0..N-1 and register bytes not 0x00 (R56). -/
  chainWf : Chain.wf s.params.n s.chain
  /-- No pulse of the block has been refused (R59, R92). -/
  notRefused : s.chain.refused = false
  /-- BUSY is 1 exactly while a command is in execution (R30). -/
  busyIff : s.busy = s.job.isSome
  /-- No transient state outside a command (R38). -/
  idleTransient : s.job = none → s.latched = 0 ∧ s.racedFont = [] ∧ s.racedText = []
  /-- CAUSE and FAULT_CMD are 0 while FAULTED = 0 (R34, R36). -/
  noFault : s.faulted = false → s.cause = .none ∧ s.faultCmd = 0
  /-- After a fault a cause is recorded and no command is in execution (R160, R164). -/
  fault : s.faulted = true → s.cause ≠ .none ∧ s.job = none
  /-- In an open session the select line is driven and the transport initialised (R32, R149). -/
  openLines : s.session = .opened → s.lines.selDriven = true ∧ s.lines.xportActive = true
  /-- Outside a command SEL_LEVEL = 1 whenever SEL_DRIVEN = 1, and no pulse is open (R31, R92). -/
  idleLines : s.job = none → (s.lines.selDriven = true → s.lines.selLevel = true) ∧ s.chain.pulse = .idle
  /-- While `rst` is asserted every element of R28 holds its reset value (R180). -/
  inReset : s.rst = true → s.session = .closed ∧ s.job = none ∧ s.faulted = false ∧ s.lines = Lines.reset
  /-- The command in execution. -/
  jobInv : ∀ j, s.job = some j → JobInv s j

/-! ## Preconditions on the host and the transport -/

/-- The font precondition `glyph(0x20) = ZERO8` (R48, R183). -/
def State.fontPrecondition (s : State) : Prop := ∀ tag, s.glyph tag spaceCode = zero8

/-- The host has not written FONT or TEXT during the command (its duty of R184). -/
def State.quiet (s : State) : Prop := s.racedFont = [] ∧ s.racedText = []

/-- The transport completes every event it is given: the fairness premise of R190. -/
def State.transportCompletes (s : State) : Prop := s.grant = none

/-- The block's turn comes next and it accepts the word `w` (R24, R180). -/
def State.accepts (s : State) (w : CommandWord) : Prop :=
  s.sched = [] ∧ s.rst = false ∧ s.job = none ∧ s.busy = false ∧ s.faulted = false ∧ s.port = some w

/-- A pulse of the given frames: SelAssert, the register and the value byte of each, SelDeassert (R55, R92). -/
def pulseOf (frames : List (Byte × Byte)) : List Event :=
  .selAssert :: frames.flatMap (fun f => [Event.xfer f.1, Event.xfer f.2]) ++ [.selDeassert]

/-! ## What the spec says of a word and of a command, in numbers -/

/-- The cause a word presented to an idle block records, `none` where it records none: the first that applies in the order of
60_exceptions.md R163, from the word's own bits. -/
def firstCause (n : Nat) (session : Session) (w : CommandWord) : Option Cause :=
  if w.toNat / 2 ^ 60 = 0 ∨ 9 ≤ w.toNat / 2 ^ 60 then some .illegalOpcode
  else if w.toNat / 2 ^ 56 % 16 ≠ 0 then some .reservedBits
  else if w.toNat / 2 ^ 60 ≠ 1 ∧ session = .closed then some .notOpen
  else if (w.toNat / 2 ^ 60 = 6 ∨ w.toNat / 2 ^ 60 = 8) ∧ n ≤ w.toNat / 2 ^ 48 % 256 then some .badPosition
  else none

/-- The CHIPREG entries an instruction may write, on a chain of `n` (R96, R97, R110, R146, R148). A frame writes none until its
pulse is latched (R57). -/
def mayWriteChip (n : Nat) (i : Instr) (k : Nat) (r : Byte) : Prop :=
  match i with
  | .openSession => k < n ∧ ((1 ≤ r.toNat ∧ r.toNat ≤ 12) ∨ r.toNat = 15)
  | .closeSession => k < n ∧ r.toNat = 12
  | .setIntensity _ => k < n ∧ r.toNat = 10
  | .renderText _ => k < n ∧ 1 ≤ r.toNat ∧ r.toNat ≤ 8
  | .renderScroll _ _ => k < n ∧ 1 ≤ r.toNat ∧ r.toNat ≤ 8
  | .sendPos p q _ => k = p ∧ r = q ∧ r.toNat ≠ 0
  | .sendAll q _ => k < n ∧ r = q ∧ r.toNat ≠ 0
  | .renderChar p _ => k = p ∧ 1 ≤ r.toNat ∧ r.toNat ≤ 8
  | .frameNoop _ => False
  | .frameDigit1 _ => False
  | .frameDigit2 _ => False
  | .frameDigit3 _ => False
  | .frameDigit4 _ => False
  | .frameDigit5 _ => False
  | .frameDigit6 _ => False
  | .frameDigit7 _ => False
  | .frameDigit8 _ => False
  | .frameDecodeMode _ => False
  | .frameIntensity _ => False
  | .frameScanLimit _ => False
  | .frameShutdown _ => False
  | .frameDisplayTest _ => False

/-- Every element of 10_state.md R28 at its reset value (R40), and no transient state. -/
def State.atReset (s : State) : Prop :=
  s.session = .closed ∧ s.busy = false ∧ s.faulted = false ∧ s.cause = .none ∧ s.faultCmd = 0 ∧
    s.lines.selDriven = false ∧ s.lines.selLevel = true ∧ s.lines.xportActive = false ∧ s.job = none ∧ s.latched = 0

/-- The next turn is the host asserting `rst`. -/
def State.resetNext (s : State) : Prop := ∃ rest, s.sched = .hostDrivesReset true :: rest

/-- The next turn is the host's at the command port: it presents a word or withdraws the one it presents (R24). -/
def State.hostMovesPort (s : State) : Prop := (∃ w rest, s.sched = .hostPresents w :: rest) ∨ ∃ rest, s.sched = .hostWithdraws :: rest

/-- An event with its byte, if it has one, set to 0. -/
def Event.blank : Event → Event
  | .selDrive => .selDrive
  | .xportInit => .xportInit
  | .selAssert => .selAssert
  | .xfer _ => .xfer 0
  | .selDeassert => .selDeassert
  | .xportRelease => .xportRelease

/-- The shape of a list of events: which events it has, whatever the bytes transferred. -/
def shape (evs : List Event) : List Event := evs.map Event.blank

/-- An event that only a pulse has (R32). -/
def Event.ofPulse : Event → Bool
  | .selDrive => false
  | .xportInit => false
  | .selAssert => true
  | .xfer _ => true
  | .selDeassert => true
  | .xportRelease => false

/-- The pulses and byte transfers of a list of events (70_reset_and_hazards.md R189). -/
def pulseCount (evs : List Event) : Nat := evs.countP (fun e => e == .selDeassert)
def transferCount (evs : List Event) : Nat := evs.countP Event.isXfer

/-- The frames of `sendToPosition(p, r, v)` by slot (R90), on a chain of `n`. -/
def framesAt (n p : Nat) (r v : Byte) : List (Byte × Byte) := (List.range n).map (fun j => if j = p then (r, v) else (0, 0))

/-- The 8 pulses that render `g` at position `p`, column `col` to register `col + 1` (42_glyph_rotator.md R108). -/
def glyphPulses (n p : Nat) (g : Glyph) : List Event :=
  (List.range 8).flatMap (fun col => pulseOf (framesAt n p (BitVec.ofNat 8 (col + 1)) (glyphByte (rot g) col)))

/-- The glyph of a character code, from what the host left in FONT (20_memory.md R46, R47). -/
def hostGlyph (s : State) (ch : Byte) : Glyph := (List.range 8).map (fun c => s.font.readByte (ch.toNat * 8 + c))

/-! ## Lines of assembler text (30_encoding.md R80) -/

/-- A number as it is written: decimal, `0x` hexadecimal or `0b` binary, with at least one digit. -/
inductive Numeral where
  | decimal (first : Fin 10) (rest : List (Fin 10))
  | hexadecimal (first : Fin 16) (rest : List (Fin 16))
  | binary (first : Fin 2) (rest : List (Fin 2))
  deriving DecidableEq, Repr

/-- Digits as text. -/
def digitsText {base : Nat} (ds : List (Fin base)) : List Char := ds.map (fun d => Nat.digitChar d.val)

/-- The number that digits of a base stand for, the most significant first. -/
def digitsNumber {base : Nat} (ds : List (Fin base)) : Nat := ds.foldl (fun n d => n * base + d.val) 0

def Numeral.text : Numeral → List Char
  | .decimal d ds => digitsText (d :: ds)
  | .hexadecimal d ds => '0' :: 'x' :: digitsText (d :: ds)
  | .binary d ds => '0' :: 'b' :: digitsText (d :: ds)

def Numeral.value : Numeral → Nat
  | .decimal d ds => digitsNumber (d :: ds)
  | .hexadecimal d ds => digitsNumber (d :: ds)
  | .binary d ds => digitsNumber (d :: ds)

/-- An operand as it is written: a number, and a minus sign where it is negative. -/
structure Operand where
  negative : Bool
  digits : Numeral
  deriving DecidableEq, Repr

def Operand.text (x : Operand) : List Char := if x.negative then '-' :: x.digits.text else x.digits.text

def Operand.value (x : Operand) : Int := if x.negative then -(x.digits.value : Int) else x.digits.value

/-- A line: the mnemonic, then the operands separated by commas. -/
def lineText (name : String) : List Operand → List Char
  | [] => name.toList
  | ops => name.toList ++ ' ' :: [',', ' '].intercalate (ops.map Operand.text)

/-- The operand is a number of the range. -/
abbrev Operand.within (x : Operand) (low high : Int) : Prop := low ≤ x.value ∧ x.value ≤ high

/-- The operand as a byte of a command word, where it is one. -/
def Operand.byte (x : Operand) : Byte := BitVec.ofInt 8 x.value

/-! ## Results as plain records -/

/-- The state in which a command that emits `evs` has ended: its events on the trace, the lines and the chain as they leave them,
SESSION as given, BUSY = 0 and no transient state; all else as before. -/
def State.afterCommand (s : State) (evs : List Event) (session : Session) : State :=
  { s with
    trace := s.trace ++ evs
    lines := evs.foldl Lines.take s.lines
    chain := evs.foldl (Chain.take s.params.n) s.chain
    session := session
    busy := false
    latched := 0
    job := none
    racedFont := []
    racedText := [] }

/-- The state after the fault `c` of the command word `w` (60_exceptions.md R162). -/
def State.afterFault (s : State) (c : Cause) (w : CommandWord) : State :=
  { s with
    faulted := true
    cause := c
    faultCmd := w
    busy := false
    latched := 0
    job := none
    racedFont := []
    racedText := [] }

/-- The state after an output frame: its two transfers on the trace and at the chain, counted in the command in execution; all else
as before (R77). -/
def State.afterFrame (s : State) (r v : Byte) : State :=
  { s with
    trace := s.trace ++ [Event.xfer r, Event.xfer v]
    chain := (s.chain.take s.params.n (.xfer r)).take s.params.n (.xfer v)
    job := s.job.map (fun j => { j with done := j.done + 2 }) }

/-- The text's pixel strip (43_scroll_compositor.md R125): column `X` of a text of length `len`, from what the host left in FONT
and TEXT. -/
def strip (s : State) (len : Nat) (x : Int) : Byte :=
  if 0 ≤ x / 8 ∧ x / 8 < len then s.font.readByte ((s.text.readByte (x / 8).toNat).toNat * 8 + (x % 8).toNat) else 0

end Sys2Proof.Machine
end

