-- ==== Sys2Proof/Certificates/Slice0/Obligations.lean ====
section
/-! DEFINITION. The statements for the provers. -/

open Sys2Proof Sys2Proof.Machine Sys2Proof.Config

/-! ## Encoding -/

/-- Every well-formed instruction is what its word decodes to, also in the table's numbering of bits (R71 to R73, R78, R80). -/
def Obligations.DecodeEncodeRoundTrip : Prop :=
  ∀ i : Instr, i.wellFormed = true →
    decodeWords (encode i) = some i ∧ decodeTableWord i.row.nbits (encode i).toNat = some i

/-- A word that decodes is well formed, has the fixed bits of its instruction's row, and, if it is a frame, is the only word of that
instruction. -/
def Obligations.DecodedWordsMatchTheirRow : Prop :=
  ∀ (w : Words) (i : Instr), decodeWords w = some i →
    i.wellFormed = true ∧ i.row.covers w = true ∧ (∀ f, w = .frame f → encode i = w)

/-- `decode` of 30_encoding.md R76, with the operands of R72, in the arithmetic of the word. -/
def Obligations.DecodeFollowsFieldTable : Prop :=
  ∀ w : CommandWord,
    let op := w.toNat / 2 ^ 60
    let rsv := w.toNat / 2 ^ 56 % 16
    let p := w.toNat / 2 ^ 48 % 256
    let r := BitVec.ofNat 8 (w.toNat / 2 ^ 40 % 256)
    let v := BitVec.ofNat 8 (w.toNat / 2 ^ 32 % 256)
    let len := w.toNat / 2 ^ 16 % 65536
    let x := w.toNat % 65536
    let o : Int := if x < 32768 then (x : Int) else (x : Int) - 65536
    ((op = 0 ∨ 9 ≤ op) → decodeCommand w = .illegal .illegalOpcode) ∧
    (1 ≤ op ∧ op ≤ 8 → rsv ≠ 0 → decodeCommand w = .illegal .reservedBits) ∧
    (op = 1 → rsv = 0 → decodeCommand w = .instr .openSession) ∧
    (op = 2 → rsv = 0 → decodeCommand w = .instr .closeSession) ∧
    (op = 3 → rsv = 0 → decodeCommand w = .instr (.setIntensity v)) ∧
    (op = 4 → rsv = 0 → decodeCommand w = .instr (.renderText len)) ∧
    (op = 5 → rsv = 0 → decodeCommand w = .instr (.renderScroll len o)) ∧
    (op = 6 → rsv = 0 → decodeCommand w = .instr (.sendPos p r v)) ∧
    (op = 7 → rsv = 0 → decodeCommand w = .instr (.sendAll r v)) ∧
    (op = 8 → rsv = 0 → decodeCommand w = .instr (.renderChar p v))

/-- Fields an opcode does not use are ignored, and only OP and RSV select the command (30_encoding.md R74). Words of one command have
one effect: the same next state, but for the word a fault records (R162). -/
def Obligations.UnusedFieldsAreIgnored : Prop :=
  (∀ (op : BitVec 4) (pos reg val pos' reg' val' : BitVec 8) (len ofs len' ofs' : BitVec 16),
    let w := commandWord op pos reg val len ofs
    (op = 1 ∨ op = 2 → decodeCommand w = decodeCommand (commandWord op pos' reg' val' len' ofs')) ∧
    (op = 3 → decodeCommand w = decodeCommand (commandWord op pos' reg' val len' ofs')) ∧
    (op = 4 → decodeCommand w = decodeCommand (commandWord op pos' reg' val' len ofs')) ∧
    (op = 5 → decodeCommand w = decodeCommand (commandWord op pos' reg' val' len ofs)) ∧
    (op = 6 → decodeCommand w = decodeCommand (commandWord op pos reg val len' ofs')) ∧
    (op = 7 → decodeCommand w = decodeCommand (commandWord op pos' reg val len' ofs')) ∧
    (op = 8 → decodeCommand w = decodeCommand (commandWord op pos reg' val len' ofs'))) ∧
  (∀ w w' : CommandWord, w.toNat / 2 ^ 56 = w'.toNat / 2 ^ 56 →
    match decodeCommand w, decodeCommand w' with
    | .illegal c, .illegal c' => c = c'
    | .instr i, .instr i' => i.row = i'.row
    | _, _ => False) ∧
  (∀ (s t : State) (w w' : CommandWord) (i : Instr), s.accepts w → s.transportCompletes →
    decodeCommand w = .instr i → decodeCommand w' = .instr i → step s = .next t →
    step { s with port := some w' } = .next { t with faultCmd := if t.faulted then w' else t.faultCmd })

/-- The reserved and illegal encodings (30_encoding.md R75), by the word and by what the block does with it: the fault entry of
60_exceptions.md R162. That the accepted word leaves the port is the model's choice (log 4). -/
def Obligations.IllegalWordsFault : Prop :=
  (∀ w : CommandWord, decodeCommand w = .illegal .illegalOpcode ↔
    w.toNat / 2 ^ 60 ∈ [0x0, 0x9, 0xA, 0xB, 0xC, 0xD, 0xE, 0xF]) ∧
  (∀ w : CommandWord, decodeCommand w = .illegal .reservedBits ↔
    w.toNat / 2 ^ 60 ∈ [0x1, 0x2, 0x3, 0x4, 0x5, 0x6, 0x7, 0x8] ∧ w.toNat / 2 ^ 56 % 16 ≠ 0) ∧
  decodeCommand 0 = .illegal .illegalOpcode ∧
  (∀ (s : State) (w : CommandWord), s.accepts w →
    (decodeCommand w = .illegal .illegalOpcode →
      step s = .next (({ s with port := none } : State).afterFault .illegalOpcode w)) ∧
    (decodeCommand w = .illegal .reservedBits →
      step s = .next (({ s with port := none } : State).afterFault .reservedBits w)))

/-- A few words written out from the encodings of 30_encoding.md (R71, R73, R77, R78; 95_test_vectors.md V-EN17 to V-EN28). The code 0x0A of
the intensity register is the spec's general knowledge (log 2), and that a frame word outside the table is no instruction is the model's
reading (log 16). -/
def Obligations.SampleWordsDecode : Prop :=
  decodeTableWord 64 0x1000000000000000 = some .openSession ∧
  decodeTableWord 64 0x20ABCDEF12345678 = some .closeSession ∧
  decodeTableWord 64 0x300000FF00000000 = some (.setIntensity 0xFF) ∧
  decodeTableWord 64 0x40000000FFFF0000 = some (.renderText 65535) ∧
  decodeTableWord 64 0x500000000001FFF9 = some (.renderScroll 1 (-7)) ∧
  decodeTableWord 64 0x600105AB00000000 = some (.sendPos 1 0x05 0xAB) ∧
  decodeTableWord 64 0x70000A0800000000 = some (.sendAll 0x0A 0x08) ∧
  decodeTableWord 64 0x8002004200000000 = some (.renderChar 2 0x42) ∧
  decodeTableWord 64 0x0100000000000000 = none ∧
  decodeTableWord 64 0x1800000000000000 = none ∧
  decodeTableWord 16 0x0805 = some (.frameDigit8 0x05) ∧
  decodeTableWord 16 0x0A0F = some (.frameIntensity 0x0F) ∧
  decodeTableWord 16 0x0D00 = none

/-- The assembler, line by line (30_encoding.md R80, R81). A line it accepts gives a well-formed command, whose word decodes to it. A line
of each mnemonic, whatever its operands and however they are written, assembles to that command with exactly those numbers where each is
in its range, and is refused where one is not: no operand is truncated. So is a line with another number of operands and a line of
another mnemonic. A comment changes nothing. The code 0x0C of SHUTDOWN and WAKE is the spec's general knowledge (log 2); blanks, letter
case and the minus sign are the model's choice (log 19). -/
def Obligations.AssembledLinesAreWellFormed : Prop :=
  (∀ (line : List Char) (i : Instr), assembleLine line = .instr i →
    i.isCommand = true ∧ i.wellFormed = true ∧ decodeWords (encode i) = some i) ∧
  assembleLine (lineText "OPEN" []) = .instr .openSession ∧
  assembleLine (lineText "CLOSE" []) = .instr .closeSession ∧
  assembleLine (lineText "CLEAR" []) = .instr (.renderText 0) ∧
  assembleLine (lineText "SHUTDOWN" []) = .instr (.sendAll 0x0C 0x00) ∧
  assembleLine (lineText "WAKE" []) = .instr (.sendAll 0x0C 0x01) ∧
  assembleLine (lineText "NOP_PULSE" []) = .instr (.sendAll 0x00 0x00) ∧
  (∀ x y z : Operand,
    assembleLine (lineText "SET_INTENSITY" [x]) = (if x.within 0 255 then .instr (.setIntensity x.byte) else .refused) ∧
    assembleLine (lineText "RENDER_TEXT" [x]) = (if x.within 0 65535 then .instr (.renderText x.value.toNat) else .refused) ∧
    assembleLine (lineText "RENDER_SCROLL" [x, y]) =
      (if x.within 0 65535 ∧ y.within (-32768) 32767 then .instr (.renderScroll x.value.toNat y.value) else .refused) ∧
    assembleLine (lineText "SEND_POS" [x, y, z]) =
      (if x.within 0 255 ∧ y.within 0 255 ∧ z.within 0 255 then .instr (.sendPos x.value.toNat y.byte z.byte) else .refused) ∧
    assembleLine (lineText "SEND_ALL" [x, y]) =
      (if x.within 0 255 ∧ y.within 0 255 then .instr (.sendAll x.byte y.byte) else .refused) ∧
    assembleLine (lineText "RENDER_CHAR" [x, y]) =
      (if x.within 0 255 ∧ y.within 0 255 then .instr (.renderChar x.value.toNat y.byte) else .refused) ∧
    assembleLine (lineText "SET_COLUMN" [x, y, z]) =
      (if x.within 0 255 ∧ y.within 0 7 ∧ z.within 0 255 then .instr (.sendPos x.value.toNat (BitVec.ofInt 8 (y.value + 1)) z.byte)
      else .refused)) ∧
  (let arities : List (String × Nat) := [("OPEN", 0), ("CLOSE", 0), ("SET_INTENSITY", 1), ("RENDER_TEXT", 1), ("RENDER_SCROLL", 2),
    ("SEND_POS", 3), ("SEND_ALL", 2), ("RENDER_CHAR", 2), ("CLEAR", 0), ("SHUTDOWN", 0), ("WAKE", 0), ("NOP_PULSE", 0),
    ("SET_COLUMN", 3)]
  (∀ x ∈ arities, ∀ ops : List Operand, ops.length ≠ x.2 → assembleLine (lineText x.1 ops) = .refused) ∧
  (∀ (name : String) (ops : List Operand), name.toList ≠ [] → (∀ c ∈ name.toList, c ≠ ' ' ∧ c ≠ '\t' ∧ c ≠ ';') →
    (∀ x ∈ arities, x.1 ≠ name) → assembleLine (lineText name ops) = .refused)) ∧
  (∀ line comment : List Char, assembleLine (line ++ ';' :: comment) = assembleLine line)

/-! ## The step -/

/-- A step runs the decoded instruction. A word on the port of an idle block: the step is the instruction's meaning, with the word
taken off the port (the model's choice: log 4) and latched and BUSY set (R24, R161). A frame the command in execution has reached: the step is the frame's
meaning at the state itself. Any other event of it: the step gives the transport that one event and ends the command after the
last. -/
def Obligations.StepRunsDecodedInstruction : Prop :=
  (∀ (s : State) (w : CommandWord) (i : Instr), s.accepts w → decodeCommand w = .instr i →
    step s = exec i { s with port := none, busy := true, latched := w }) ∧
  (∀ (s : State) (j : Job) (w : FrameWord) (i : Instr), s.sched = [] → s.rst = false → s.job = some j →
    nextItem (instrEvents j.instr s) j.done = some (.frame w) → decodeFrame w = some i → step s = exec i s) ∧
  (∀ (s : State) (j : Job) (e : Event), s.sched = [] → s.rst = false → s.job = some j →
    nextItem (instrEvents j.instr s) j.done = some (.event e) →
    step s = .next ((s.transfer [e]).settle (instrEvents j.instr s).length)) ∧
  (∀ (s : State) (j : Job) (w : FrameWord), s.sched = [] → s.rst = false → s.job = some j →
    nextItem (instrEvents j.instr s) j.done = some (.frame w) → decodeFrame w = none →
    step s = .next (s.transfer [.xfer (frameReg w), .xfer (frameVal w)]))

/-- `withFetchWord` puts a table row's word where the next step takes its instruction from: on the command port of a ready block, or
in the pulse in flight (the model's choice: log 4, log 8). -/
def Obligations.FetchedTableWordRuns : Prop :=
  (∀ (s : State) (w : Nat) (i : Instr), decodeTableWord 64 w = some i →
    ∃ t, step (s.withFetchWord 64 w) = exec i t ∧ t.latched = BitVec.ofNat 64 w ∧ t.port = none ∧ t.params = s.params ∧
      t.session = s.session ∧ t.font = s.font ∧ t.text = s.text ∧ t.trace = s.trace ∧ t.chain = s.chain) ∧
  (∀ (s : State) (w : Nat) (i : Instr), decodeTableWord 16 w = some i →
    step (s.withFetchWord 16 w) = exec i (s.withFetchWord 16 w) ∧
      (s.withFetchWord 16 w).trace = s.trace ++ [.selAssert] ∧ (s.withFetchWord 16 w).chain.pulse = .opened [])

/-- Every step answers a next state: no instruction, no word, no turn of any agent stops the machine; a command that faults goes on to
the state of 60_exceptions.md R162. That an output frame runs at every state, also outside a pulse, is the model's choice (log 8). -/
def Obligations.StepAlwaysAnswersNext : Prop :=
  (∀ (i : Instr) (s : State), ∃ t, exec i s = .next t) ∧ (∀ s : State, ∃ t, step s = .next t)

/-! ## Reset and the invariant -/

/-- The state right after reset, for every elaboration, has the reset values of 10_state.md R40. -/
def Obligations.ResetStateHasSpecValues : Prop :=
  ∀ p : Params,
    let s := State.resetOf p
    s.session = .closed ∧ s.busy = false ∧ s.faulted = false ∧ s.cause = .none ∧ s.faultCmd = 0 ∧
    s.lines.selDriven = false ∧ s.lines.selLevel = true ∧ s.lines.xportActive = false ∧
    s.job = none ∧ (∀ k r, s.chain.chipReg k r = none)

/-- The invariant of the machine holds after reset, for every elaboration. -/
def Obligations.InvariantHoldsAtReset : Prop := (∀ p : Params, (State.resetOf p).Inv) ∧ State.reset.Inv

/-- Every step keeps the invariant of the machine, whichever agent moves: memories and chain registers in canonical form, BUSY with a
command in execution, the select line de-asserted and no pulse open outside a command, an open session with a driven line and an
active transport, no pulse of other than N frames latched, the reset values while `rst` is asserted. For a
command that waits, that the lines are those of its completed events is the model's choice (log 23). -/
def Obligations.StepKeepsInvariant : Prop :=
  ∀ s t : State, s.Inv → step s = .next t → t.Inv

/-- Asserting `rst` gives every element its reset value at once, also inside a command (70_reset_and_hazards.md R180, R181): no event is
emitted, the select line is no longer driven, and every chip register is unknown (log 10). That the word presented, FONT, TEXT and the
parameters stay as they are is the model's choice (log 22). While `rst` is asserted the elements keep their reset values and no event
is emitted (log 11); after its release the block waits, ready. -/
def Obligations.ResetRestoresTheBlock : Prop :=
  (∀ s t : State, s.resetNext → step s = .next t →
    t.atReset ∧ t.rst = true ∧ t.trace = s.trace ∧ t.cmdReady = true ∧ (∀ k r, t.chain.chipReg k r = none) ∧
    t.params = s.params ∧ t.port = s.port ∧ t.font = s.font ∧ t.text = s.text) ∧
  (∀ s t : State, s.Inv → s.rst = true → step s = .next t → s.atReset ∧ t.atReset ∧ t.trace = s.trace) ∧
  (∀ (s : State), s.atReset → s.rst = false → s.sched = [] → s.port = none → s.cmdReady = true ∧ step s = .next s)

/-! ## Faults -/

/-- An accepted word records exactly one cause, the first in the order of 60_exceptions.md R163, or none, and then it is performed. That it leaves
the port is the model's choice (log 4). -/
def Obligations.FirstCauseIsRecorded : Prop :=
  ∀ (s : State) (w : CommandWord), s.accepts w →
    (∀ c, firstCause s.params.n s.session w = some c →
      step s = .next (({ s with port := none } : State).afterFault c w)) ∧
    (firstCause s.params.n s.session w = none →
      ∃ (i : Instr) (t : State) (m : Nat), decodeCommand w = .instr i ∧ step s = .next t ∧ t.faulted = false ∧
        t.cause = s.cause ∧ t.faultCmd = s.faultCmd ∧ t.trace = s.trace ++ (instrEvents i s).take m)

/-- Fault entry (60_exceptions.md R162): four writes, no event, nothing else of the block's state. The cause is the first in the order of
R163, the spec's inference; that the accepted word leaves the port is the model's choice (log 4). -/
def Obligations.FaultEntryWritesFourElements : Prop :=
  ∀ (s t : State), s.faulted = false → step s = .next t → t.faulted = true →
    ∃ w, s.port = some w ∧ t.port = none ∧ t.cause ≠ .none ∧ firstCause s.params.n s.session w = some t.cause ∧
      t.faultCmd = w ∧ t.busy = false ∧ t.trace = s.trace ∧ t.session = s.session ∧ t.lines = s.lines ∧ t.chain = s.chain ∧
      t.font = s.font ∧ t.text = s.text ∧ t.params = s.params

/-- SESSION is written only by OPEN and CLOSE, at their end, and by reset; and every command but OPEN checks it before it emits
anything (10_state.md R29). In a closed session every command but OPEN takes NOT_OPEN, also one whose position is bad; in an open
one SEND_POS and RENDER_CHAR take BAD_POSITION for a position outside the chain (60_exceptions.md R160, R161). -/
def Obligations.SessionWritesAndChecks : Prop :=
  (∀ (i : Instr) (s t : State), exec i s = .next t → t.session ≠ s.session →
    t.busy = false ∧ t.job = none ∧
      ((i = .openSession ∧ t.session = .opened) ∨ (i = .closeSession ∧ t.session = .closed))) ∧
  (∀ (s t : State), step s = .next t → t.session ≠ s.session → ¬ s.resetNext →
    t.busy = false ∧ t.job = none ∧
      (∀ j, s.job = some j →
        (j.instr = .openSession ∧ t.session = .opened) ∨ (j.instr = .closeSession ∧ t.session = .closed)) ∧
      (s.job = none → ∃ w, s.port = some w ∧
        ((decodeCommand w = .instr .openSession ∧ t.session = .opened) ∨
          (decodeCommand w = .instr .closeSession ∧ t.session = .closed)))) ∧
  (∀ (s t : State), s.resetNext → step s = .next t → t.session = .closed) ∧
  (∀ (i : Instr) (s : State), i.isCommand = true → i ≠ .openSession → s.session = .closed →
    exec i s = .next (s.afterFault .notOpen s.latched)) ∧
  (∀ (p : Nat) (r v : Byte) (s : State), s.session = .opened → s.params.n ≤ p →
    exec (.sendPos p r v) s = .next (s.afterFault .badPosition s.latched) ∧
    exec (.renderChar p v) s = .next (s.afterFault .badPosition s.latched))

/-- While FAULTED = 1 the block is quiescent (60_exceptions.md R164): whatever agent moves, short of a reset, it accepts no command,
emits no event and changes no state; and its own turn changes nothing at all. -/
def Obligations.FaultedBlockIsQuiescent : Prop :=
  (∀ s t : State, s.Inv → s.faulted = true → ¬ s.resetNext → step s = .next t →
    s.cmdReady = false ∧ t.cmdReady = false ∧ (¬ s.hostMovesPort → t.port = s.port) ∧ t.trace = s.trace ∧ t.session = s.session ∧ t.busy = s.busy ∧
    t.faulted = true ∧ t.cause = s.cause ∧ t.faultCmd = s.faultCmd ∧ t.lines = s.lines ∧ t.job = none ∧ t.status = s.status ∧
    t.chainLen = s.chainLen) ∧
  (∀ s : State, s.Inv → s.faulted = true → s.sched = [] → step s = .next s)

/-- FAULTED, CAUSE and FAULT_CMD are written only when a fault is taken and by reset; once FAULTED = 1 none changes until reset
(10_state.md R33; 60_exceptions.md R165). -/
def Obligations.FaultRegistersChangeOnlyByFaultOrReset : Prop :=
  ∀ s t : State, step s = .next t → ¬ s.resetNext →
    (t.faulted = s.faulted ∧ t.cause = s.cause ∧ t.faultCmd = s.faultCmd) ∨
    (s.faulted = false ∧ t.faulted = true ∧ t.cause ≠ .none ∧ t.trace = s.trace ∧ ∃ w, s.port = some w ∧ t.faultCmd = w)

/-! ## What the host sees -/

/-- STATUS bit by bit (10_state.md R34), with the codes of the causes (60_exceptions.md R160); CHAIN_LEN, which no step changes (R35);
FAULT_CMD (R36), fault_out (R42) and cmd_ready (R24). -/
def Obligations.HostRegistersShowTheBlock : Prop :=
  ∀ s : State,
    s.status.getLsbD 0 = s.busy ∧ (s.status.getLsbD 1 = true ↔ s.session = .opened) ∧ s.status.getLsbD 2 = s.faulted ∧
    s.status.getLsbD 3 = s.lines.selDriven ∧ s.status.extractLsb' 4 4 = s.cause.code ∧
    (s.cause.code = match s.cause with
      | .none => 0x0 | .illegalOpcode => 0x1 | .reservedBits => 0x2 | .notOpen => 0x3 | .badPosition => 0x4) ∧
    s.faultOut = s.faulted ∧ (s.cmdReady = true ↔ s.busy = false ∧ s.faulted = false) ∧
    s.faultCmdRegister = s.faultCmd ∧
    (s.Inv → s.faulted = false → s.status.extractLsb' 4 4 = 0 ∧ s.faultCmdRegister = 0) ∧
    s.chainLen.toNat = s.params.n ∧ 1 ≤ s.params.n ∧ s.params.n ≤ 256 ∧
    (∀ t, step s = .next t → t.params = s.params ∧ t.chainLen = s.chainLen)

/-- SEL_DRIVEN, SEL_LEVEL and XPORT_ACTIVE move with the events emitted and with reset, and by nothing else; CLOSE leaves the select
line driven and high (10_state.md R31). The transport port shows them, and `tx_valid` and `tx_byte` show the byte transfer the block
waits for, which is the next event emitted (R25). That the lines change when the transport has completed an event, with the trace, is
the model's choice (log 23). -/
def Obligations.LinesFollowEvents : Prop :=
  (∀ s : State, (s.emit .selDrive).lines = { s.lines with selDriven := true, selLevel := true } ∧
    (s.emit .selAssert).lines = { s.lines with selLevel := false } ∧
    (s.emit .selDeassert).lines = { s.lines with selLevel := true } ∧
    (s.emit .xportInit).lines = { s.lines with xportActive := true } ∧
    (s.emit .xportRelease).lines = { s.lines with xportActive := false } ∧
    (∀ b, (s.emit (.xfer b)).lines = s.lines) ∧
    s.selOe = s.lines.selDriven ∧ s.selN = s.lines.selLevel ∧ s.xportEn = s.lines.xportActive) ∧
  (∀ s t : State, step s = .next t → ¬ s.resetNext →
    ∃ evs, t.trace = s.trace ++ evs ∧ t.lines = evs.foldl Lines.take s.lines ∧
      (s.sched = [] → t.chain = evs.foldl (Chain.take s.params.n) s.chain)) ∧
  (∀ s t : State, s.Inv → s.session = .opened → exec .closeSession s = .next t → t.busy = false →
    t.lines.selDriven = true ∧ t.lines.selLevel = true) ∧
  (∀ s : State,
    (s.txValid = true ↔ ∃ j b rest, s.job = some j ∧ (instrEvents j.instr s).drop j.done = .xfer b :: rest) ∧
    (∀ j b rest, s.job = some j → (instrEvents j.instr s).drop j.done = .xfer b :: rest → s.txByte = b)) ∧
  (∀ s t : State, s.txValid = true → s.sched = [] → s.rst = false → s.grant ≠ some 0 → step s = .next t →
    s.trace ++ [.xfer s.txByte] <+: t.trace)

/-- The spec's own inferences about the lines (10_state.md R31, R32): no SelAssert, Xfer or SelDeassert is emitted while
XPORT_ACTIVE = 0; outside a command SEL_LEVEL = 1 whenever SEL_DRIVEN = 1. -/
def Obligations.PulsesOnlyWhileActiveAndLineIdleHigh : Prop :=
  (∀ s t : State, s.Inv → step s = .next t → ∀ (before : List Event) (e : Event) (after : List Event),
    t.trace = s.trace ++ before ++ e :: after → e.ofPulse = true → (before.foldl Lines.take s.lines).xportActive = true) ∧
  (∀ s t : State, s.Inv → step s = .next t → t.busy = false → t.lines.selDriven = true → t.lines.selLevel = true)

/-- The command port (10_state.md R24, R30; 70_reset_and_hazards.md R185). A word leaves it only by the host's turn or by acceptance,
where `cmd_valid = 1`, `cmd_ready = 1` and `rst` is released (log 11), and a word the host holds is not lost. It holds one word: one the
host presents replaces it and one the host withdraws is gone, so nothing is queued (log 4). While `cmd_ready = 0` the word on it has no
effect on any other part of the state. After a fault `cmd_ready` stays 0 until reset. -/
def Obligations.WordsAreAcceptedOnlyWhenReady : Prop :=
  ∀ s t : State, step s = .next t →
    (¬ s.hostMovesPort → t.port = s.port ∨
      (s.cmdValid = true ∧ s.cmdReady = true ∧ s.rst = false ∧ s.port = some s.cmdWord ∧ t.port = none)) ∧
    (∀ w rest, s.sched = .hostPresents w :: rest → t = { s with sched := rest, port := some w }) ∧
    (∀ rest, s.sched = .hostWithdraws :: rest → t = { s with sched := rest, port := none }) ∧
    (s.cmdReady = false → ∀ p, ∃ q, step { s with port := p } = .next { t with port := q } ∧ (q = p ∨ q = t.port)) ∧
    (s.faulted = true → ¬ s.resetNext → t.cmdReady = false)

/-! ## FONT and TEXT -/

/-- `glyph(ch)` is the 8 bytes at `ch*8`, in order (20_memory.md R47), and glyph byte c is in bits 8c+7:8c of the font port; the text
port is the byte of TEXT at its address (10_state.md R26). -/
def Obligations.GlyphLookupReadsEightBytes : Prop :=
  ∀ (s : State) (tag : Nat) (ch : Byte), s.racedFont = [] →
    (s.glyph tag ch).length = 8 ∧
    (∀ c < 8, glyphByte (s.glyph tag ch) c = s.font.readByte (ch.toNat * 8 + c) ∧
      (s.fontPort ch).extractLsb' (8 * c) 8 = glyphByte (s.glyph tag ch) c) ∧
    (∀ a : BitVec 16, s.textPort a = s.text.readByte a.toNat ∧ (s.racedText = [] → s.char tag a.toNat = s.textPort a))

/-- The block writes neither memory (00_scope.md R11): no instruction changes a byte of FONT or TEXT, and a step changes one only when
the host writes it. -/
def Obligations.BlockWritesNoMemory : Prop :=
  (∀ (i : Instr) (s t : State), exec i s = .next t →
    (∀ a, t.font.readByte a = s.font.readByte a) ∧ (∀ a, t.text.readByte a = s.text.readByte a)) ∧
  (∀ (s t : State), step s = .next t →
    (∀ a, t.font.readByte a ≠ s.font.readByte a →
      ∃ x b rest, s.sched = .hostWritesFont x b :: rest ∧ x.toNat = a ∧ t.font.readByte a = b) ∧
    (∀ a, t.text.readByte a ≠ s.text.readByte a →
      ∃ x b rest, s.sched = .hostWritesText x b :: rest ∧ x.toNat = a ∧ t.text.readByte a = b))

/-- A host write outside a command is what the next read gives; one inside a command makes a read of that address any value (20_memory.md
R62; 93_implementation_defined.md U6; log 9). Other addresses read as before. -/
def Obligations.HostWritesAreSeenOrRace : Prop :=
  (∀ (s t : State) (x : BitVec 16) (b : Byte) (rest : List Turn) (tag : Nat), s.sched = .hostWritesText x b :: rest →
    step s = .next t →
    (s.busy = false → s.quiet → t.char tag x.toNat = b ∧ (∀ a, a ≠ x.toNat → t.char tag a = s.char tag a)) ∧
    (s.busy = true → t.char tag x.toNat = racedTextByte (s.raceCount + 1) tag x.toNat)) ∧
  (∀ (s t : State) (x : BitVec 11) (b : Byte) (rest : List Turn) (tag : Nat), s.sched = .hostWritesFont x b :: rest →
    step s = .next t →
    (s.busy = false → s.quiet →
      t.fontByte tag x.toNat = b ∧ (∀ a, a ≠ x.toNat → t.fontByte tag a = s.fontByte tag a)) ∧
    (s.busy = true → t.fontByte tag x.toNat = racedFontByte (s.raceCount + 1) tag x.toNat))

/-- RENDER_TEXT and RENDER_SCROLL of length `len` read no TEXT address from `len` on (20_memory.md R49): another TEXT that agrees below
`len` gives the same result. RENDER_TEXT reads none from N on either (44_display_session.md R144). -/
def Obligations.NoTextReadBeyondLength : Prop :=
  ∀ (s t : State) (m : Memory) (len : Nat) (o : Int),
    ((∀ a, a < len → a < s.params.n → m.readByte a = s.text.readByte a) → exec (.renderText len) s = .next t →
      exec (.renderText len) { s with text := m } = .next { t with text := m }) ∧
    ((∀ a, a < len → m.readByte a = s.text.readByte a) → exec (.renderScroll len o) s = .next t →
      exec (.renderScroll len o) { s with text := m } = .next { t with text := m })

/-- What is in FONT and TEXT shows only in transferred bytes and chip registers: for other contents an instruction answers the same state
but for the memories, the trace and the chain, the two traces differ in the bytes of transfers at most, and STATUS
is the same (10_state.md R22; 70_reset_and_hazards.md R189). -/
def Obligations.MemoriesDoNotSteerTheBlock : Prop :=
  ∀ (i : Instr) (s t u : State) (f m : Memory), exec i s = .next t → exec i { s with font := f, text := m } = .next u →
    u = { t with font := f, text := m, trace := u.trace, chain := u.chain } ∧ shape u.trace = shape t.trace ∧
    u.chain.refused = t.chain.refused ∧ u.status = t.status

/-! ## The reference chain -/

/-- The latch (20_memory.md R57, R58): at the end of a pulse of N frames the chip at position `k` applies the frame in slot `k`; one with
register byte 0x00 changes nothing; nothing changes at a SelAssert or an Xfer. -/
def Obligations.LatchAppliesEachSlot : Prop :=
  (∀ (n : Nat) (c : Chain) (frames : List (Byte × Byte)) (k : Nat) (r : Byte),
    c.pulse = .opened (frames.flatMap (fun f => [f.1, f.2])) → frames.length = n →
    (c.take n .selDeassert).refused = c.refused ∧
    (c.take n .selDeassert).chipReg k r =
      (match frames[k]? with
      | some f => if f.1 ≠ 0 ∧ f.1 = r then some f.2 else c.chipReg k r
      | none => c.chipReg k r)) ∧
  (∀ (n : Nat) (c : Chain) (b : Byte) (k : Nat) (r : Byte),
    (c.take n .selAssert).chipReg k r = c.chipReg k r ∧ (c.take n (.xfer b)).chipReg k r = c.chipReg k r)

/-- A pulse of other than N frames, or of an odd number of bytes, marks the run refused (20_memory.md R59); that no register is then
known is the model's reading (log 12). -/
def Obligations.WrongPulseIsRefused : Prop :=
  ∀ (n : Nat) (c : Chain) (bytes : List Byte) (k : Nat) (r : Byte), c.pulse = .opened bytes → bytes.length ≠ 2 * n →
    (c.take n .selDeassert).refused = true ∧ (c.take n .selDeassert).chipReg k r = none

/-- A foreign agent on the bus leaves every chip register unknown and the block's own state and trace unchanged (70_reset_and_hazards.md
R187; 93_implementation_defined.md U10); a pulse it disturbed latches nothing known (log 13). -/
def Obligations.ForeignBusAgentMakesChainUnknown : Prop :=
  ∀ (s t : State) (rest : List Turn), s.sched = .foreignBusAgent :: rest → step s = .next t →
    (∀ k r, t.chain.chipReg k r = none) ∧ t.trace = s.trace ∧ t.lines = s.lines ∧ t.session = s.session ∧ t.busy = s.busy ∧
    t.job = s.job ∧ t.faulted = s.faulted ∧
    (∀ bytes, s.chain.pulse = .opened bytes → ∀ k r, (t.emit .selDeassert).chain.chipReg k r = none)

/-- Every command emits well-formed pulses: each opened once, exactly 2N transfers, closed; no transfer outside one
(41_register_protocol.md R92). -/
def Obligations.CommandsEmitWholePulses : Prop :=
  ∀ (i : Instr) (s : State), i.isCommand = true → positionInChain s.params.n i →
    scanPulses s.params.n .outside (instrEvents i s) = some .outside

/-- `sendToPosition(p, r, v)` is one pulse of N frames with (r, v) in slot p and no-ops elsewhere, `sendToAll(r, v)` one
with (r, v) in every slot (41_register_protocol.md R90, R91). Both give the bytes as they are, whatever they are, and of R28's state
write SEL_LEVEL only (R93). -/
def Obligations.PulsePrimitivesFillTheirSlots : Prop :=
  (∀ (n p : Nat) (r v : Byte), p < n →
    sendToPosition n p r v = pulseOf (framesAt n p r v) ∧ (framesAt n p r v).length = n ∧
    (∀ j < n, (framesAt n p r v)[j]? = some (if j = p then (r, v) else (0x00, 0x00)))) ∧
  (∀ (n : Nat) (r v : Byte), sendToAll n r v = pulseOf (List.replicate n (r, v))) ∧
  (∀ (s : State) (p : Nat) (r v : Byte),
    (s.emitAll (sendToPosition s.params.n p r v)).lines = { s.lines with selLevel := true } ∧
    (s.emitAll (sendToAll s.params.n r v)).lines = { s.lines with selLevel := true } ∧
    (∀ evs : List Event, s.emitAll evs = { s with
      trace := s.trace ++ evs, lines := (s.emitAll evs).lines, chain := (s.emitAll evs).chain }))

/-- Exactly one chip sees the write of SEND_POS, for every chain state (41_register_protocol.md R96, §8 of the source). -/
def Obligations.SendPosWritesOneChip : Prop :=
  ∀ (n p : Nat) (r v : Byte) (c : Chain), p < n →
    let c' := (sendToPosition n p r v).foldl (Chain.take n) c
    (r ≠ 0 → c'.chipReg p r = some v) ∧ c'.refused = c.refused ∧ c'.pulse = .idle ∧
    (∀ k x, ¬ (k = p ∧ x = r ∧ r ≠ 0) → c'.chipReg k x = c.chipReg k x)

/-- Every chip sees the write of SEND_ALL, and no other register changes (41_register_protocol.md R97). -/
def Obligations.SendAllWritesEveryChip : Prop :=
  ∀ (n : Nat) (r v : Byte) (c : Chain),
    let c' := (sendToAll n r v).foldl (Chain.take n) c
    (r ≠ 0 → ∀ k < n, c'.chipReg k r = some v) ∧ c'.refused = c.refused ∧ c'.pulse = .idle ∧
    (∀ k x, ¬ (k < n ∧ x = r ∧ r ≠ 0) → c'.chipReg k x = c.chipReg k x)

/-- `renderGlyph(p, G)` leaves `rot(G)` in the digit registers of position p and changes nothing else (42_glyph_rotator.md R110). -/
def Obligations.RenderGlyphWritesOneChip : Prop :=
  ∀ (n p : Nat) (g : Glyph) (c : Chain), p < n →
    let c' := (renderGlyph n p g).foldl (Chain.take n) c
    (∀ col < 8, c'.chipReg p (BitVec.ofNat 8 (col + 1)) = some (glyphByte (rot g) col)) ∧ c'.refused = c.refused ∧
    (∀ k x, ¬ (k = p ∧ 1 ≤ x.toNat ∧ x.toNat ≤ 8) → c'.chipReg k x = c.chipReg k x)

/-- An instruction writes no chip register but those its rule names, whatever the transport completes of it (R96, R97, R110, R146,
R148); an output frame writes none before its pulse is latched (R57; log 8). The codes 9 to 12 and 15 of the configuration registers are the
spec's general knowledge (log 2). -/
def Obligations.InstructionsWriteOnlyTheirChipRegisters : Prop :=
  ∀ (i : Instr) (s t : State) (k : Nat) (r : Byte), exec i s = .next t → ¬ mayWriteChip s.params.n i k r →
    t.chain.chipReg k r = s.chain.chipReg k r

/-! ## The rotator -/

/-- Bit (7 - i) of `C_col` is bit col of `G_i`, and nothing else is set (42_glyph_rotator.md R105). -/
def Obligations.RotatorMovesEachBit : Prop :=
  ∀ (g : Glyph) (col i : Nat), col < 8 → i < 8 →
    (rot g).length = 8 ∧ (glyphByte (rot g) col).getLsbD (7 - i) = (glyphByte g i).getLsbD col

/-- The rotator is a bijection on glyphs, with `unrot` its inverse on both sides, and has the further laws
(42_glyph_rotator.md R106, R107). -/
def Obligations.RotatorHasInverse : Prop :=
  (∀ g : Glyph, g.length = 8 → unrot (rot g) = g ∧ rot (unrot g) = g) ∧
  rot zero8 = zero8 ∧ rot (List.replicate 8 0xFF) = List.replicate 8 0xFF ∧
  (∀ (g : Glyph) (c : Nat), c < 8 → glyphByte (rot (rot g)) c = bitrev8 (glyphByte g (7 - c))) ∧
  (∀ g : Glyph, g.length = 8 → rot (rot (rot (rot g))) = g) ∧
  (∃ g : Glyph, g.length = 8 ∧ rot (rot g) ≠ g)

/-! ## Every command completes -/

/-- OPEN with a transport that completes every event (44_display_session.md R140, R141): SelDrive, XportInit, the configuration group
INIT_REPEAT times, the font's space at every position, the wake broadcast; the session is then open, the line driven and high, the
transport initialised. OPEN runs in either session state. The register codes are the spec's K1 (log 2). -/
def Obligations.OpenCompletes : Prop :=
  ∀ s : State, s.transportCompletes → s.quiet →
    let n := s.params.n
    let group := pulseOf (List.replicate n (0x0B, 0x07)) ++ pulseOf (List.replicate n (0x09, 0x00)) ++
      pulseOf (List.replicate n (0x0F, 0x00)) ++ pulseOf (List.replicate n (0x0A, 0x0F))
    let evs := [Event.selDrive, Event.xportInit] ++ (List.replicate s.params.initRepeat group).flatten ++
      (List.range n).flatMap (fun k => glyphPulses n k (hostGlyph s 0x20)) ++ pulseOf (List.replicate n (0x0C, 0x01))
    ∃ t, exec .openSession s = .next t ∧ t = s.afterCommand evs .opened ∧
      t.lines = { selDriven := true, selLevel := true, xportActive := true }

/-- CLOSE in an open session (44_display_session.md R142): the shutdown broadcast, then XportRelease; the session is then closed, the
transport released, the select line as it was and high. -/
def Obligations.CloseCompletes : Prop :=
  ∀ s : State, s.session = .opened → s.transportCompletes →
    ∃ t, exec .closeSession s = .next t ∧
      t = s.afterCommand (pulseOf (List.replicate s.params.n (0x0C, 0x00)) ++ [.xportRelease]) .closed ∧
      t.lines = { s.lines with selLevel := true, xportActive := false }

/-- SET_INTENSITY in an open session broadcasts the level's low 4 bits (44_display_session.md R143): masked, not saturated. -/
def Obligations.SetIntensityCompletes : Prop :=
  ∀ (s : State) (level : Byte), s.session = .opened → s.transportCompletes →
    ∃ t, exec (.setIntensity level) s = .next t ∧
      t = s.afterCommand (pulseOf (List.replicate s.params.n (0x0A, BitVec.ofNat 8 (level.toNat % 16)))) .opened ∧
      t.lines = { s.lines with selLevel := true }

/-- SEND_POS and SEND_ALL in an open session, the position inside the chain (41_register_protocol.md R94, R95): one pulse, register and
value bytes unchanged whatever they are; of R28's state only SEL_LEVEL is written. -/
def Obligations.SendCommandsComplete : Prop :=
  ∀ (s : State) (p : Nat) (r v : Byte), s.session = .opened → s.transportCompletes →
    (p < s.params.n → ∃ t, exec (.sendPos p r v) s = .next t ∧
      t = s.afterCommand (pulseOf (framesAt s.params.n p r v)) .opened ∧ t.lines = { s.lines with selLevel := true }) ∧
    (∃ t, exec (.sendAll r v) s = .next t ∧
      t = s.afterCommand (pulseOf (List.replicate s.params.n (r, v))) .opened ∧ t.lines = { s.lines with selLevel := true })

/-- RENDER_CHAR in an open session, the position inside the chain (42_glyph_rotator.md R109): the font glyph of the code, any code, in 8
pulses. -/
def Obligations.RenderCharCompletes : Prop :=
  ∀ (s : State) (p : Nat) (ch : Byte), s.session = .opened → s.transportCompletes → s.quiet → p < s.params.n →
    ∃ t, exec (.renderChar p ch) s = .next t ∧ t = s.afterCommand (glyphPulses s.params.n p (hostGlyph s ch)) .opened ∧
      t.lines = { s.lines with selLevel := true }

/-- RENDER_TEXT in an open session, any length (44_display_session.md R144, R145): each position in order its character, and the font's
space where the text has none. -/
def Obligations.RenderTextCompletes : Prop :=
  ∀ (s : State) (len : Nat), s.session = .opened → s.transportCompletes → s.quiet →
    ∃ t, exec (.renderText len) s = .next t ∧
      t = s.afterCommand ((List.range s.params.n).flatMap (fun k =>
        glyphPulses s.params.n k (hostGlyph s (if k < len then s.text.readByte k else 0x20)))) .opened ∧
      t.lines = { s.lines with selLevel := true }

/-- RENDER_SCROLL in an open session, any length and offset (43_scroll_compositor.md R125 to R127): each position in order its 8 columns
of the text's pixel strip from the offset on. -/
def Obligations.RenderScrollCompletes : Prop :=
  ∀ (s : State) (len : Nat) (o : Int), s.session = .opened → s.transportCompletes → s.quiet →
    ∃ t, exec (.renderScroll len o) s = .next t ∧
      t = s.afterCommand ((List.range s.params.n).flatMap (fun k =>
        glyphPulses s.params.n k ((List.range 8).map (fun j : Nat => strip s len (o + 8 * k + j))))) .opened ∧
      t.lines = { s.lines with selLevel := true }

/-- Each of the 14 output frames (30_encoding.md R77, R78): two byte transfers, the register byte of its row first, then the value
byte; nothing else of the block's state changes. -/
def Obligations.FramesTransferTwoBytes : Prop :=
  ∀ (s : State) (v : Byte), s.transportCompletes →
    exec (.frameNoop v) s = .next (s.afterFrame 0x00 v) ∧ exec (.frameDigit1 v) s = .next (s.afterFrame 0x01 v) ∧
    exec (.frameDigit2 v) s = .next (s.afterFrame 0x02 v) ∧ exec (.frameDigit3 v) s = .next (s.afterFrame 0x03 v) ∧
    exec (.frameDigit4 v) s = .next (s.afterFrame 0x04 v) ∧ exec (.frameDigit5 v) s = .next (s.afterFrame 0x05 v) ∧
    exec (.frameDigit6 v) s = .next (s.afterFrame 0x06 v) ∧ exec (.frameDigit7 v) s = .next (s.afterFrame 0x07 v) ∧
    exec (.frameDigit8 v) s = .next (s.afterFrame 0x08 v) ∧ exec (.frameDecodeMode v) s = .next (s.afterFrame 0x09 v) ∧
    exec (.frameIntensity v) s = .next (s.afterFrame 0x0A v) ∧ exec (.frameScanLimit v) s = .next (s.afterFrame 0x0B v) ∧
    exec (.frameShutdown v) s = .next (s.afterFrame 0x0C v) ∧ exec (.frameDisplayTest v) s = .next (s.afterFrame 0x0F v)

/-- The frame of every instruction, whatever the transport completes and whatever fault it takes: parameters, ports, reset input,
memories and schedule are unchanged; a command without a fault leaves the fault registers, and SESSION unless it is OPEN or CLOSE;
an output frame leaves all but the trace, the chain, the transport's grant and the count of the command in execution (30_encoding.md R77;
frames as instructions, at every state, are the model's choice: log 8). -/
def Obligations.InstructionsLeaveTheRestUnchanged : Prop :=
  ∀ (i : Instr) (s t : State), exec i s = .next t →
    t.params = s.params ∧ t.port = s.port ∧ t.rst = s.rst ∧ t.font = s.font ∧ t.text = s.text ∧ t.raceCount = s.raceCount ∧
    t.sched = s.sched ∧ s.trace <+: t.trace ∧
    ((t.faulted = s.faulted ∧ t.cause = s.cause ∧ t.faultCmd = s.faultCmd) ∨
      (t.faulted = true ∧ t.faultCmd = s.latched ∧ t.trace = s.trace ∧ t.lines = s.lines ∧ t.chain = s.chain ∧
        t.grant = s.grant ∧ t.session = s.session)) ∧
    (i ≠ .openSession → i ≠ .closeSession → t.session = s.session) ∧
    (i ≠ .openSession → t.lines.selDriven = s.lines.selDriven) ∧
    (i ≠ .openSession → i ≠ .closeSession → t.lines.xportActive = s.lines.xportActive) ∧
    (i.isCommand = false → t.session = s.session ∧ t.busy = s.busy ∧ t.faulted = s.faulted ∧ t.cause = s.cause ∧
      t.faultCmd = s.faultCmd ∧ t.lines = s.lines ∧ t.latched = s.latched ∧ t.racedFont = s.racedFont ∧
      t.racedText = s.racedText ∧ t.chain.regs = s.chain.regs)

/-! ## What sessions and renders leave in the chain -/

/-- After OPEN completes every chip holds the configuration of 44_display_session.md R148, whatever the chain held before. The register
codes are the spec's K1 (log 2). -/
def Obligations.OpenConfiguresEveryChip : Prop :=
  ∀ (s t : State) (k : Nat), s.transportCompletes → s.quiet → 1 ≤ s.params.initRepeat → exec .openSession s = .next t →
    k < s.params.n →
    t.chain.chipReg k 0x0B = some 0x07 ∧ t.chain.chipReg k 0x09 = some 0x00 ∧ t.chain.chipReg k 0x0F = some 0x00 ∧
    t.chain.chipReg k 0x0A = some 0x0F ∧ t.chain.chipReg k 0x0C = some 0x01 ∧
    (∀ col < 8, t.chain.chipReg k (BitVec.ofNat 8 (col + 1)) = some (glyphByte (rot (hostGlyph s 0x20)) col))

/-- After RENDER_TEXT every position holds its character, or the space glyph where the text has none, whatever it held before
(44_display_session.md R146). -/
def Obligations.RenderTextFillsEveryChip : Prop :=
  ∀ (s t : State) (len k : Nat), s.session = .opened → s.transportCompletes → s.quiet → exec (.renderText len) s = .next t →
    k < s.params.n → ∀ col < 8,
      t.chain.chipReg k (BitVec.ofNat 8 (col + 1)) =
        some (glyphByte (rot (hostGlyph s (if k < len then s.text.readByte k else 0x20))) col)

/-! ## The compositor -/

/-- Floor division of the offset (43_scroll_compositor.md R121), with the rule's examples. -/
def Obligations.OffsetIsSplitByFloor : Prop :=
  (∀ o : Int, 8 * firstGlyphIndex o + subOffset o = o ∧ subOffset o ≤ 7) ∧
  (firstGlyphIndex (-1) = -1 ∧ subOffset (-1) = 7) ∧ (firstGlyphIndex (-7) = -1 ∧ subOffset (-7) = 1) ∧
  (firstGlyphIndex (-8) = -1 ∧ subOffset (-8) = 0) ∧ (firstGlyphIndex (-9) = -2 ∧ subOffset (-9) = 7) ∧
  (firstGlyphIndex 7 = 0 ∧ subOffset 7 = 7) ∧ (firstGlyphIndex 8 = 1 ∧ subOffset 8 = 0)

/-- The scratch buffer has 24 bytes, slot by slot the glyph or blank of characters a - 1, a, a + 1 (43_scroll_compositor.md R122,
R123), and the window is its 8 bytes from 8 + subOffset (R124). -/
def Obligations.WindowIsCutFromScratch : Prop :=
  ∀ (s : State) (len : Nat) (o : Int) (k : Nat), s.quiet →
    let g := fun c : Int => if 0 ≤ c ∧ c < len then hostGlyph s (s.text.readByte c.toNat) else zero8
    let a := firstGlyphIndex o + k
    (scratch s len o k).length = 24 ∧
    (∀ c < 8, glyphByte (scratch s len o k) c = glyphByte (g (a - 1)) c ∧
      glyphByte (scratch s len o k) (8 + c) = glyphByte (g a) c ∧
      glyphByte (scratch s len o k) (16 + c) = glyphByte (g (a + 1)) c) ∧
    (window s len o k).length = 8 ∧
    (∀ j < 8, glyphByte (window s len o k) j = glyphByte (scratch s len o k) (8 + subOffset o + j))

/-- The strip equation, continuity of a scroll, and blank once out of range: the spec's inferences of 43_scroll_compositor.md R125,
R129, R130. Column j of position k shows global column o + 8k + j of the text's strip. -/
def Obligations.ScrollShowsThePixelStrip : Prop :=
  ∀ (s : State) (len : Nat) (o : Int) (k : Nat), s.quiet →
    (∀ j < 8, glyphByte (window s len o k) j = strip s len (o + 8 * k + j)) ∧
    window s len (o + 8) k = window s len o (k + 1) ∧
    (∀ j < 7, glyphByte (window s len o k) (j + 1) = glyphByte (window s len (o + 1) k) j) ∧
    (o + 8 * k + 7 < 0 ∨ 8 * (len : Int) ≤ o + 8 * k → window s len o k = zero8)

/-- Other readings of the offset agree, by the spec's inferences: the bits of OFS give the floor division
(43_scroll_compositor.md R121), and truncating division with the left slot filled gives the same window (R131). -/
def Obligations.OtherOffsetReadingsAgree : Prop :=
  (∀ f : BitVec 16, firstGlyphIndex f.toInt = (f.extractLsb' 3 13).toInt ∧ subOffset f.toInt = (f.extractLsb' 0 3).toNat) ∧
  (∀ (s : State) (len : Nat) (o : Int) (k : Nat), s.quiet →
    let a := Int.tdiv o 8 + k
    let sub := o - 8 * Int.tdiv o 8
    let g := fun c : Int => if 0 ≤ c ∧ c < len then hostGlyph s (s.text.readByte c.toNat) else zero8
    ((g (a - 1) ++ g a ++ g (a + 1)).drop (8 + sub).toNat).take 8 = window s len o k)

/-- With the font precondition, RENDER_TEXT and RENDER_SCROLL at offset 0 of one length answer states that differ in nothing
(44_display_session.md R147; 43_scroll_compositor.md R132). -/
def Obligations.TextEqualsScrollAtOffsetZero : Prop :=
  (∀ (s : State) (len : Nat) (k : Nat), s.quiet →
    window s len 0 k = if k < len then hostGlyph s (s.text.readByte k) else zero8) ∧
  (∀ (s t : State) (len : Nat), s.session = .opened → s.transportCompletes → s.quiet → s.fontPrecondition →
    exec (.renderText len) s = .next t → exec (.renderScroll len 0) s = .next t)

/-! ## Events, the transport and termination -/

/-- The number of pulses, byte transfers and events of each command, with INIT_REPEAT = N (70_reset_and_hazards.md R189). -/
def Obligations.EventCounts : Prop :=
  ∀ (s : State), let n := s.params.n
    (s.params.initRepeat = n → pulseCount (openEvents s) = 12 * n + 1 ∧ transferCount (openEvents s) = 24 * n ^ 2 + 2 * n ∧
      (openEvents s).length = 24 * n ^ 2 + 26 * n + 4) ∧
    (pulseCount (closeEvents s) = 1 ∧ transferCount (closeEvents s) = 2 * n ∧ (closeEvents s).length = 2 * n + 3) ∧
    (∀ l, pulseCount (setIntensityEvents l s) = 1 ∧ transferCount (setIntensityEvents l s) = 2 * n ∧
      (setIntensityEvents l s).length = 2 * n + 2) ∧
    (∀ p r v, p < n → pulseCount (sendPosEvents p r v s) = 1 ∧ transferCount (sendPosEvents p r v s) = 2 * n ∧
      (sendPosEvents p r v s).length = 2 * n + 2) ∧
    (∀ r v, pulseCount (sendAllEvents r v s) = 1 ∧ transferCount (sendAllEvents r v s) = 2 * n ∧
      (sendAllEvents r v s).length = 2 * n + 2) ∧
    (∀ p c, p < n → pulseCount (renderCharEvents p c s) = 8 ∧ transferCount (renderCharEvents p c s) = 16 * n ∧
      (renderCharEvents p c s).length = 16 * n + 16) ∧
    (∀ len, pulseCount (renderTextEvents len s) = 8 * n ∧ transferCount (renderTextEvents len s) = 16 * n ^ 2 ∧
      (renderTextEvents len s).length = 16 * n ^ 2 + 16 * n) ∧
    (∀ len o, pulseCount (renderScrollEvents len o s) = 8 * n ∧ transferCount (renderScrollEvents len o s) = 16 * n ^ 2 ∧
      (renderScrollEvents len o s).length = 16 * n ^ 2 + 16 * n)

/-- A transport that completes no event leaves the block waiting without limit, with BUSY = 1 and no fault (60_exceptions.md R167): its
turn changes nothing, and so no number of its turns does; whatever other agent moves, the command emits nothing and does not end;
only reset ends it. -/
def Obligations.StalledTransportHangs : Prop :=
  (∀ (s : State) (k : Nat), s.Inv → s.busy = true → s.grant = some 0 → s.sched = [] →
    step s = .next s ∧ s.faulted = false ∧ Sys2Proof.core.run k s = .next s) ∧
  (∀ s t : State, s.Inv → s.busy = true → s.grant = some 0 → step s = .next t →
    (¬ s.resetNext → t.busy = true ∧ t.faulted = false ∧ t.trace = s.trace ∧ t.job = s.job) ∧
    (s.resetNext → t.busy = false ∧ t.faulted = false ∧ t.trace = s.trace ∧ t.job = none))

/-- A transport that completes `g` events of a command and then stalls: exactly those events are on the trace, and the command has ended
only if they were all (60_exceptions.md R167; 70_reset_and_hazards.md R190). -/
def Obligations.CommandEmitsWhatTheTransportCompletes : Prop :=
  ∀ (i : Instr) (s : State) (g : Nat), i.isCommand = true → positionInChain s.params.n i →
    (i = .openSession ∨ s.session = .opened) → s.grant = some g →
    ∃ t, exec i s = .next t ∧ t.trace = s.trace ++ (instrEvents i s).take g ∧ (t.busy = false ↔ (instrEvents i s).length ≤ g) ∧
      (g < (instrEvents i s).length → t.session = s.session ∧ t.grant = some 0 ∧ t.job = some { instr := i, done := g })

/-- A command held up by the transport ends once the transport completes every event (70_reset_and_hazards.md R190): within as many turns
of the block as it has events left, without a fault. What one turn does and the transport's count are the model's choice (log 6, log 7). -/
def Obligations.HeldUpCommandTerminates : Prop :=
  ∀ (s : State) (j : Job), s.Inv → s.job = some j → s.transportCompletes → s.sched = [] →
    ∃ k t, k ≤ (instrEvents j.instr s).length - j.done ∧ Sys2Proof.core.run k s = .next t ∧ t.busy = false ∧
      t.faulted = false ∧ t.trace = s.trace ++ (instrEvents j.instr s).drop j.done

/-- A command the transport holds up after any number of its events, and then lets go on, ends in the very state in which it ends
uninterrupted (20_memory.md R61; 60_exceptions.md R161). The split into turns and the transport's count are the model's choice (log 6,
log 7). -/
def Obligations.HeldUpCommandEndsAsUninterrupted : Prop :=
  ∀ (i : Instr) (s : State) (g : Nat), i.isCommand = true → positionInChain s.params.n i →
    (i = .openSession ∨ s.session = .opened) → s.sched = [] → s.rst = false → s.grant = some g →
    ∃ t u k, exec i s = .next t ∧ exec i { s with grant := none } = .next u ∧
      Sys2Proof.core.run k { t with grant := none } = .next u
end

