-- ==== Sys2Proof/Laws/Assembler.lean ====
section
/-! SUPPORT. What the assembler makes of a line, said once: the line's mnemonic and the numbers its operands stand for. -/

namespace Sys2Proof.Machine

/-! ## Numbers -/

/-- The value of a digit as it is written. -/
theorem digitValue_ten (d : Fin 10) : digitValue 10 (Nat.digitChar d.val) = some d.val := by revert d; decide
theorem digitValue_sixteen (d : Fin 16) : digitValue 16 (Nat.digitChar d.val) = some d.val := by revert d; decide
theorem digitValue_two (d : Fin 2) : digitValue 2 (Nat.digitChar d.val) = some d.val := by revert d; decide

theorem digitsValue_digitsText {base : Nat} (h : ∀ d : Fin base, digitValue base (Nat.digitChar d.val) = some d.val)
    (ds : List (Fin base)) (acc : Nat) :
    digitsValue base acc (digitsText ds) = some (ds.foldl (fun n d => n * base + d.val) acc) := by
  induction ds generalizing acc with
  | nil => rfl
  | cons d rest ih =>
    simp only [digitsText, List.map_cons, digitsValue, h, Option.bind_some, List.foldl_cons] at ih ⊢
    exact ih _

/-- A decimal digit is neither of the letters that begin another form, nor a sign, a blank, a comma or a semicolon. -/
theorem digitChar_plain (d : Fin 16) : let c := Nat.digitChar d.val
    c ≠ 'x' ∧ c ≠ '-' ∧ isBlank c = false ∧ c ≠ ',' ∧ c ≠ ';' := by revert d; decide
theorem digitChar_ten_ne (d : Fin 10) : Nat.digitChar d.val ≠ 'x' ∧ Nat.digitChar d.val ≠ 'b' := by revert d; decide

theorem parseUnsigned_decimal (c : Char) (cs : List Char) (h : ∀ d ∈ cs, d ≠ 'x' ∧ d ≠ 'b') :
    parseUnsigned (c :: cs) = digitsValue 10 0 (c :: cs) := by
  cases cs with
  | nil => unfold parseUnsigned; split <;> simp_all
  | cons d rest =>
    have hd := h d List.mem_cons_self
    unfold parseUnsigned
    split <;> simp_all

theorem parseUnsigned_text (x : Numeral) : parseUnsigned x.text = some x.value := by
  cases x with
  | decimal d ds =>
    have h : ∀ e ∈ digitsText ds, e ≠ 'x' ∧ e ≠ 'b' := by
      intro e he
      obtain ⟨f, _, rfl⟩ := List.mem_map.1 he
      exact digitChar_ten_ne f
    exact (parseUnsigned_decimal _ _ h).trans (digitsValue_digitsText digitValue_ten (d :: ds) 0)
  | hexadecimal d ds => exact digitsValue_digitsText digitValue_sixteen (d :: ds) 0
  | binary d ds => exact digitsValue_digitsText digitValue_two (d :: ds) 0

/-- The characters a number is written with. -/
def isPlain (c : Char) : Prop := isBlank c = false ∧ c ≠ ',' ∧ c ≠ ';'

theorem digitsText_plain {base : Nat} (hb : base ≤ 16) (ds : List (Fin base)) : ∀ c ∈ digitsText ds, isPlain c ∧ c ≠ '-' := by
  intro c hc
  obtain ⟨d, _, rfl⟩ := List.mem_map.1 hc
  have := digitChar_plain (d.castLE hb)
  exact ⟨⟨this.2.2.1, this.2.2.2.1, this.2.2.2.2⟩, this.2.1⟩

theorem Numeral.text_plain (x : Numeral) : ∀ c ∈ x.text, isPlain c ∧ c ≠ '-' := by
  have h0 : isPlain '0' ∧ '0' ≠ '-' := ⟨⟨by decide, by decide, by decide⟩, by decide⟩
  have hx : isPlain 'x' ∧ 'x' ≠ '-' := ⟨⟨by decide, by decide, by decide⟩, by decide⟩
  have hb : isPlain 'b' ∧ 'b' ≠ '-' := ⟨⟨by decide, by decide, by decide⟩, by decide⟩
  intro c hc
  cases x with
  | decimal d ds => exact digitsText_plain (by decide) _ c hc
  | hexadecimal d ds =>
    simp only [Numeral.text, List.mem_cons] at hc
    rcases hc with rfl | rfl | hc
    · exact h0
    · exact hx
    · exact digitsText_plain (base := 16) (by decide) (d :: ds) c (by simpa [digitsText] using hc)
  | binary d ds =>
    simp only [Numeral.text, List.mem_cons] at hc
    rcases hc with rfl | rfl | hc
    · exact h0
    · exact hb
    · exact digitsText_plain (base := 2) (by decide) (d :: ds) c (by simpa [digitsText] using hc)

theorem Numeral.text_ne_nil (x : Numeral) : x.text ≠ [] := by cases x <;> simp [Numeral.text, digitsText]

theorem Operand.text_plain (x : Operand) : ∀ c ∈ x.text, isPlain c := by
  intro c hc
  unfold Operand.text at hc
  split at hc
  · rcases List.mem_cons.1 hc with rfl | hc
    · exact ⟨by decide, by decide, by decide⟩
    · exact (x.digits.text_plain c hc).1
  · exact (x.digits.text_plain c hc).1

theorem Operand.text_ne_nil (x : Operand) : x.text ≠ [] := by
  unfold Operand.text
  split
  · simp
  · exact x.digits.text_ne_nil

/-- An operand parses to its value, nothing of it dropped. -/
theorem parseNumber_text (x : Operand) : parseNumber x.text = some x.value := by
  unfold Operand.text Operand.value
  split
  · simp [parseNumber, parseUnsigned_text]
  · have hne : ∀ rest, x.digits.text ≠ '-' :: rest := by
      intro rest h
      exact (x.digits.text_plain '-' (h ▸ List.mem_cons_self)).2 rfl
    unfold parseNumber
    split
    · exact absurd ‹_› (hne _)
    · simp [parseUnsigned_text]

/-! ## Blanks and commas -/

theorem dropWhile_of_head {t : List Char} (p : Char → Bool) (h : ∀ c ∈ t.head?, p c = false) : t.dropWhile p = t := by
  cases t with
  | nil => rfl
  | cons c rest => simp [h c rfl]

/-- Text that neither begins nor ends with a blank. -/
theorem trimBlanks_of_ends {t : List Char} (hh : ∀ c ∈ t.head?, isBlank c = false) (hl : ∀ c ∈ t.getLast?, isBlank c = false) :
    trimBlanks t = t := by
  unfold trimBlanks
  rw [dropWhile_of_head _ hh, dropWhile_of_head _ (by rw [List.head?_reverse]; exact hl), List.reverse_reverse]

theorem trimBlanks_space (t : List Char) : trimBlanks (' ' :: t) = trimBlanks t := by
  simp [trimBlanks, isBlank]

theorem trimBlanks_plain {t : List Char} (h : ∀ c ∈ t, isPlain c) : trimBlanks t = t :=
  trimBlanks_of_ends (fun c hc => (h c (List.mem_of_mem_head? hc)).1) (fun c hc => (h c (List.mem_of_mem_getLast? hc)).1)

theorem splitCommas_ne_nil (t : List Char) : splitCommas t ≠ [] := by
  cases t with
  | nil => simp [splitCommas]
  | cons c rest =>
    unfold splitCommas
    split
    · simp
    · split <;> simp

theorem splitCommas_plain {t : List Char} (h : ∀ c ∈ t, c ≠ ',') : splitCommas t = [t] := by
  induction t with
  | nil => rfl
  | cons c rest ih =>
    simp [splitCommas, h c List.mem_cons_self, ih (fun d hd => h d (List.mem_cons_of_mem _ hd))]

theorem splitCommas_append {t : List Char} (h : ∀ c ∈ t, c ≠ ',') (u : List Char) :
    splitCommas (t ++ ',' :: u) = t :: splitCommas u := by
  induction t with
  | nil => simp [splitCommas]
  | cons c rest ih =>
    simp [splitCommas, h c List.mem_cons_self, ih (fun d hd => h d (List.mem_cons_of_mem _ hd))]

/-! ## Operands -/

/-- The operands of a line as text. -/
def operandsText (ops : List Operand) : List Char := [',', ' '].intercalate (ops.map Operand.text)

theorem operandsText_cons (x y : Operand) (rest : List Operand) :
    operandsText (x :: y :: rest) = x.text ++ ',' :: ' ' :: operandsText (y :: rest) := by
  simp [operandsText, List.intercalate]

theorem operandsText_one (x : Operand) : operandsText [x] = x.text := by simp [operandsText, List.intercalate]

theorem operandsText_ends (x : Operand) (rest : List Operand) :
    (∀ c ∈ (operandsText (x :: rest)).head?, isBlank c = false) ∧ (∀ c ∈ (operandsText (x :: rest)).getLast?, isBlank c = false) ∧
      operandsText (x :: rest) ≠ [] ∧ (∀ c ∈ operandsText (x :: rest), c ≠ ';') := by
  have hp := x.text_plain
  have hn := x.text_ne_nil
  induction rest generalizing x with
  | nil =>
    rw [operandsText_one]
    exact ⟨fun c hc => (hp c (List.mem_of_mem_head? hc)).1, fun c hc => (hp c (List.mem_of_mem_getLast? hc)).1, hn,
      fun c hc => (hp c hc).2.2⟩
  | cons y rest ih =>
    obtain ⟨_, h2, h3, h4⟩ := ih y y.text_plain y.text_ne_nil
    rw [operandsText_cons]
    refine ⟨?_, ?_, by simp, ?_⟩
    · intro c hc
      rw [List.head?_append_of_ne_nil _ hn] at hc
      exact (hp c (List.mem_of_mem_head? hc)).1
    · intro c hc
      obtain ⟨d, ds, hd⟩ := List.exists_cons_of_ne_nil h3
      rw [hd] at hc h2
      rw [List.getLast?_append_cons, List.getLast?_cons_cons, List.getLast?_cons_cons] at hc
      exact h2 c hc
    · intro c hc
      simp only [List.mem_append, List.mem_cons] at hc
      rcases hc with hc | rfl | rfl | hc
      · exact (hp c hc).2.2
      · decide
      · decide
      · exact h4 c hc

theorem parseAll_operandsText (x : Operand) (rest : List Operand) :
    parseAll (splitCommas (operandsText (x :: rest))) = some ((x :: rest).map Operand.value) ∧
      parseAll (splitCommas (' ' :: operandsText (x :: rest))) = some ((x :: rest).map Operand.value) := by
  have hc : ∀ c ∈ x.text, c ≠ ',' := fun c hc => (x.text_plain c hc).2.1
  have hs : ∀ c ∈ ' ' :: x.text, c ≠ ',' := by
    intro c h
    rcases List.mem_cons.1 h with rfl | h
    · decide
    · exact hc c h
  have ht := trimBlanks_plain x.text_plain
  induction rest generalizing x with
  | nil =>
    rw [operandsText_one]
    simp [splitCommas_plain hc, splitCommas_plain hs, parseAll, trimBlanks_space, ht, parseNumber_text]
  | cons y rest ih =>
    have hy : ∀ c ∈ y.text, c ≠ ',' := fun c hc => (y.text_plain c hc).2.1
    have := (ih y hy (by intro c h; rcases List.mem_cons.1 h with rfl | h; decide; exact hy c h)
      (trimBlanks_plain y.text_plain)).2
    rw [operandsText_cons]
    rw [splitCommas_append hc, show ' ' :: (x.text ++ ',' :: ' ' :: operandsText (y :: rest)) =
      (' ' :: x.text) ++ ',' :: ' ' :: operandsText (y :: rest) from rfl, splitCommas_append hs]
    simp [parseAll, trimBlanks_space, ht, parseNumber_text, this]

/-! ## Lines -/

/-- What a line of a mnemonic and operands assembles to: what the mnemonic makes of the operands' values. -/
theorem assembleLine_lineText (name : String) (ops : List Operand) (hn : name.toList ≠ [])
    (hc : ∀ c ∈ name.toList, isBlank c = false ∧ c ≠ ';') :
    assembleLine (lineText name ops) =
      match (mnemonicOf name.toList).bind (fun m => assembleParts m (ops.map Operand.value)) with
      | none => .refused
      | some i => .instr i := by
  have htake : ∀ u : List Char, (name.toList ++ ' ' :: u).takeWhile (fun c => !isBlank c) = name.toList := by
    intro u
    rw [List.takeWhile_append_of_pos (fun c h => by simp [(hc c h).1])]
    simp [isBlank]
  have hdrop : ∀ u : List Char, (name.toList ++ ' ' :: u).dropWhile (fun c => !isBlank c) = ' ' :: u := by
    intro u
    rw [List.dropWhile_append_of_pos (fun c h => by simp [(hc c h).1])]
    simp [isBlank]
  obtain ⟨n, ns, hns⟩ := List.exists_cons_of_ne_nil hn
  cases ops with
  | nil =>
    have hstrip : stripComment name.toList = name.toList := by
      unfold stripComment
      rw [List.takeWhile_eq_self_iff]
      intro c h
      simpa using (hc c h).2
    have htrim : trimBlanks name.toList = name.toList :=
      trimBlanks_of_ends (fun c h => (hc c (List.mem_of_mem_head? h)).1) (fun c h => (hc c (List.mem_of_mem_getLast? h)).1)
    have htk : name.toList.takeWhile (fun c => !isBlank c) = name.toList := by
      rw [List.takeWhile_eq_self_iff]; intro c h; simp [(hc c h).1]
    have hdr : name.toList.dropWhile (fun c => !isBlank c) = [] := by
      rw [List.dropWhile_eq_nil_iff]; intro c h; simp [(hc c h).1]
    simp only [assembleLine, lineText, hstrip, htrim, htk, hdr]
    rw [hns]
    rfl
  | cons x rest =>
    obtain ⟨_, h2, h3, h4⟩ := operandsText_ends x rest
    obtain ⟨h1, _, _, _⟩ := operandsText_ends x rest
    have hline : lineText name (x :: rest) = name.toList ++ ' ' :: operandsText (x :: rest) := rfl
    have hstrip : stripComment (lineText name (x :: rest)) = lineText name (x :: rest) := by
      unfold stripComment
      rw [List.takeWhile_eq_self_iff, hline]
      intro c h
      simp only [List.mem_append, List.mem_cons] at h
      rcases h with h | rfl | h
      · simpa using (hc c h).2
      · decide
      · simpa using h4 c h
    have htrim : trimBlanks (lineText name (x :: rest)) = lineText name (x :: rest) := by
      rw [hline]
      refine trimBlanks_of_ends ?_ ?_
      · intro c h
        rw [List.head?_append_of_ne_nil _ hn] at h
        exact (hc c (List.mem_of_mem_head? h)).1
      · intro c h
        obtain ⟨d, ds, hd⟩ := List.exists_cons_of_ne_nil h3
        rw [hd] at h h2
        rw [List.getLast?_append_cons, List.getLast?_cons_cons] at h
        exact h2 c h
    have hops : parseOperands (' ' :: operandsText (x :: rest)) = some ((x :: rest).map Operand.value) := by
      unfold parseOperands
      rw [trimBlanks_space, trimBlanks_of_ends h1 h2]
      split
      · exact absurd ‹_› h3
      · exact (parseAll_operandsText x rest).1
    simp only [assembleLine, hstrip, htrim]
    rw [hline, htake, hdrop, hops]
    rw [hns]
    rfl

theorem mnemonicNames_all : mnemonicNames.all (fun x => !x.1.isEmpty && x.1.all (fun c => !isBlank c && c != ';') &&
    mnemonicOf x.1 == some x.2) = true := by rfl

/-- Every mnemonic is read back, and is text without blanks. -/
theorem mnemonicNames_read {x : List Char × Mnemonic} (h : x ∈ mnemonicNames) :
    x.1 ≠ [] ∧ (∀ c ∈ x.1, isBlank c = false ∧ c ≠ ';') ∧ mnemonicOf x.1 = some x.2 := by
  simpa [and_assoc] using List.all_eq_true.1 mnemonicNames_all x h

/-- A line of a mnemonic of the table. -/
theorem assembleLine_mnemonic {name : String} {m : Mnemonic} (h : (name.toList, m) ∈ mnemonicNames) (ops : List Operand) :
    assembleLine (lineText name ops) =
      match assembleParts m (ops.map Operand.value) with
      | none => .refused
      | some i => .instr i := by
  obtain ⟨h1, h2, h3⟩ := mnemonicNames_read h
  rw [assembleLine_lineText name ops h1 h2, h3]
  rfl

/-- A comment changes nothing. -/
theorem assembleLine_comment (line comment : List Char) : assembleLine (line ++ ';' :: comment) = assembleLine line := by
  have h : stripComment (line ++ ';' :: comment) = stripComment line := by
    unfold stripComment
    induction line with
    | nil => simp
    | cons c rest ih => simp only [List.cons_append, List.takeWhile_cons, ih]
  simp only [assembleLine, h]

end Sys2Proof.Machine
end

