-- ==== Sys2Proof/Laws/Memory.lean ====
section
/-! SUPPORT. Cells: read after write, and that every memory operation keeps the canonical form. -/

namespace Sys2Proof.Machine

/-! ## Read after write -/

theorem cellAt_putCell_same (m : List Host.Cell) (a : Nat) (b : Byte) : cellAt (putCell m a b) a = some b := by
  induction m with
  | nil => simp [putCell, cellAt]
  | cons c rest ih =>
    simp only [putCell]
    split
    · simp [cellAt]
    · split
      · simp [cellAt]
      · simp [cellAt, *]

theorem cellAt_putCell_other (m : List Host.Cell) {a x : Nat} (b : Byte) (h : x ≠ a) :
    cellAt (putCell m a b) x = cellAt m x := by
  induction m with
  | nil => simp [putCell, cellAt, h.symm]
  | cons c rest ih =>
    simp only [putCell]
    split
    · simp [cellAt, h.symm]
    · split
      · rename_i hc; simp [cellAt, hc, h.symm]
      · simp only [cellAt, ih]

theorem cellAt_dropCell_same (m : List Host.Cell) (a : Nat) : cellAt (dropCell m a) a = none := by
  induction m with
  | nil => rfl
  | cons c rest ih =>
    by_cases h : c.1 = a
    · simpa [dropCell, h] using ih
    · simpa [dropCell, h, cellAt] using ih

theorem cellAt_dropCell_other (m : List Host.Cell) {a x : Nat} (h : x ≠ a) : cellAt (dropCell m a) x = cellAt m x := by
  induction m with
  | nil => rfl
  | cons c rest ih =>
    by_cases hc : c.1 = a
    · have : ¬ c.1 = x := fun e => h (e ▸ hc)
      simpa [dropCell, hc, cellAt, this, h.symm] using ih
    · simp only [dropCell, bne_iff_ne, ne_eq, hc, not_false_eq_true, List.filter_cons_of_pos, cellAt]
      split
      · rfl
      · simpa [dropCell] using ih

theorem Memory.readByte_writeByte_same (m : Memory) (a : Nat) (b : Byte) : (m.writeByte a b).readByte a = b := by
  by_cases h : b = unwrittenByte
  · simp [Memory.readByte, Memory.writeByte, h, cellAt_dropCell_same]
  · simp [Memory.readByte, Memory.writeByte, h, cellAt_putCell_same]

theorem Memory.readByte_writeByte_other (m : Memory) {a x : Nat} (b : Byte) (h : x ≠ a) :
    (m.writeByte a b).readByte x = m.readByte x := by
  by_cases hb : b = unwrittenByte
  · simp [Memory.readByte, Memory.writeByte, hb, cellAt_dropCell_other m h]
  · simp [Memory.readByte, Memory.writeByte, hb, cellAt_putCell_other m b h]

/-! ## The canonical form is kept -/

theorem mem_putCell {m : List Host.Cell} {a : Nat} {b : Byte} {c : Host.Cell} (h : c ∈ putCell m a b) :
    c = (a, b) ∨ c ∈ m := by
  induction m with
  | nil => simpa [putCell] using h
  | cons d rest ih =>
    simp only [putCell] at h
    split at h
    · simpa using h
    · split at h
      · rcases List.mem_cons.1 h with h | h
        · exact .inl h
        · exact .inr (List.mem_cons_of_mem _ h)
      · rcases List.mem_cons.1 h with h | h
        · exact .inr (h ▸ List.mem_cons_self)
        · rcases ih h with h | h
          · exact .inl h
          · exact .inr (List.mem_cons_of_mem _ h)

theorem rising_putCell {m : List Host.Cell} (h : Memory.rising m) (a : Nat) (b : Byte) :
    Memory.rising (putCell m a b) := by
  induction m with
  | nil => simp [putCell, Memory.rising]
  | cons d rest ih =>
    obtain ⟨hd, hrest⟩ := List.pairwise_cons.1 h
    simp only [putCell]
    split
    · rename_i hlt
      refine List.pairwise_cons.2 ⟨fun c hc => ?_, h⟩
      rcases List.mem_cons.1 hc with rfl | hc
      · exact hlt
      · exact lt_trans hlt (hd c hc)
    · split
      · rename_i heq
        exact List.pairwise_cons.2 ⟨fun c hc => by have := hd c hc; simp only [] ; omega, hrest⟩
      · rename_i hnlt hne
        refine List.pairwise_cons.2 ⟨fun c hc => ?_, ih hrest⟩
        rcases mem_putCell hc with rfl | hc
        · simp only []; omega
        · exact hd c hc

theorem rising_dropCell {m : List Host.Cell} (h : Memory.rising m) (a : Nat) : Memory.rising (dropCell m a) :=
  List.Pairwise.filter _ h

/-- A host write inside the memory keeps its canonical form. -/
theorem Memory.wf_writeByte {size : Nat} {m : Memory} (h : Memory.wf size m) {a : Nat} (ha : a < size) (b : Byte) :
    Memory.wf size (m.writeByte a b) := by
  unfold Memory.writeByte
  split
  · exact ⟨rising_dropCell h.1 a, fun c hc => h.2 c (List.mem_of_mem_filter hc)⟩
  · rename_i hb
    refine ⟨rising_putCell h.1 a b, fun c hc => ?_⟩
    rcases mem_putCell hc with rfl | hc
    · exact ⟨ha, hb⟩
    · exact h.2 c hc

/-- The empty memory is in canonical form. -/
theorem Memory.wf_nil (size : Nat) : Memory.wf size [] := ⟨List.Pairwise.nil, by simp⟩

end Sys2Proof.Machine
end

