-- ==== Sys2Proof/Laws/State.lean ====
section
/-! SUPPORT. One lemma per field of State per update, each true by rfl, so that no proof unfolds a record update. -/

namespace Sys2Proof.Machine

/-! ## emit -/

@[simp] theorem State.emit_params (s : State) (e : Event) : (s.emit e).params = s.params := rfl
@[simp] theorem State.emit_session (s : State) (e : Event) : (s.emit e).session = s.session := rfl
@[simp] theorem State.emit_busy (s : State) (e : Event) : (s.emit e).busy = s.busy := rfl
@[simp] theorem State.emit_faulted (s : State) (e : Event) : (s.emit e).faulted = s.faulted := rfl
@[simp] theorem State.emit_cause (s : State) (e : Event) : (s.emit e).cause = s.cause := rfl
@[simp] theorem State.emit_faultCmd (s : State) (e : Event) : (s.emit e).faultCmd = s.faultCmd := rfl
@[simp] theorem State.emit_lines (s : State) (e : Event) : (s.emit e).lines = s.lines.take e := rfl
@[simp] theorem State.emit_latched (s : State) (e : Event) : (s.emit e).latched = s.latched := rfl
@[simp] theorem State.emit_job (s : State) (e : Event) : (s.emit e).job = s.job := rfl
@[simp] theorem State.emit_port (s : State) (e : Event) : (s.emit e).port = s.port := rfl
@[simp] theorem State.emit_rst (s : State) (e : Event) : (s.emit e).rst = s.rst := rfl
@[simp] theorem State.emit_font (s : State) (e : Event) : (s.emit e).font = s.font := rfl
@[simp] theorem State.emit_text (s : State) (e : Event) : (s.emit e).text = s.text := rfl
@[simp] theorem State.emit_racedFont (s : State) (e : Event) : (s.emit e).racedFont = s.racedFont := rfl
@[simp] theorem State.emit_racedText (s : State) (e : Event) : (s.emit e).racedText = s.racedText := rfl
@[simp] theorem State.emit_raceCount (s : State) (e : Event) : (s.emit e).raceCount = s.raceCount := rfl
@[simp] theorem State.emit_trace (s : State) (e : Event) : (s.emit e).trace = s.trace ++ [e] := rfl
@[simp] theorem State.emit_grant (s : State) (e : Event) : (s.emit e).grant = s.grant := rfl
@[simp] theorem State.emit_chain (s : State) (e : Event) : (s.emit e).chain = s.chain.take s.params.n e := rfl
@[simp] theorem State.emit_sched (s : State) (e : Event) : (s.emit e).sched = s.sched := rfl

/-! ## clearTransient -/

@[simp] theorem State.clearTransient_params (s : State) : (s.clearTransient).params = s.params := rfl
@[simp] theorem State.clearTransient_session (s : State) : (s.clearTransient).session = s.session := rfl
@[simp] theorem State.clearTransient_busy (s : State) : (s.clearTransient).busy = s.busy := rfl
@[simp] theorem State.clearTransient_faulted (s : State) : (s.clearTransient).faulted = s.faulted := rfl
@[simp] theorem State.clearTransient_cause (s : State) : (s.clearTransient).cause = s.cause := rfl
@[simp] theorem State.clearTransient_faultCmd (s : State) : (s.clearTransient).faultCmd = s.faultCmd := rfl
@[simp] theorem State.clearTransient_lines (s : State) : (s.clearTransient).lines = s.lines := rfl
@[simp] theorem State.clearTransient_latched (s : State) : (s.clearTransient).latched = 0 := rfl
@[simp] theorem State.clearTransient_job (s : State) : (s.clearTransient).job = none := rfl
@[simp] theorem State.clearTransient_port (s : State) : (s.clearTransient).port = s.port := rfl
@[simp] theorem State.clearTransient_rst (s : State) : (s.clearTransient).rst = s.rst := rfl
@[simp] theorem State.clearTransient_font (s : State) : (s.clearTransient).font = s.font := rfl
@[simp] theorem State.clearTransient_text (s : State) : (s.clearTransient).text = s.text := rfl
@[simp] theorem State.clearTransient_racedFont (s : State) : (s.clearTransient).racedFont = [] := rfl
@[simp] theorem State.clearTransient_racedText (s : State) : (s.clearTransient).racedText = [] := rfl
@[simp] theorem State.clearTransient_raceCount (s : State) : (s.clearTransient).raceCount = s.raceCount := rfl
@[simp] theorem State.clearTransient_trace (s : State) : (s.clearTransient).trace = s.trace := rfl
@[simp] theorem State.clearTransient_grant (s : State) : (s.clearTransient).grant = s.grant := rfl
@[simp] theorem State.clearTransient_chain (s : State) : (s.clearTransient).chain = s.chain := rfl
@[simp] theorem State.clearTransient_sched (s : State) : (s.clearTransient).sched = s.sched := rfl

/-! ## beginCommand -/

@[simp] theorem State.beginCommand_params (s : State) (i : Instr) : (s.beginCommand i).params = s.params := rfl
@[simp] theorem State.beginCommand_session (s : State) (i : Instr) : (s.beginCommand i).session = s.session := rfl
@[simp] theorem State.beginCommand_busy (s : State) (i : Instr) : (s.beginCommand i).busy = true := rfl
@[simp] theorem State.beginCommand_faulted (s : State) (i : Instr) : (s.beginCommand i).faulted = s.faulted := rfl
@[simp] theorem State.beginCommand_cause (s : State) (i : Instr) : (s.beginCommand i).cause = s.cause := rfl
@[simp] theorem State.beginCommand_faultCmd (s : State) (i : Instr) : (s.beginCommand i).faultCmd = s.faultCmd := rfl
@[simp] theorem State.beginCommand_lines (s : State) (i : Instr) : (s.beginCommand i).lines = s.lines := rfl
@[simp] theorem State.beginCommand_latched (s : State) (i : Instr) : (s.beginCommand i).latched = s.latched := rfl
@[simp] theorem State.beginCommand_job (s : State) (i : Instr) : (s.beginCommand i).job = some { instr := i, done := 0 } := rfl
@[simp] theorem State.beginCommand_port (s : State) (i : Instr) : (s.beginCommand i).port = s.port := rfl
@[simp] theorem State.beginCommand_rst (s : State) (i : Instr) : (s.beginCommand i).rst = s.rst := rfl
@[simp] theorem State.beginCommand_font (s : State) (i : Instr) : (s.beginCommand i).font = s.font := rfl
@[simp] theorem State.beginCommand_text (s : State) (i : Instr) : (s.beginCommand i).text = s.text := rfl
@[simp] theorem State.beginCommand_racedFont (s : State) (i : Instr) : (s.beginCommand i).racedFont = s.racedFont := rfl
@[simp] theorem State.beginCommand_racedText (s : State) (i : Instr) : (s.beginCommand i).racedText = s.racedText := rfl
@[simp] theorem State.beginCommand_raceCount (s : State) (i : Instr) : (s.beginCommand i).raceCount = s.raceCount := rfl
@[simp] theorem State.beginCommand_trace (s : State) (i : Instr) : (s.beginCommand i).trace = s.trace := rfl
@[simp] theorem State.beginCommand_grant (s : State) (i : Instr) : (s.beginCommand i).grant = s.grant := rfl
@[simp] theorem State.beginCommand_chain (s : State) (i : Instr) : (s.beginCommand i).chain = s.chain := rfl
@[simp] theorem State.beginCommand_sched (s : State) (i : Instr) : (s.beginCommand i).sched = s.sched := rfl

/-! ## endCommand -/

@[simp] theorem State.endCommand_params (s : State) (i : Instr) : (s.endCommand i).params = s.params := rfl
@[simp] theorem State.endCommand_session (s : State) (i : Instr) : (s.endCommand i).session = sessionAfter i s.session := rfl
@[simp] theorem State.endCommand_busy (s : State) (i : Instr) : (s.endCommand i).busy = false := rfl
@[simp] theorem State.endCommand_faulted (s : State) (i : Instr) : (s.endCommand i).faulted = s.faulted := rfl
@[simp] theorem State.endCommand_cause (s : State) (i : Instr) : (s.endCommand i).cause = s.cause := rfl
@[simp] theorem State.endCommand_faultCmd (s : State) (i : Instr) : (s.endCommand i).faultCmd = s.faultCmd := rfl
@[simp] theorem State.endCommand_lines (s : State) (i : Instr) : (s.endCommand i).lines = s.lines := rfl
@[simp] theorem State.endCommand_latched (s : State) (i : Instr) : (s.endCommand i).latched = 0 := rfl
@[simp] theorem State.endCommand_job (s : State) (i : Instr) : (s.endCommand i).job = none := rfl
@[simp] theorem State.endCommand_port (s : State) (i : Instr) : (s.endCommand i).port = s.port := rfl
@[simp] theorem State.endCommand_rst (s : State) (i : Instr) : (s.endCommand i).rst = s.rst := rfl
@[simp] theorem State.endCommand_font (s : State) (i : Instr) : (s.endCommand i).font = s.font := rfl
@[simp] theorem State.endCommand_text (s : State) (i : Instr) : (s.endCommand i).text = s.text := rfl
@[simp] theorem State.endCommand_racedFont (s : State) (i : Instr) : (s.endCommand i).racedFont = [] := rfl
@[simp] theorem State.endCommand_racedText (s : State) (i : Instr) : (s.endCommand i).racedText = [] := rfl
@[simp] theorem State.endCommand_raceCount (s : State) (i : Instr) : (s.endCommand i).raceCount = s.raceCount := rfl
@[simp] theorem State.endCommand_trace (s : State) (i : Instr) : (s.endCommand i).trace = s.trace := rfl
@[simp] theorem State.endCommand_grant (s : State) (i : Instr) : (s.endCommand i).grant = s.grant := rfl
@[simp] theorem State.endCommand_chain (s : State) (i : Instr) : (s.endCommand i).chain = s.chain := rfl
@[simp] theorem State.endCommand_sched (s : State) (i : Instr) : (s.endCommand i).sched = s.sched := rfl

/-! ## raise -/

@[simp] theorem State.raise_params (s : State) (c : Cause) : (s.raise c).params = s.params := rfl
@[simp] theorem State.raise_session (s : State) (c : Cause) : (s.raise c).session = s.session := rfl
@[simp] theorem State.raise_busy (s : State) (c : Cause) : (s.raise c).busy = false := rfl
@[simp] theorem State.raise_faulted (s : State) (c : Cause) : (s.raise c).faulted = true := rfl
@[simp] theorem State.raise_cause (s : State) (c : Cause) : (s.raise c).cause = c := rfl
@[simp] theorem State.raise_faultCmd (s : State) (c : Cause) : (s.raise c).faultCmd = s.latched := rfl
@[simp] theorem State.raise_lines (s : State) (c : Cause) : (s.raise c).lines = s.lines := rfl
@[simp] theorem State.raise_latched (s : State) (c : Cause) : (s.raise c).latched = 0 := rfl
@[simp] theorem State.raise_job (s : State) (c : Cause) : (s.raise c).job = none := rfl
@[simp] theorem State.raise_port (s : State) (c : Cause) : (s.raise c).port = s.port := rfl
@[simp] theorem State.raise_rst (s : State) (c : Cause) : (s.raise c).rst = s.rst := rfl
@[simp] theorem State.raise_font (s : State) (c : Cause) : (s.raise c).font = s.font := rfl
@[simp] theorem State.raise_text (s : State) (c : Cause) : (s.raise c).text = s.text := rfl
@[simp] theorem State.raise_racedFont (s : State) (c : Cause) : (s.raise c).racedFont = [] := rfl
@[simp] theorem State.raise_racedText (s : State) (c : Cause) : (s.raise c).racedText = [] := rfl
@[simp] theorem State.raise_raceCount (s : State) (c : Cause) : (s.raise c).raceCount = s.raceCount := rfl
@[simp] theorem State.raise_trace (s : State) (c : Cause) : (s.raise c).trace = s.trace := rfl
@[simp] theorem State.raise_grant (s : State) (c : Cause) : (s.raise c).grant = s.grant := rfl
@[simp] theorem State.raise_chain (s : State) (c : Cause) : (s.raise c).chain = s.chain := rfl
@[simp] theorem State.raise_sched (s : State) (c : Cause) : (s.raise c).sched = s.sched := rfl

/-! ## resetBlock -/

@[simp] theorem State.resetBlock_params (s : State) : (s.resetBlock).params = s.params := rfl
@[simp] theorem State.resetBlock_session (s : State) : (s.resetBlock).session = .closed := rfl
@[simp] theorem State.resetBlock_busy (s : State) : (s.resetBlock).busy = false := rfl
@[simp] theorem State.resetBlock_faulted (s : State) : (s.resetBlock).faulted = false := rfl
@[simp] theorem State.resetBlock_cause (s : State) : (s.resetBlock).cause = .none := rfl
@[simp] theorem State.resetBlock_faultCmd (s : State) : (s.resetBlock).faultCmd = 0 := rfl
@[simp] theorem State.resetBlock_lines (s : State) : (s.resetBlock).lines = Lines.reset := rfl
@[simp] theorem State.resetBlock_latched (s : State) : (s.resetBlock).latched = 0 := rfl
@[simp] theorem State.resetBlock_job (s : State) : (s.resetBlock).job = none := rfl
@[simp] theorem State.resetBlock_port (s : State) : (s.resetBlock).port = s.port := rfl
@[simp] theorem State.resetBlock_rst (s : State) : (s.resetBlock).rst = s.rst := rfl
@[simp] theorem State.resetBlock_font (s : State) : (s.resetBlock).font = s.font := rfl
@[simp] theorem State.resetBlock_text (s : State) : (s.resetBlock).text = s.text := rfl
@[simp] theorem State.resetBlock_racedFont (s : State) : (s.resetBlock).racedFont = [] := rfl
@[simp] theorem State.resetBlock_racedText (s : State) : (s.resetBlock).racedText = [] := rfl
@[simp] theorem State.resetBlock_raceCount (s : State) : (s.resetBlock).raceCount = s.raceCount := rfl
@[simp] theorem State.resetBlock_trace (s : State) : (s.resetBlock).trace = s.trace := rfl
@[simp] theorem State.resetBlock_grant (s : State) : (s.resetBlock).grant = s.grant := rfl
@[simp] theorem State.resetBlock_chain (s : State) : (s.resetBlock).chain = s.chain.forget := rfl
@[simp] theorem State.resetBlock_sched (s : State) : (s.resetBlock).sched = s.sched := rfl

/-! ## Lines and chain -/

@[simp] theorem Lines.take_xfer (l : Lines) (b : Byte) : l.take (.xfer b) = l := rfl
@[simp] theorem Lines.take_selAssert_selDriven (l : Lines) : (l.take .selAssert).selDriven = l.selDriven := rfl
@[simp] theorem Lines.take_selAssert_selLevel (l : Lines) : (l.take .selAssert).selLevel = false := rfl
@[simp] theorem Lines.take_selAssert_xportActive (l : Lines) : (l.take .selAssert).xportActive = l.xportActive := rfl
@[simp] theorem Lines.take_selDeassert_selDriven (l : Lines) : (l.take .selDeassert).selDriven = l.selDriven := rfl
@[simp] theorem Lines.take_selDeassert_selLevel (l : Lines) : (l.take .selDeassert).selLevel = true := rfl
@[simp] theorem Lines.take_selDeassert_xportActive (l : Lines) : (l.take .selDeassert).xportActive = l.xportActive := rfl
@[simp] theorem Chain.forget_regs (c : Chain) : c.forget.regs = [] := rfl
@[simp] theorem Chain.forget_pulse (c : Chain) : c.forget.pulse = .idle := rfl
@[simp] theorem Chain.forget_refused (c : Chain) : c.forget.refused = c.refused := rfl
@[simp] theorem Chain.disturb_regs (c : Chain) : c.disturb.regs = [] := rfl
@[simp] theorem Chain.disturb_refused (c : Chain) : c.disturb.refused = c.refused := rfl

/-! ## Driving the command port -/

@[simp] theorem State.drivePort_params (s : State) (w : Option CommandWord) : (s.drivePort w).params = s.params := rfl
@[simp] theorem State.drivePort_session (s : State) (w : Option CommandWord) : (s.drivePort w).session = s.session := rfl
@[simp] theorem State.drivePort_busy (s : State) (w : Option CommandWord) : (s.drivePort w).busy = s.busy := rfl
@[simp] theorem State.drivePort_faulted (s : State) (w : Option CommandWord) : (s.drivePort w).faulted = s.faulted := rfl
@[simp] theorem State.drivePort_cause (s : State) (w : Option CommandWord) : (s.drivePort w).cause = s.cause := rfl
@[simp] theorem State.drivePort_faultCmd (s : State) (w : Option CommandWord) : (s.drivePort w).faultCmd = s.faultCmd := rfl
@[simp] theorem State.drivePort_lines (s : State) (w : Option CommandWord) : (s.drivePort w).lines = s.lines := rfl
@[simp] theorem State.drivePort_latched (s : State) (w : Option CommandWord) : (s.drivePort w).latched = s.latched := rfl
@[simp] theorem State.drivePort_job (s : State) (w : Option CommandWord) : (s.drivePort w).job = s.job := rfl
@[simp] theorem State.drivePort_port (s : State) (w : Option CommandWord) : (s.drivePort w).port = w := rfl
@[simp] theorem State.drivePort_rst (s : State) (w : Option CommandWord) : (s.drivePort w).rst = s.rst := rfl
@[simp] theorem State.drivePort_font (s : State) (w : Option CommandWord) : (s.drivePort w).font = s.font := rfl
@[simp] theorem State.drivePort_text (s : State) (w : Option CommandWord) : (s.drivePort w).text = s.text := rfl
@[simp] theorem State.drivePort_racedFont (s : State) (w : Option CommandWord) : (s.drivePort w).racedFont = s.racedFont := rfl
@[simp] theorem State.drivePort_racedText (s : State) (w : Option CommandWord) : (s.drivePort w).racedText = s.racedText := rfl
@[simp] theorem State.drivePort_raceCount (s : State) (w : Option CommandWord) : (s.drivePort w).raceCount = s.raceCount := rfl
@[simp] theorem State.drivePort_trace (s : State) (w : Option CommandWord) : (s.drivePort w).trace = s.trace := rfl
@[simp] theorem State.drivePort_grant (s : State) (w : Option CommandWord) : (s.drivePort w).grant = s.grant := rfl
@[simp] theorem State.drivePort_chain (s : State) (w : Option CommandWord) : (s.drivePort w).chain = s.chain := rfl
@[simp] theorem State.drivePort_sched (s : State) (w : Option CommandWord) : (s.drivePort w).sched = s.sched := rfl

end Sys2Proof.Machine
end

