-- ==== Sys2Proof/Laws/Ops.lean ====
section
/-! SUPPORT. What the shared operations do, said once: emitting lists of events, the transport, running a command, the checks
and the fault. -/

namespace Sys2Proof.Machine

/-! ## emitAll -/

theorem State.emitAll_nil (s : State) : s.emitAll [] = s := rfl

theorem State.emitAll_cons (s : State) (e : Event) (es : List Event) : s.emitAll (e :: es) = (s.emit e).emitAll es := rfl

/-- Emitting a list touches the trace, the lines and the chain, and nothing else. -/
theorem State.emitAll_eq (s : State) (evs : List Event) :
    s.emitAll evs =
      { s with
        trace := s.trace ++ evs
        lines := evs.foldl Lines.take s.lines
        chain := evs.foldl (Chain.take s.params.n) s.chain } := by
  induction evs generalizing s with
  | nil => simp [State.emitAll]
  | cons e es ih => rw [State.emitAll_cons, ih]; simp [State.emit, List.append_assoc]

theorem State.emitAll_append (s : State) (as bs : List Event) : s.emitAll (as ++ bs) = (s.emitAll as).emitAll bs := by
  simp [State.emitAll, List.foldl_append]

/-! ## transfer -/

theorem State.completes_le (s : State) (k : Nat) : s.completes k ≤ k := by
  unfold State.completes; split <;> simp

theorem State.completes_of_grant_none {s : State} (h : s.grant = none) (k : Nat) : s.completes k = k := by
  simp [State.completes, h]

theorem State.completes_of_stalled {s : State} (h : s.grant = some 0) (k : Nat) : s.completes k = 0 := by
  simp [State.completes, h]

/-- The transport's part, said once: the events it completes go to the trace, the lines and the chain; the grant and the count of
the command in execution move by their number. -/
theorem State.transfer_eq (s : State) (evs : List Event) :
    s.transfer evs =
      { s with
        trace := s.trace ++ evs.take (s.completes evs.length)
        lines := (evs.take (s.completes evs.length)).foldl Lines.take s.lines
        chain := (evs.take (s.completes evs.length)).foldl (Chain.take s.params.n) s.chain
        grant := s.grant.map (fun g => g - s.completes evs.length)
        job := s.job.map (fun j => { j with done := j.done + s.completes evs.length }) } := by
  simp [State.transfer, State.emitAll_eq]

/-- A transport that has stalled changes nothing. -/
theorem State.transfer_stalled {s : State} (h : s.grant = some 0) (evs : List Event) : s.transfer evs = s := by
  rw [State.transfer_eq, State.completes_of_stalled h]
  cases hj : s.job with
  | none => cases s; simp_all
  | some j => cases s; simp_all

/-- A transport that completes every event. -/
theorem State.transfer_complete {s : State} (h : s.grant = none) (evs : List Event) :
    s.transfer evs =
      { s with
        trace := s.trace ++ evs
        lines := evs.foldl Lines.take s.lines
        chain := evs.foldl (Chain.take s.params.n) s.chain
        job := s.job.map (fun j => { j with done := j.done + evs.length }) } := by
  rw [State.transfer_eq, State.completes_of_grant_none h]
  simp [h]

/-! ## perform -/

/-- A command whose events the transport completes ends in the state `afterCommand` describes. -/
theorem State.perform_complete {s : State} (h : s.grant = none) (i : Instr) (evs : List Event) :
    s.perform i evs = s.afterCommand evs (sessionAfter i s.session) := by
  have hg : (s.beginCommand i).grant = none := by simpa using h
  rw [State.perform, State.transfer_complete hg]
  simp [State.settle, State.endCommand, State.clearTransient, State.beginCommand, State.afterCommand]

/-- What running a command can do, whatever the transport: some first part of its events is completed; either all of them, and the
command has ended, or not all, and BUSY stays 1. -/
theorem State.perform_cases (s : State) (i : Instr) (evs : List Event) :
    (∃ g, s.perform i evs = { s.afterCommand evs (sessionAfter i s.session) with grant := g }) ∨
    (∃ m g, m < evs.length ∧ s.perform i evs =
      { s with
        trace := s.trace ++ evs.take m
        lines := (evs.take m).foldl Lines.take s.lines
        chain := (evs.take m).foldl (Chain.take s.params.n) s.chain
        grant := g
        busy := true
        job := some { instr := i, done := m } }) := by
  have hle : (s.beginCommand i).completes evs.length ≤ evs.length := State.completes_le _ _
  rcases Nat.lt_or_ge ((s.beginCommand i).completes evs.length) evs.length with hlt | hge
  · refine .inr ⟨_, (s.beginCommand i).grant.map (fun g => g - (s.beginCommand i).completes evs.length), hlt, ?_⟩
    rw [State.perform, State.transfer_eq]
    simp [State.settle, State.beginCommand] at *
    intro hc
    omega
  · have he : (s.beginCommand i).completes evs.length = evs.length := le_antisymm hle hge
    refine .inl ⟨(s.beginCommand i).grant.map (fun g => g - evs.length), ?_⟩
    rw [State.perform, State.transfer_eq, he]
    simp [State.settle, State.endCommand, State.clearTransient, State.beginCommand, State.afterCommand]

/-- The same with the number of events completed and what is left of the transport's grant. -/
theorem State.perform_eq (s : State) (i : Instr) (evs : List Event) :
    s.perform i evs =
      if s.completes evs.length = evs.length then
        { s.afterCommand evs (sessionAfter i s.session) with grant := s.grant.map (fun g => g - s.completes evs.length) }
      else
        { s with
          trace := s.trace ++ evs.take (s.completes evs.length)
          lines := (evs.take (s.completes evs.length)).foldl Lines.take s.lines
          chain := (evs.take (s.completes evs.length)).foldl (Chain.take s.params.n) s.chain
          grant := s.grant.map (fun g => g - s.completes evs.length)
          busy := true
          job := some { instr := i, done := s.completes evs.length } } := by
  have hc : (s.beginCommand i).completes evs.length = s.completes evs.length := rfl
  have hle := s.completes_le evs.length
  rw [State.perform, State.transfer_eq, hc]
  generalize s.completes evs.length = m at *
  by_cases h : m = evs.length
  · subst h
    rw [if_pos rfl]
    simp [State.settle, State.beginCommand, State.endCommand, State.afterCommand, State.clearTransient]
  · rw [if_neg h]
    have hlt : ¬ evs.length ≤ m := by omega
    simp [State.settle, State.beginCommand, hlt]

/-! ## The checks and the fault -/

theorem State.whenOpen_opened {s : State} (h : s.session = .opened) (k : State) : s.whenOpen k = k := by
  simp [State.whenOpen, h]

theorem State.whenOpen_closed {s : State} (h : s.session = .closed) (k : State) : s.whenOpen k = s.raise .notOpen := by
  simp [State.whenOpen, h]

theorem State.whenPosition_inside {s : State} {p : Nat} (h : p < s.params.n) (k : State) : s.whenPosition p k = k := by
  simp [State.whenPosition, h]

theorem State.whenPosition_outside {s : State} {p : Nat} (h : ¬ p < s.params.n) (k : State) :
    s.whenPosition p k = s.raise .badPosition := by
  simp [State.whenPosition, h]

/-- A fault of a command with no transient state but its word. -/
theorem State.raise_eq_afterFault (s : State) (c : Cause) : s.raise c = s.afterFault c s.latched := rfl

theorem Config.Params.n_pos (p : Config.Params) : 0 < p.n := Nat.succ_pos _
theorem Config.Params.n_le (p : Config.Params) : p.n ≤ 256 := p.lastPos.isLt

end Sys2Proof.Machine
end

