-- ==== Sys2Proof/Laws/Chain.lean ====
section
/-! SUPPORT. The reference chain: what a pulse leaves in the chips' registers. -/

namespace Sys2Proof.Machine

/-! ## Keys -/

theorem chipKey_inj {k l : Nat} {r q : Byte} (h : chipKey k r = chipKey l q) : k = l ∧ r = q := by
  have h1 := r.isLt
  have h2 := q.isLt
  unfold chipKey at h
  exact ⟨by omega, BitVec.eq_of_toNat_eq (by omega)⟩

theorem cellAt_latchFrame (regs : List Host.Cell) (k l : Nat) (f : Byte × Byte) (q : Byte) :
    cellAt (latchFrame regs k f) (chipKey l q) =
      if l = k ∧ f.1 = q ∧ f.1 ≠ 0 then some f.2 else cellAt regs (chipKey l q) := by
  unfold latchFrame
  split
  · rename_i h; simp [h]
  · rename_i h
    by_cases hk : l = k ∧ f.1 = q
    · obtain ⟨rfl, rfl⟩ := hk
      simp only [cellAt_putCell_same, true_and, ne_eq, h, not_false_eq_true, if_true]
    · have hne : chipKey l q ≠ chipKey k f.1 := fun e => hk ⟨(chipKey_inj e).1, (chipKey_inj e).2.symm⟩
      rw [cellAt_putCell_other _ _ hne, if_neg (fun hh => hk ⟨hh.1, hh.2.1⟩)]

/-- After the latch, the chip at position `k + j` holds what the frame in slot `j` wrote, and every other entry is as before. -/
theorem cellAt_latchFrom (regs : List Host.Cell) (k : Nat) (fs : List (Byte × Byte)) (l : Nat) (q : Byte) :
    cellAt (latchFrom regs k fs) (chipKey l q) =
      match fs[l - k]? with
      | some f => if k ≤ l ∧ f.1 = q ∧ f.1 ≠ 0 then some f.2 else cellAt regs (chipKey l q)
      | none => cellAt regs (chipKey l q) := by
  induction fs generalizing regs k with
  | nil => simp [latchFrom]
  | cons f rest ih =>
    rw [latchFrom, ih, cellAt_latchFrame]
    rcases Nat.lt_trichotomy l k with hlt | heq | hgt
    · have h0 : l - k = 0 := by omega
      have h1 : l - (k + 1) = 0 := by omega
      rw [h0, h1]
      have hnk : ¬ k ≤ l := by omega
      have hnk1 : ¬ k + 1 ≤ l := by omega
      have hne : ¬ l = k := by omega
      cases rest with
      | nil => simp [hnk, hne]
      | cons g rest' => simp [hnk, hnk1, hne]
    · subst heq
      have h1 : l - (l + 1) = 0 := by omega
      rw [h1, Nat.sub_self]
      have hn : ¬ l + 1 ≤ l := by omega
      cases rest with
      | nil => simp
      | cons g rest' => simp [hn]
    · obtain ⟨d, rfl⟩ : ∃ d, l = k + 1 + d := ⟨l - (k + 1), by omega⟩
      have h1 : k + 1 + d - (k + 1) = d := by omega
      have h2 : k + 1 + d - k = d + 1 := by omega
      have hne : ¬ k + 1 + d = k := by omega
      rw [h1, h2]
      simp only [List.getElem?_cons_succ, hne, false_and, if_false]
      have ha : k ≤ k + 1 + d := by omega
      have hb : k + 1 ≤ k + 1 + d := by omega
      simp [ha, hb]

/-- The latch keeps the canonical form of the chain's cells. -/
theorem wf_latchFrom {n : Nat} {regs : List Host.Cell} {k : Nat} {fs : List (Byte × Byte)} (hk : k + fs.length ≤ n)
    (h : Memory.rising regs ∧ ∀ x ∈ regs, x.1 / 256 < n ∧ x.1 % 256 ≠ 0) :
    Memory.rising (latchFrom regs k fs) ∧ ∀ x ∈ latchFrom regs k fs, x.1 / 256 < n ∧ x.1 % 256 ≠ 0 := by
  induction fs generalizing regs k with
  | nil => exact h
  | cons f rest ih =>
    rw [latchFrom]
    have hlen : k + 1 + rest.length ≤ n := by simp at hk; omega
    refine ih hlen ?_
    unfold latchFrame
    split
    · exact h
    · rename_i hf
      refine ⟨rising_putCell h.1 _ _, fun x hx => ?_⟩
      rcases mem_putCell hx with rfl | hx
      · have h1 := f.1.isLt
        have h2 : f.1.toNat ≠ 0 := fun e => hf (BitVec.eq_of_toNat_eq (by simpa using e))
        simp only [chipKey]
        constructor <;> omega
      · exact h.2 x hx

/-! ## Pulses -/

/-- The transfers of frames, as bytes. -/
def frameBytes (fs : List (Byte × Byte)) : List Byte := fs.flatMap (fun f => [f.1, f.2])

theorem framesOf_frameBytes (fs : List (Byte × Byte)) : framesOf (frameBytes fs) = fs := by
  induction fs with
  | nil => rfl
  | cons f rest ih => simpa [frameBytes, framesOf] using ih

theorem length_frameBytes (fs : List (Byte × Byte)) : (frameBytes fs).length = 2 * fs.length := by
  induction fs with
  | nil => rfl
  | cons f rest ih => simp [frameBytes] at ih ⊢; omega

theorem chain_take_xfers (n : Nat) (bs fs : List Byte) (c : Chain) (h : c.pulse = .opened bs) :
    (fs.map Event.xfer).foldl (Chain.take n) c = { c with pulse := .opened (bs ++ fs) } := by
  induction fs generalizing bs c with
  | nil => cases c; simp_all
  | cons b rest ih =>
    simp only [List.map_cons, List.foldl_cons]
    rw [ih (bs ++ [b])]
    · simp [Chain.take, h]
    · simp [Chain.take, h]

theorem frames_as_xfers (fs : List (Byte × Byte)) :
    fs.flatMap (fun f => [Event.xfer f.1, Event.xfer f.2]) = (frameBytes fs).map Event.xfer := by
  induction fs with
  | nil => rfl
  | cons f rest ih => simpa [frameBytes] using ih

/-- A pulse of N frames leaves the chain with those frames latched, whatever it had received before. -/
theorem chain_after_pulse (n : Nat) (c : Chain) (fs : List (Byte × Byte)) (h : fs.length = n) :
    (pulseOf fs).foldl (Chain.take n) c = { c with pulse := .idle, regs := latchFrom c.regs 0 fs } := by
  rw [pulseOf, frames_as_xfers, List.cons_append, List.foldl_cons, List.foldl_append,
    chain_take_xfers n [] (frameBytes fs) (c.take n .selAssert) rfl]
  simp [Chain.take, Chain.latch, length_frameBytes, h, framesOf_frameBytes]

/-- A pulse leaves the select line de-asserted and the other lines as they were. -/
theorem lines_after_pulse (l : Lines) (fs : List (Byte × Byte)) :
    (pulseOf fs).foldl Lines.take l = { l with selLevel := true } := by
  have hx : ∀ (bs : List Byte) (m : Lines), (bs.map Event.xfer).foldl Lines.take m = m := by
    intro bs
    induction bs with
    | nil => intro m; rfl
    | cons b rest ih => intro m; simpa using ih m
  rw [pulseOf, frames_as_xfers, List.cons_append, List.foldl_cons, List.foldl_append, hx]
  rfl

/-! ## The two primitives as pulses of N frames -/

/-- The frames of `sendToPosition`. -/
def positionFrames (n p : Nat) (r v : Byte) : List (Byte × Byte) :=
  List.replicate p (0, 0) ++ [(r, v)] ++ List.replicate (n - p - 1) (0, 0)

theorem sendToPosition_eq_pulseOf (n p : Nat) (r v : Byte) : sendToPosition n p r v = pulseOf (positionFrames n p r v) := by
  simp [sendToPosition, pulseOf, positionFrames, noopFrames, frameEvents, List.flatMap_append, List.flatMap_replicate]

theorem sendToAll_eq_pulseOf (n : Nat) (r v : Byte) : sendToAll n r v = pulseOf (List.replicate n (r, v)) := by
  simp [sendToAll, pulseOf, frameEvents, List.flatMap_replicate]

theorem length_positionFrames {n p : Nat} (h : p < n) (r v : Byte) : (positionFrames n p r v).length = n := by
  simp [positionFrames]; omega

/-- The frame in a slot of `sendToPosition`: the real one in slot `p`, no-ops elsewhere. -/
theorem positionFrames_slot {n p : Nat} (h : p < n) (r v : Byte) {j : Nat} (hj : j < n) :
    (positionFrames n p r v)[j]? = some (if j = p then (r, v) else (0, 0)) := by
  unfold positionFrames
  rcases Nat.lt_trichotomy j p with hlt | heq | hgt
  · rw [List.append_assoc, List.getElem?_append_left (by simpa using hlt)]
    simp [hlt, Nat.ne_of_lt hlt]
  · subst heq
    rw [List.append_assoc, List.getElem?_append_right (by simp)]
    simp
  · rw [List.getElem?_append_right (by simp; omega)]
    have hne : ¬ j = p := by omega
    have hlt : j - (p + 1) < n - p - 1 := by omega
    simp [hne, hlt]

end Sys2Proof.Machine
end

