-- ==== Sys2Proof/Laws/Decode.lean ====
section
/-! SUPPORT. The fields of a composed word, and what decoding answers, said once. -/

namespace Sys2Proof

/-! ## Fields of a command word -/

section
variable (op : BitVec 4) (pos reg val : BitVec 8) (len ofs : BitVec 16)

theorem opField_commandWord : opField (commandWord op pos reg val len ofs) = op := by
  apply BitVec.eq_of_getLsbD_eq; intro i hi; interval_cases i <;> simp [opField, commandWord]

theorem rsvField_commandWord : rsvField (commandWord op pos reg val len ofs) = 0 := by
  apply BitVec.eq_of_getLsbD_eq; intro i hi; interval_cases i <;> simp [rsvField, commandWord]

theorem posField_commandWord : posField (commandWord op pos reg val len ofs) = pos := by
  apply BitVec.eq_of_getLsbD_eq; intro i hi; interval_cases i <;> simp [posField, commandWord]

theorem regField_commandWord : regField (commandWord op pos reg val len ofs) = reg := by
  apply BitVec.eq_of_getLsbD_eq; intro i hi; interval_cases i <;> simp [regField, commandWord]

theorem valField_commandWord : valField (commandWord op pos reg val len ofs) = val := by
  apply BitVec.eq_of_getLsbD_eq; intro i hi; interval_cases i <;> simp [valField, commandWord]

theorem lenField_commandWord : lenField (commandWord op pos reg val len ofs) = len := by
  apply BitVec.eq_of_getLsbD_eq; intro i hi; interval_cases i <;> simp [lenField, commandWord]

theorem ofsField_commandWord : ofsField (commandWord op pos reg val len ofs) = ofs := by
  apply BitVec.eq_of_getLsbD_eq; intro i hi; interval_cases i <;> simp [ofsField, commandWord]

end

/-! ## Fields of a frame word -/

theorem frameReg_frameWord (r v : Byte) : frameReg (frameWord r v) = r := by
  apply BitVec.eq_of_getLsbD_eq; intro i hi; interval_cases i <;> simp [frameReg, frameWord]

theorem frameVal_frameWord (r v : Byte) : frameVal (frameWord r v) = v := by
  apply BitVec.eq_of_getLsbD_eq; intro i hi; interval_cases i <;> simp [frameVal, frameWord]

theorem frameWord_fields (w : FrameWord) : frameWord (frameReg w) (frameVal w) = w := by
  apply BitVec.eq_of_getLsbD_eq; intro i hi; interval_cases i <;> simp [frameReg, frameVal, frameWord]

/-! ## Decoding -/

/-- The table's mask keeps OP and RSV of a command word. -/
theorem mask_eq_fields (w : CommandWord) :
    w &&& BitVec.ofNat 64 0xFF00000000000000 = (opField w).setWidth 64 <<< 60 ||| (rsvField w).setWidth 64 <<< 56 := by
  apply BitVec.eq_of_getLsbD_eq; intro i hi; interval_cases i <;> simp [opField, rsvField]

theorem opField_toNat (w : CommandWord) : (opField w).toNat = w.toNat / 2 ^ 60 := by
  have := w.isLt
  simp [opField, BitVec.extractLsb'_toNat, Nat.shiftRight_eq_div_pow]; omega

theorem rsvField_toNat (w : CommandWord) : (rsvField w).toNat = w.toNat / 2 ^ 56 % 16 := by
  simp [rsvField, BitVec.extractLsb'_toNat, Nat.shiftRight_eq_div_pow]

theorem posField_toNat (w : CommandWord) : (posField w).toNat = w.toNat / 2 ^ 48 % 256 := by
  simp [posField, BitVec.extractLsb'_toNat, Nat.shiftRight_eq_div_pow]

theorem regField_toNat (w : CommandWord) : (regField w).toNat = w.toNat / 2 ^ 40 % 256 := by
  simp [regField, BitVec.extractLsb'_toNat, Nat.shiftRight_eq_div_pow]

theorem valField_toNat (w : CommandWord) : (valField w).toNat = w.toNat / 2 ^ 32 % 256 := by
  simp [valField, BitVec.extractLsb'_toNat, Nat.shiftRight_eq_div_pow]

theorem lenField_toNat (w : CommandWord) : (lenField w).toNat = w.toNat / 2 ^ 16 % 65536 := by
  simp [lenField, BitVec.extractLsb'_toNat, Nat.shiftRight_eq_div_pow]

theorem ofsField_toNat (w : CommandWord) : (ofsField w).toNat = w.toNat % 65536 := by
  simp [ofsField, BitVec.extractLsb'_toNat]

/-- The number of an opcode. -/
def Opcode.number : Opcode → Nat
  | .opOpen => 1
  | .opClose => 2
  | .opSetIntensity => 3
  | .opRenderText => 4
  | .opRenderScroll => 5
  | .opSendPos => 6
  | .opSendAll => 7
  | .opRenderChar => 8

theorem opcodeOf_eq_some {x : BitVec 4} {op : Opcode} (h : opcodeOf x = some op) : x = BitVec.ofNat 4 op.number := by
  revert op; revert x; decide

theorem opcodeOf_number (op : Opcode) : opcodeOf (BitVec.ofNat 4 op.number) = some op := by
  cases op <;> rfl

theorem opcodeOf_eq_none_iff (x : BitVec 4) : opcodeOf x = none ↔ x.toNat = 0 ∨ 9 ≤ x.toNat := by
  revert x; decide

/-- When a command word decodes to an instruction. -/
theorem decodeCommand_eq_instr {w : CommandWord} {i : Instr} :
    decodeCommand w = .instr i ↔
      ∃ op, opcodeOf (opField w) = some op ∧ rsvField w = 0 ∧ i = assembleOperands op w := by
  unfold decodeCommand
  cases h : opcodeOf (opField w) with
  | none => simp
  | some op =>
    by_cases hr : rsvField w = 0#4
    · simp [hr, eq_comm]
    · simp [hr]

theorem decodeCommand_of_opcode {w : CommandWord} {op : Opcode} (h : opField w = BitVec.ofNat 4 op.number)
    (hr : rsvField w = 0) : decodeCommand w = .instr (assembleOperands op w) :=
  decodeCommand_eq_instr.2 ⟨op, by rw [h, opcodeOf_number], hr, rfl⟩

/-- When a command word is illegal. -/
theorem decodeCommand_illegalOpcode {w : CommandWord} :
    decodeCommand w = .illegal .illegalOpcode ↔ (opField w).toNat = 0 ∨ 9 ≤ (opField w).toNat := by
  rw [← opcodeOf_eq_none_iff]
  unfold decodeCommand
  cases h : opcodeOf (opField w) with
  | none => simp
  | some op => by_cases hr : rsvField w = 0#4 <;> simp [hr]

theorem decodeCommand_reservedBits {w : CommandWord} :
    decodeCommand w = .illegal .reservedBits ↔ ¬ ((opField w).toNat = 0 ∨ 9 ≤ (opField w).toNat) ∧ rsvField w ≠ 0 := by
  rw [← opcodeOf_eq_none_iff]
  unfold decodeCommand
  cases h : opcodeOf (opField w) with
  | none => simp
  | some op => by_cases hr : rsvField w = 0#4 <;> simp [hr]

/-- The instructions a command word decodes to are commands. -/
theorem isCommand_assembleOperands (op : Opcode) (w : CommandWord) : (assembleOperands op w).isCommand = true := by
  cases op <;> rfl

/-- The instructions a frame word decodes to are frames, with that one word. -/
theorem decodeFrame_eq_some {w : FrameWord} {i : Instr} (h : decodeFrame w = some i) :
    i.isCommand = false ∧ i.wellFormed = true ∧ encode i = .frame w := by
  have hw := frameWord_fields w
  have hr : frameReg w = BitVec.ofNat 8 (frameReg w).toNat := by simp
  simp only [decodeFrame] at h
  split at h <;> (try simp at h) <;> subst h <;> rename_i hn <;> rw [hn] at hr <;> rw [hr] at hw <;>
    exact ⟨rfl, rfl, congrArg Words.frame hw⟩

end Sys2Proof
end

