-- ==== Sys2Proof/Laws/PerInstr.lean ====
section
/-! SUPPORT. Family EncodingRow: the word of an instruction matches its row of spec/opcode_table.json, one lemma per constructor. -/

namespace Sys2Proof.Laws

/-- The mask of the command rows keeps OP and RSV, and RSV is 0. -/
theorem mask_commandWord (op : BitVec 4) (pos reg val : BitVec 8) (len ofs : BitVec 16) :
    commandWord op pos reg val len ofs &&& BitVec.ofNat 64 0xFF00000000000000 = commandWord op 0 0 0 0 0 := by
  apply BitVec.eq_of_getLsbD_eq
  intro i hi
  interval_cases i <;> simp [commandWord]

/-- The mask of the frame rows keeps the register byte. -/
theorem mask_frameWord (r v : Byte) : frameWord r v &&& BitVec.ofNat 16 0xFF00 = frameWord r 0 := by
  apply BitVec.eq_of_getLsbD_eq
  intro i hi
  interval_cases i <;> simp [frameWord]

/-- The word of `i` has the width and the fixed bits of the row of `i`. -/
def EncodingRow.Statement (i : Instr) : Prop := i.row.covers (encode i) = true

theorem covers_command {i : Instr} {op : BitVec 4} {pos reg val : BitVec 8} {len ofs : BitVec 16} {p : Nat}
    (he : encode i = .command (commandWord op pos reg val len ofs)) (hr : i.row = ⟨64, p, 0xFF00000000000000⟩)
    (hp : commandWord op 0 0 0 0 0 = BitVec.ofNat 64 p) : EncodingRow.Statement i := by
  simp only [EncodingRow.Statement, he, hr, TableRow.covers, mask_commandWord, hp, beq_self_eq_true, Bool.and_self]

theorem covers_frame {i : Instr} {r v : Byte} {p : Nat} (he : encode i = .frame (frameWord r v)) (hr : i.row = ⟨16, p, 0xFF00⟩)
    (hp : frameWord r 0 = BitVec.ofNat 16 p) : EncodingRow.Statement i := by
  simp only [EncodingRow.Statement, he, hr, TableRow.covers, mask_frameWord, hp, beq_self_eq_true, Bool.and_self]

theorem EncodingRow.openSession : Statement .openSession := covers_command rfl rfl (by decide)
theorem EncodingRow.closeSession : Statement .closeSession := covers_command rfl rfl (by decide)
theorem EncodingRow.setIntensity (level : Byte) : Statement (.setIntensity level) := covers_command rfl rfl (by decide)
theorem EncodingRow.renderText (len : Nat) : Statement (.renderText len) := covers_command rfl rfl (by decide)
theorem EncodingRow.renderScroll (len : Nat) (ofs : Int) : Statement (.renderScroll len ofs) :=
  covers_command rfl rfl (by decide)
theorem EncodingRow.sendPos (pos : Nat) (reg val : Byte) : Statement (.sendPos pos reg val) :=
  covers_command rfl rfl (by decide)
theorem EncodingRow.sendAll (reg val : Byte) : Statement (.sendAll reg val) := covers_command rfl rfl (by decide)
theorem EncodingRow.renderChar (pos : Nat) (code : Byte) : Statement (.renderChar pos code) :=
  covers_command rfl rfl (by decide)
theorem EncodingRow.frameNoop (v : Byte) : Statement (.frameNoop v) := covers_frame rfl rfl (by decide)
theorem EncodingRow.frameDigit1 (v : Byte) : Statement (.frameDigit1 v) := covers_frame rfl rfl (by decide)
theorem EncodingRow.frameDigit2 (v : Byte) : Statement (.frameDigit2 v) := covers_frame rfl rfl (by decide)
theorem EncodingRow.frameDigit3 (v : Byte) : Statement (.frameDigit3 v) := covers_frame rfl rfl (by decide)
theorem EncodingRow.frameDigit4 (v : Byte) : Statement (.frameDigit4 v) := covers_frame rfl rfl (by decide)
theorem EncodingRow.frameDigit5 (v : Byte) : Statement (.frameDigit5 v) := covers_frame rfl rfl (by decide)
theorem EncodingRow.frameDigit6 (v : Byte) : Statement (.frameDigit6 v) := covers_frame rfl rfl (by decide)
theorem EncodingRow.frameDigit7 (v : Byte) : Statement (.frameDigit7 v) := covers_frame rfl rfl (by decide)
theorem EncodingRow.frameDigit8 (v : Byte) : Statement (.frameDigit8 v) := covers_frame rfl rfl (by decide)
theorem EncodingRow.frameDecodeMode (v : Byte) : Statement (.frameDecodeMode v) := covers_frame rfl rfl (by decide)
theorem EncodingRow.frameIntensity (v : Byte) : Statement (.frameIntensity v) := covers_frame rfl rfl (by decide)
theorem EncodingRow.frameScanLimit (v : Byte) : Statement (.frameScanLimit v) := covers_frame rfl rfl (by decide)
theorem EncodingRow.frameShutdown (v : Byte) : Statement (.frameShutdown v) := covers_frame rfl rfl (by decide)
theorem EncodingRow.frameDisplayTest (v : Byte) : Statement (.frameDisplayTest v) := covers_frame rfl rfl (by decide)

/-- The family's statement of every instruction. -/
theorem EncodingRow.of_instr (i : Instr) : Statement i := by
  cases i with
  | openSession => exact EncodingRow.openSession
  | closeSession => exact EncodingRow.closeSession
  | setIntensity l => exact EncodingRow.setIntensity l
  | renderText l => exact EncodingRow.renderText l
  | renderScroll l o => exact EncodingRow.renderScroll l o
  | sendPos p r v => exact EncodingRow.sendPos p r v
  | sendAll r v => exact EncodingRow.sendAll r v
  | renderChar p c => exact EncodingRow.renderChar p c
  | frameNoop v => exact EncodingRow.frameNoop v
  | frameDigit1 v => exact EncodingRow.frameDigit1 v
  | frameDigit2 v => exact EncodingRow.frameDigit2 v
  | frameDigit3 v => exact EncodingRow.frameDigit3 v
  | frameDigit4 v => exact EncodingRow.frameDigit4 v
  | frameDigit5 v => exact EncodingRow.frameDigit5 v
  | frameDigit6 v => exact EncodingRow.frameDigit6 v
  | frameDigit7 v => exact EncodingRow.frameDigit7 v
  | frameDigit8 v => exact EncodingRow.frameDigit8 v
  | frameDecodeMode v => exact EncodingRow.frameDecodeMode v
  | frameIntensity v => exact EncodingRow.frameIntensity v
  | frameScanLimit v => exact EncodingRow.frameScanLimit v
  | frameShutdown v => exact EncodingRow.frameShutdown v
  | frameDisplayTest v => exact EncodingRow.frameDisplayTest v

end Sys2Proof.Laws
end

