-- ==== Sys2Proof/Laws/Pulses.lean ====
section
/-! SUPPORT. The pulse structure of lists of events. -/

namespace Sys2Proof.Machine

theorem scanPulses_append (n : Nat) (p : Phase) (as bs : List Event) :
    scanPulses n p (as ++ bs) = (scanPulses n p as).bind (fun q => scanPulses n q bs) := by
  induction as generalizing p with
  | nil => simp [scanPulses]
  | cons e rest ih =>
    simp only [List.cons_append, scanPulses]
    cases p.next n e with
    | none => rfl
    | some q => exact ih q

theorem scanPulses_xfers (n c : Nat) (bs : List Byte) :
    scanPulses n (.inside c) (bs.map Event.xfer) = some (.inside (c + bs.length)) := by
  induction bs generalizing c with
  | nil => simp [scanPulses]
  | cons b rest ih => simp [scanPulses, Phase.next, ih]; omega

/-- A pulse of N frames is well formed. -/
theorem scanPulses_pulseOf (n : Nat) (fs : List (Byte × Byte)) (h : fs.length = n) :
    scanPulses n .outside (pulseOf fs) = some .outside := by
  rw [pulseOf, frames_as_xfers, List.cons_append]
  simp only [scanPulses, Phase.next]
  rw [scanPulses_append, scanPulses_xfers]
  simp [scanPulses, Phase.next, length_frameBytes, h]

/-- Well-formed lists one after another are well formed. -/
theorem scanPulses_flatten (n : Nat) (ls : List (List Event)) (h : ∀ l ∈ ls, scanPulses n .outside l = some .outside) :
    scanPulses n .outside ls.flatten = some .outside := by
  induction ls with
  | nil => rfl
  | cons l rest ih =>
    rw [List.flatten_cons, scanPulses_append, h l List.mem_cons_self]
    exact ih (fun m hm => h m (List.mem_cons_of_mem _ hm))

theorem scanPulses_flatMap {α : Type} (n : Nat) (xs : List α) (f : α → List Event)
    (h : ∀ x ∈ xs, scanPulses n .outside (f x) = some .outside) : scanPulses n .outside (xs.flatMap f) = some .outside := by
  rw [List.flatMap_def]
  refine scanPulses_flatten n _ (fun l hl => ?_)
  obtain ⟨x, hx, rfl⟩ := List.mem_map.1 hl
  exact h x hx

theorem scanPulses_sendToPosition {n p : Nat} (h : p < n) (r v : Byte) :
    scanPulses n .outside (sendToPosition n p r v) = some .outside := by
  rw [sendToPosition_eq_pulseOf]
  exact scanPulses_pulseOf n _ (length_positionFrames h r v)

theorem scanPulses_sendToAll (n : Nat) (r v : Byte) : scanPulses n .outside (sendToAll n r v) = some .outside := by
  rw [sendToAll_eq_pulseOf]
  exact scanPulses_pulseOf n _ (by simp)

/-! ## What well-formed events do to the chain and the lines -/

/-- The chain and the lines agree with where the sequencer stands, and the chain is in canonical form and has refused no pulse. -/
structure PhaseInv (n : Nat) (p : Phase) (c : Chain) (l : Lines) : Prop where
  agrees : p.agrees c.pulse
  high : p = .outside → l.selDriven = true → l.selLevel = true
  low : p ≠ .outside → l.selLevel = false
  wf : Chain.wf n c
  notRefused : c.refused = false

theorem length_framesOf (bs : List Byte) : 2 * (framesOf bs).length ≤ bs.length := by
  induction bs using framesOf.induct with
  | case1 r v rest ih => simp [framesOf]; omega
  | case2 => simp [framesOf]
  | case3 => simp [framesOf]

theorem PhaseInv.event {n : Nat} {p q : Phase} {c : Chain} {l : Lines} {e : Event} (h : PhaseInv n p c l)
    (hn : p.next n e = some q) : PhaseInv n q (c.take n e) (l.take e) := by
  obtain ⟨ag, hi, lo, wf, nr⟩ := h
  cases p with
  | outside =>
    cases e <;> simp [Phase.next] at hn <;> subst hn
    · exact ⟨ag, fun _ _ => rfl, fun h => absurd rfl h, wf, nr⟩
    · exact ⟨ag, hi, fun h => absurd rfl h, wf, nr⟩
    · exact ⟨.inr ⟨[], rfl, rfl⟩, fun h => by simp at h, fun _ => rfl, wf, nr⟩
    · exact ⟨ag, hi, fun h => absurd rfl h, wf, nr⟩
  | inside k =>
    have lf := lo (by simp)
    cases e <;> simp [Phase.next] at hn
    · rename_i b
      subst hn
      rcases ag with ag | ⟨bytes, ag, hk⟩
      · have hc : c.take n (.xfer b) = c := by simp [Chain.take, ag]
        rw [hc]
        exact ⟨.inl ag, fun h => by simp at h, fun _ => lf, wf, nr⟩
      · have hc : c.take n (.xfer b) = { c with pulse := .opened (bytes ++ [b]) } := by simp [Chain.take, ag]
        rw [hc]
        exact ⟨.inr ⟨_, rfl, by simp [hk]⟩, fun h => by simp at h, fun _ => lf, wf, nr⟩
    · obtain ⟨hk, rfl⟩ := hn
      rcases ag with ag | ⟨bytes, ag, hl⟩
      · have hc : c.take n .selDeassert = { c with pulse := .idle, regs := [] } := by
          simp [Chain.take, Chain.latch, ag]
        rw [hc]
        exact ⟨rfl, fun _ _ => rfl, fun h => absurd rfl h, ⟨List.Pairwise.nil, by simp⟩, nr⟩
      · have hb : bytes.length = 2 * n := by rw [hl, hk]
        have hc : c.take n .selDeassert = { c with pulse := .idle, regs := latchFrom c.regs 0 (framesOf bytes) } := by
          simp [Chain.take, Chain.latch, ag, hb]
        have hf := length_framesOf bytes
        rw [hc]
        exact ⟨rfl, fun _ _ => rfl, fun h => absurd rfl h, wf_latchFrom (by omega) wf, nr⟩

/-- Events that keep the pulse structure keep the agreement. -/
theorem PhaseInv.events {n : Nat} {p q : Phase} {c : Chain} {l : Lines} (evs : List Event) (h : PhaseInv n p c l)
    (hn : scanPulses n p evs = some q) : PhaseInv n q (evs.foldl (Chain.take n) c) (evs.foldl Lines.take l) := by
  induction evs generalizing p c l with
  | nil => simp [scanPulses] at hn; subst hn; exact h
  | cons e rest ih =>
    rw [scanPulses] at hn
    split at hn
    · rename_i r hr; exact ih (h.event hr) hn
    · simp at hn

end Sys2Proof.Machine
end

