-- ==== Sys2Proof/Laws/Rotator.lean ====
section
/-! SUPPORT. The rotator bit by bit. -/

namespace Sys2Proof.Machine

theorem range8 : List.range 8 = [0, 1, 2, 3, 4, 5, 6, 7] := by decide

theorem getLsbD_bitAt (b : Bool) (place k : Nat) (hk : k < 8) : (bitAt b place).getLsbD k = (b && decide (k = place)) := by
  cases b
  · simp [bitAt]
  · simp only [bitAt, BitVec.ofBool_true, BitVec.getLsbD_shiftLeft, BitVec.getLsbD_setWidth, hk, decide_true, Bool.true_and]
    by_cases h : k < place
    · have hne : k ≠ place := by omega
      simp [h, hne]
    · by_cases he : k = place
      · subst he; simp
      · have h1 : k - place ≠ 0 := by omega
        simp [h, he, h1]

/-- Bit `k` of an output byte of the rotator is bit `col` of glyph byte `7 - k`. -/
theorem getLsbD_rotByte (g : Glyph) (col k : Nat) (hk : k < 8) :
    (rotByte g col).getLsbD k = (glyphByte g (7 - k)).getLsbD col := by
  simp only [rotByte, range8, List.foldl_cons, List.foldl_nil, BitVec.getLsbD_or, getLsbD_bitAt _ _ k hk]
  interval_cases k <;> simp

/-- Bit `k` of byte `i` of the inverse is bit `7 - i` of byte `k`. -/
theorem getLsbD_unrotByte (c : Glyph) (i k : Nat) (hk : k < 8) :
    (unrotByte c i).getLsbD k = (glyphByte c k).getLsbD (7 - i) := by
  simp only [unrotByte, range8, List.foldl_cons, List.foldl_nil, BitVec.getLsbD_or, getLsbD_bitAt _ _ k hk]
  interval_cases k <;> simp

theorem getLsbD_bitrev8 (b : Byte) (k : Nat) (hk : k < 8) : (bitrev8 b).getLsbD k = b.getLsbD (7 - k) := by
  simp only [bitrev8, range8, List.foldl_cons, List.foldl_nil, BitVec.getLsbD_or, getLsbD_bitAt _ _ k hk]
  interval_cases k <;> simp

theorem length_rot (g : Glyph) : (rot g).length = 8 := by simp [rot]

theorem length_unrot (g : Glyph) : (unrot g).length = 8 := by simp [unrot]

theorem glyphByte_rot (g : Glyph) {col : Nat} (h : col < 8) : glyphByte (rot g) col = rotByte g col := by
  simp [glyphByte, rot, h]

theorem glyphByte_unrot (g : Glyph) {i : Nat} (h : i < 8) : glyphByte (unrot g) i = unrotByte g i := by
  simp [glyphByte, unrot, h]

/-- Two glyphs of 8 bytes with the same bytes are equal. -/
theorem glyph_ext {g h : Glyph} (hg : g.length = 8) (hh : h.length = 8) (e : ∀ i < 8, glyphByte g i = glyphByte h i) :
    g = h := by
  apply List.ext_getElem (by rw [hg, hh])
  intro i h1 h2
  have := e i (by omega)
  simpa [glyphByte, h1, h2] using this

end Sys2Proof.Machine
end

