-- ==== Sys2Proof/Laws/Shape.lean ====
section
/-! SUPPORT. The shape of a list of events: which events it has, whatever the bytes transferred. The shape of an instruction's events
depends on the parameters alone. -/

namespace Sys2Proof.Machine

theorem shape_append (as bs : List Event) : shape (as ++ bs) = shape as ++ shape bs := by simp [shape]

theorem shape_take (evs : List Event) (m : Nat) : shape (evs.take m) = (shape evs).take m := by simp [shape]

theorem length_shape (evs : List Event) : (shape evs).length = evs.length := by simp [shape]

theorem shape_flatMap {α : Type} (xs : List α) (f g : α → List Event) (h : ∀ x ∈ xs, shape (f x) = shape (g x)) :
    shape (xs.flatMap f) = shape (xs.flatMap g) := by
  induction xs with
  | nil => rfl
  | cons x rest ih =>
    simp only [List.flatMap_cons, shape_append, h x List.mem_cons_self, ih (fun y hy => h y (List.mem_cons_of_mem _ hy))]

theorem shape_renderGlyph (n p : Nat) (g h : Glyph) : shape (renderGlyph n p g) = shape (renderGlyph n p h) :=
  shape_flatMap _ _ _ (fun _ _ => by simp [shape, sendToPosition, frameEvents, Event.blank])

/-- The memories show only in the bytes transferred. -/
theorem shape_instrEvents (i : Instr) {s t : State} (hp : t.params = s.params) :
    shape (instrEvents i t) = shape (instrEvents i s) := by
  have h : ∀ len, shape (renderTextEvents len t) = shape (renderTextEvents len s) := by
    intro len
    unfold renderTextEvents
    rw [hp]
    exact shape_flatMap _ _ _ (fun _ _ => shape_renderGlyph _ _ _ _)
  cases i <;> simp only [instrEvents, openEvents, closeEvents, setIntensityEvents, sendPosEvents, sendAllEvents,
    renderCharEvents, hp, shape_append, h]
  · unfold renderScrollEvents
    rw [hp]
    exact shape_flatMap _ _ _ (fun _ _ => shape_renderGlyph _ _ _ _)
  · exact shape_renderGlyph _ _ _ _

/-- The lines do not depend on the bytes. -/
theorem lines_shape (l : Lines) (evs : List Event) : (shape evs).foldl Lines.take l = evs.foldl Lines.take l := by
  induction evs generalizing l with
  | nil => rfl
  | cons e rest ih =>
    have hb : l.take e.blank = l.take e := by cases e <;> rfl
    simp only [shape, List.map_cons, List.foldl_cons, hb]
    exact ih _

/-- The pulse structure does not depend on the bytes. -/
theorem scanPulses_shape (n : Nat) (p : Phase) (evs : List Event) : scanPulses n p (shape evs) = scanPulses n p evs := by
  induction evs generalizing p with
  | nil => rfl
  | cons e rest ih =>
    have hb : p.next n e.blank = p.next n e := by cases p <;> cases e <;> rfl
    simp only [shape, List.map_cons, scanPulses, hb]
    split
    · exact ih _
    · rfl

/-- Two pulses of one kind, and of one length where they are open. -/
inductive Pulse.Alike : Pulse → Pulse → Prop where
  | idle : Pulse.Alike .idle .idle
  | opened (as bs : List Byte) (h : as.length = bs.length) : Pulse.Alike (.opened as) (.opened bs)
  | spoiled : Pulse.Alike .spoiled .spoiled

theorem Pulse.Alike.refl (p : Pulse) : Pulse.Alike p p := by
  cases p with
  | idle => exact .idle
  | opened as => exact .opened as as rfl
  | spoiled => exact .spoiled

theorem chain_take_alike (n : Nat) {c d : Chain} (hp : Pulse.Alike c.pulse d.pulse) (hr : c.refused = d.refused) {e f : Event}
    (he : e.blank = f.blank) :
    Pulse.Alike (c.take n e).pulse (d.take n f).pulse ∧ (c.take n e).refused = (d.take n f).refused := by
  obtain ⟨p, regs, ref⟩ := c
  obtain ⟨q, regs', ref'⟩ := d
  simp only at hp hr
  subst hr
  cases e <;> cases f <;> simp only [Event.blank, reduceCtorEq] at he <;> cases hp with
  | idle => exact ⟨by constructor <;> rfl, rfl⟩
  | spoiled => exact ⟨by constructor <;> rfl, rfl⟩
  | opened as bs h =>
    simp only [Chain.take, Chain.latch, h]
    first
    | exact ⟨.opened _ _ h, trivial⟩
    | exact ⟨.opened _ _ rfl, trivial⟩
    | exact ⟨.opened _ _ (by simp [h]), trivial⟩
    | (split <;> exact ⟨.idle, rfl⟩)

/-- Whether a pulse is refused does not depend on the bytes. -/
theorem refused_shape (n : Nat) {c d : Chain} (hp : Pulse.Alike c.pulse d.pulse) (hr : c.refused = d.refused)
    {as bs : List Event} (h : shape as = shape bs) :
    (as.foldl (Chain.take n) c).refused = (bs.foldl (Chain.take n) d).refused := by
  induction as generalizing bs c d with
  | nil =>
    cases bs with
    | nil => exact hr
    | cons b bs => simp [shape] at h
  | cons a as ih =>
    cases bs with
    | nil => simp [shape] at h
    | cons b bs =>
      simp only [shape, List.map_cons, List.cons.injEq] at h
      obtain ⟨h1, h2⟩ := chain_take_alike n hp hr h.1
      exact ih h1 h2 h.2

end Sys2Proof.Machine
end

