-- ==== Sys2Proof/Laws/Step.lean ====
section
/-! SUPPORT. What an instruction and a step can do, said once: every later proof takes these cases and unfolds neither. -/

namespace Sys2Proof.Machine

/-! ## Instructions -/

/-- What a command can do: take one of its two faults, or run. -/
inductive CommandCase (i : Instr) (s t : State) : Prop where
  | notOpen (hi : i ≠ .openSession) (hs : s.session = .closed) (ht : t = s.afterFault .notOpen s.latched)
  | badPosition (hs : s.session = .opened) (hp : ¬ positionInChain s.params.n i)
      (ht : t = s.afterFault .badPosition s.latched)
  | runs (hs : i = .openSession ∨ s.session = .opened) (hp : positionInChain s.params.n i)
      (ht : t = s.perform i (instrEvents i s))

theorem exec_command_cases {i : Instr} {s t : State} (hi : i.isCommand = true) (h : exec i s = .next t) :
    CommandCase i s t := by
  cases hs : s.session with
  | closed =>
    cases i <;> simp only [Instr.isCommand, Bool.false_eq_true] at hi <;>
      simp only [exec, execOpen, execClose, execSetIntensity, execRenderText, execRenderScroll, execSendPos, execSendAll,
        execRenderChar, State.whenOpen_closed hs, Host.Outcome.next.injEq] at h <;> subst h
    · exact .runs (.inl rfl) trivial rfl
    all_goals exact .notOpen (by simp) hs rfl
  | opened =>
    cases i <;> simp only [Instr.isCommand, Bool.false_eq_true] at hi <;>
      simp only [exec, execOpen, execClose, execSetIntensity, execRenderText, execRenderScroll, execSendPos, execSendAll,
        execRenderChar, State.whenOpen_opened hs, Host.Outcome.next.injEq] at h
    case sendPos p r v =>
      by_cases hp : p < s.params.n
      · rw [State.whenPosition_inside hp] at h; exact .runs (.inr hs) hp h.symm
      · rw [State.whenPosition_outside hp] at h; exact .badPosition hs hp h.symm
    case renderChar p c =>
      by_cases hp : p < s.params.n
      · rw [State.whenPosition_inside hp] at h; exact .runs (.inr hs) hp h.symm
      · rw [State.whenPosition_outside hp] at h; exact .badPosition hs hp h.symm
    all_goals exact .runs (.inr hs) trivial h.symm

/-- A command that passes its checks runs. -/
theorem exec_runs {i : Instr} {s : State} (hi : i.isCommand = true) (hs : i = .openSession ∨ s.session = .opened)
    (hp : positionInChain s.params.n i) : exec i s = .next (s.perform i (instrEvents i s)) := by
  cases hi' : exec i s with
  | next t =>
    cases exec_command_cases hi hi' with
    | notOpen h1 h2 _ => rcases hs with hs | hs <;> simp_all
    | badPosition _ h2 _ => exact absurd hp h2
    | runs _ _ ht => rw [ht]
  | fault r => cases r
  | refused r => cases i <;> simp [exec, execOpen, execClose, execSetIntensity, execRenderText, execRenderScroll, execSendPos,
      execSendAll, execRenderChar, Instr.isCommand] at hi hi'

/-- The events of an output frame: two transfers. -/
theorem exec_frame {i : Instr} (hi : i.isCommand = false) :
    ∃ r v : Byte, (∀ s, instrEvents i s = [.xfer r, .xfer v]) ∧ ∀ s, exec i s = .next (s.transfer [.xfer r, .xfer v]) := by
  cases i <;> simp only [Instr.isCommand, Bool.true_eq_false] at hi <;> exact ⟨_, _, fun _ => rfl, fun _ => rfl⟩

/-- The meaning of a decoded frame word: its two bytes are transferred. -/
theorem exec_decodeFrame {w : FrameWord} {i : Instr} (h : decodeFrame w = some i) (s : State) :
    exec i s = .next (s.transfer [.xfer (frameReg w), .xfer (frameVal w)]) := by
  have hr : frameReg w = BitVec.ofNat 8 (frameReg w).toNat := by simp
  simp only [decodeFrame] at h
  split at h <;> (try simp at h) <;> subst h <;> rename_i hn <;> rw [hn] at hr <;> rw [hr] <;> rfl

/-- The events of an instruction depend on the parameters, the memories and the races, and on nothing else. -/
theorem instrEvents_congr (i : Instr) {s t : State} (hp : t.params = s.params) (hf : t.font = s.font) (ht : t.text = s.text)
    (hrf : t.racedFont = s.racedFont) (hrt : t.racedText = s.racedText) (hc : t.raceCount = s.raceCount) :
    instrEvents i t = instrEvents i s := by
  have hfb : t.fontByte = s.fontByte := by funext tag a; simp [State.fontByte, hf, hrf, hc]
  have htb : t.textByte = s.textByte := by funext tag a; simp [State.textByte, ht, hrt, hc]
  have hg : t.glyph = s.glyph := by funext tag ch; simp [State.glyph, hfb]
  have hch : t.char = s.char := by funext tag k; simp [State.char, htb]
  have htg : textGlyph t = textGlyph s := by funext len k; simp [textGlyph, hg, hch]
  have hcg : charGlyph t = charGlyph s := by funext len tag c; simp [charGlyph, hg, hch]
  have hw : window t = window s := by funext len o k; simp [window, scratch, hcg]
  cases i <;> simp [instrEvents, openEvents, closeEvents, setIntensityEvents, renderTextEvents, renderScrollEvents,
    sendPosEvents, sendAllEvents, renderCharEvents, hp, htg, hw, hg]

/-! ## The sequencer's items -/

/-- The events of an item. -/
def Item.events : Item → List Event
  | .frame w => [.xfer (frameReg w), .xfer (frameVal w)]
  | .event e => [e]

/-- The next item is the next events of the command. -/
theorem nextItem_eq_some {evs : List Event} {done : Nat} {it : Item} (h : nextItem evs done = some it) :
    ∃ rest, evs.drop done = it.events ++ rest := by
  unfold nextItem at h
  split at h
  · simp at h
  · rename_i r v rest hd
    split at h <;> simp only [Option.some.injEq] at h <;> subst h
    · exact ⟨rest, by simp [Item.events, frameReg_frameWord, frameVal_frameWord, hd]⟩
    · exact ⟨_, by simp [Item.events, hd]; rfl⟩
  · rename_i e rest _ hd
    simp only [Option.some.injEq] at h
    subst h
    exact ⟨_, by simp [Item.events, hd]; rfl⟩

/-- There is no next item exactly at the end of the events. -/
theorem nextItem_eq_none {evs : List Event} {done : Nat} (h : nextItem evs done = none) : evs.length ≤ done := by
  unfold nextItem at h
  split at h
  · rename_i hd; simpa using hd
  · split at h <;> simp at h
  · simp at h

/-! ## Steps -/

/-- What the block's turn can do, in the state `s`. -/
inductive BlockCase (s t : State) : Prop where
  /-- It waits. -/
  | waits (ht : t = s) (hw : s.rst = true ∨ (s.job = none ∧ (s.cmdReady = false ∨ s.port = none)))
  /-- It accepts an illegal word. -/
  | illegal (w : CommandWord) (c : Illegal) (hr : s.rst = false) (hj : s.job = none)
      (hc : s.cmdReady = true) (hp : s.port = some w) (hd : decodeCommand w = .illegal c)
      (ht : t = ({ s with port := none } : State).afterFault (causeOf c) w)
  /-- It accepts a command. -/
  | accepts (w : CommandWord) (i : Instr) (hr : s.rst = false) (hj : s.job = none)
      (hc : s.cmdReady = true) (hp : s.port = some w) (hd : decodeCommand w = .instr i)
      (he : exec i { s with port := none, busy := true, latched := w } = .next t)
  /-- It gives the transport the next event of the command in execution. -/
  | event (j : Job) (e : Event) (rest : List Event) (hr : s.rst = false) (hj : s.job = some j)
      (hd : (instrEvents j.instr s).drop j.done = e :: rest)
      (ht : t = (s.transfer [e]).settle (instrEvents j.instr s).length)
  /-- It gives the transport the next frame of the command in execution. -/
  | frame (j : Job) (r v : Byte) (rest : List Event) (hr : s.rst = false) (hj : s.job = some j)
      (hd : (instrEvents j.instr s).drop j.done = .xfer r :: .xfer v :: rest) (ht : t = s.transfer [.xfer r, .xfer v])
  /-- The command in execution has no event left. -/
  | ends (j : Job) (hr : s.rst = false) (hj : s.job = some j) (hl : (instrEvents j.instr s).length ≤ j.done)
      (ht : t = s.settle (instrEvents j.instr s).length)

theorem blockTurn_cases {s t : State} (h : blockTurn s = .next t) : BlockCase s t := by
  have h' := h
  unfold blockTurn at h
  cases hr : s.rst with
  | true => rw [hr] at h; simp at h; exact .waits h.symm (.inl hr)
  | false =>
    rw [hr] at h
    simp only [Bool.false_eq_true, if_false] at h
    cases hj : s.job with
    | some j =>
      rw [hj] at h
      simp only [continueJob] at h
      cases hn : nextItem (instrEvents j.instr s) j.done with
      | none =>
        rw [hn] at h
        simp only [Host.Outcome.next.injEq] at h
        exact .ends j hr hj (nextItem_eq_none hn) h.symm
      | some it =>
        obtain ⟨rest, hd⟩ := nextItem_eq_some hn
        rw [hn] at h
        cases it with
        | event e =>
          simp only [Host.Outcome.next.injEq] at h
          exact .event j e rest hr hj (by simpa [Item.events] using hd) h.symm
        | frame w =>
          refine .frame j (frameReg w) (frameVal w) rest hr hj (by simpa [Item.events] using hd) ?_
          simp only at h
          split at h
          · rename_i i hi; rw [exec_decodeFrame hi] at h; simpa using h.symm
          · simpa [State.sendFrame, frameEvents] using h.symm
    | none =>
      rw [hj] at h
      simp only at h
      cases hc : s.cmdReady with
      | false => rw [hc] at h; simp at h; exact .waits h.symm (.inr ⟨hj, .inl hc⟩)
      | true =>
        rw [hc] at h
        simp only [if_true] at h
        cases hp : s.port with
        | none => rw [hp] at h; simp at h; exact .waits h.symm (.inr ⟨hj, .inr hp⟩)
        | some w =>
          have he : blockTurn s = executeWord w { s with port := none } := by simp [blockTurn, hr, hj, hc, hp]
          rw [he] at h'
          unfold executeWord at h'
          cases hd : decodeCommand w with
          | illegal c =>
            simp only [hd, Host.Outcome.next.injEq] at h'
            exact .illegal w c hr hj hc hp hd h'.symm
          | instr i =>
            simp only [hd] at h'
            exact .accepts w i hr hj hc hp hd h'

/-- The state with its first turn taken off the schedule. -/
def State.popped (s : State) : State := { s with sched := s.sched.tail }

/-- What a step can do. -/
inductive StepCase (s t : State) : Prop where
  | block (hs : s.sched = [] ∨ ∃ rest, s.sched = .block :: rest) (h : BlockCase s.popped t)
  | presents (w : CommandWord) (rest : List Turn) (hs : s.sched = .hostPresents w :: rest)
      (ht : t = s.popped.drivePort (some w))
  | withdraws (rest : List Turn) (hs : s.sched = .hostWithdraws :: rest) (ht : t = s.popped.drivePort none)
  | writesFont (a : BitVec 11) (b : Byte) (rest : List Turn) (hs : s.sched = .hostWritesFont a b :: rest)
      (ht : t = s.popped.hostWriteFont a b)
  | writesText (a : BitVec 16) (b : Byte) (rest : List Turn) (hs : s.sched = .hostWritesText a b :: rest)
      (ht : t = s.popped.hostWriteText a b)
  | asserts (rest : List Turn) (hs : s.sched = .hostDrivesReset true :: rest)
      (ht : t = { s.popped.resetBlock with rst := true })
  | releases (rest : List Turn) (hs : s.sched = .hostDrivesReset false :: rest) (ht : t = { s.popped with rst := false })
  | grants (g : Option Nat) (rest : List Turn) (hs : s.sched = .transportGrants g :: rest)
      (ht : t = { s.popped with grant := g })
  | foreign (rest : List Turn) (hs : s.sched = .foreignBusAgent :: rest)
      (ht : t = { s.popped with chain := s.chain.disturb })

theorem step_cases {s t : State} (h : step s = .next t) : StepCase s t := by
  unfold step scheduledTurn at h
  cases hs : s.sched with
  | nil =>
    rw [hs] at h
    simp only at h
    have hp : s.popped = s := by cases s; simp_all [State.popped]
    refine .block (.inl hs) ?_
    rw [hp]
    exact blockTurn_cases h
  | cons turn rest =>
    rw [hs] at h
    have hp : ({ s with sched := rest } : State) = s.popped := by simp [State.popped, hs]
    simp only [hp] at h
    cases turn with
    | block => exact .block (.inr ⟨rest, hs⟩) (blockTurn_cases h)
    | hostPresents w => exact .presents w rest hs (by simp only [takeTurn, Host.Outcome.next.injEq] at h; exact h.symm)
    | hostWithdraws => exact .withdraws rest hs (by simp only [takeTurn, Host.Outcome.next.injEq] at h; exact h.symm)
    | hostWritesFont a b => exact .writesFont a b rest hs (by simpa [takeTurn] using h.symm)
    | hostWritesText a b => exact .writesText a b rest hs (by simpa [takeTurn] using h.symm)
    | hostDrivesReset level =>
      cases level with
      | true => exact .asserts rest hs (by simpa [takeTurn, State.driveReset] using h.symm)
      | false => exact .releases rest hs (by simpa [takeTurn, State.driveReset] using h.symm)
    | transportGrants g => exact .grants g rest hs (by simpa [takeTurn] using h.symm)
    | foreignBusAgent => exact .foreign rest hs (by simp only [takeTurn, Host.Outcome.next.injEq] at h; exact h.symm)

/-! ## Counting the events of the command in execution -/

/-- Ending a command touches SESSION, BUSY and the transient state. -/
theorem State.settle_cases (s : State) (total : Nat) :
    s.settle total = s ∨ ∃ j, s.job = some j ∧ total ≤ j.done ∧ s.settle total = s.endCommand j.instr := by
  unfold State.settle
  split
  · exact .inl rfl
  · rename_i j hj
    split
    · exact .inr ⟨j, hj, by assumption, rfl⟩
    · exact .inl rfl

/-! ## The ports -/

/-- The low byte of an appended vector, and the bytes above it. -/
theorem extractLsb'_append_low {n : Nat} (x : BitVec n) (y : BitVec 8) : (x ++ y).extractLsb' 0 8 = y := by
  apply BitVec.eq_of_getLsbD_eq
  intro i hi
  simp [BitVec.getLsbD_append, hi]

theorem extractLsb'_append_high {n : Nat} (k : Nat) (x : BitVec n) (y : BitVec 8) :
    (x ++ y).extractLsb' (8 + k) 8 = x.extractLsb' k 8 := by
  apply BitVec.eq_of_getLsbD_eq
  intro i hi
  simp [BitVec.getLsbD_append, hi, show ¬ (8 + k + i < 8) by omega, show 8 + k + i - 8 = k + i by omega]

/-- Glyph byte `c` is in bits 8c+7:8c of the font port. -/
theorem State.fontPort_byte (s : State) (code : Byte) {c : Nat} (hc : c < 8) :
    (s.fontPort code).extractLsb' (8 * c) 8 = s.font.readByte (code.toNat * 8 + c) := by
  have h7 : ∀ b : BitVec 8, b.extractLsb' 0 8 = b := fun b => by simp
  have h0 := @extractLsb'_append_low
  have h := @extractLsb'_append_high
  unfold State.fontPort
  have : c = 0 ∨ c = 1 ∨ c = 2 ∨ c = 3 ∨ c = 4 ∨ c = 5 ∨ c = 6 ∨ c = 7 := by omega
  rcases this with rfl | rfl | rfl | rfl | rfl | rfl | rfl | rfl
  · exact h0 ..
  · exact (h 0 ..).trans (h0 ..)
  · exact (h 8 ..).trans ((h 0 ..).trans (h0 ..))
  · exact (h 16 ..).trans ((h 8 ..).trans ((h 0 ..).trans (h0 ..)))
  · exact (h 24 ..).trans ((h 16 ..).trans ((h 8 ..).trans ((h 0 ..).trans (h0 ..))))
  · exact (h 32 ..).trans ((h 24 ..).trans ((h 16 ..).trans ((h 8 ..).trans ((h 0 ..).trans (h0 ..)))))
  · exact (h 40 ..).trans ((h 32 ..).trans ((h 24 ..).trans ((h 16 ..).trans ((h 8 ..).trans ((h 0 ..).trans (h0 ..))))))
  · exact (h 48 ..).trans ((h 40 ..).trans ((h 32 ..).trans ((h 24 ..).trans ((h 16 ..).trans ((h 8 ..).trans
      ((h 0 ..).trans (h7 _)))))))

/-- The transport and the end of a command do not look at the command port. -/
theorem State.transfer_drivePort (s : State) (p : Option CommandWord) (evs : List Event) :
    (s.drivePort p).transfer evs = (s.transfer evs).drivePort p := by
  simp only [State.transfer_eq]
  rfl

theorem State.settle_drivePort (s : State) (p : Option CommandWord) (total : Nat) :
    (s.drivePort p).settle total = (s.settle total).drivePort p := by
  unfold State.settle
  rw [State.drivePort_job]
  split
  · rfl
  · split <;> rfl

/-- The command in execution goes on whatever the host drives on the command port. -/
theorem continueJob_drivePort {s t : State} {j : Job} (h : continueJob j s = .next t) (p : Option CommandWord) :
    continueJob j (s.drivePort p) = .next (t.drivePort p) := by
  have he : instrEvents j.instr (s.drivePort p) = instrEvents j.instr s := instrEvents_congr _ rfl rfl rfl rfl rfl rfl
  unfold continueJob at h ⊢
  simp only [he] at h ⊢
  split at h
  · rw [Host.Outcome.next.injEq] at h
    rw [State.settle_drivePort, h]
  · rw [Host.Outcome.next.injEq] at h
    rw [State.sendEvent, State.transfer_drivePort, State.settle_drivePort, ← h]
    rfl
  · split at h
    · rename_i i hd
      rw [exec_decodeFrame hd, Host.Outcome.next.injEq] at h
      rw [exec_decodeFrame hd, State.transfer_drivePort, h]
    · rw [Host.Outcome.next.injEq] at h
      rw [State.sendFrame, State.transfer_drivePort, ← h]
      rfl

/-- While the block is not ready, the word on the command port has no effect on its turn (R24, R185). -/
theorem blockTurn_drivePort {s t : State} (hc : s.cmdReady = false) (h : blockTurn s = .next t) (p : Option CommandWord) :
    blockTurn (s.drivePort p) = .next (t.drivePort p) := by
  have hc' : (s.drivePort p).cmdReady = false := hc
  unfold blockTurn at h ⊢
  rw [State.drivePort_rst, State.drivePort_job, hc']
  rw [hc] at h
  by_cases hr : s.rst = true
  · rw [if_pos hr, Host.Outcome.next.injEq] at h
    rw [if_pos hr, h]
  · rw [if_neg hr] at h ⊢
    split at h
    · exact continueJob_drivePort h p
    · rw [if_neg (by decide), Host.Outcome.next.injEq] at h
      rw [h]
      rfl

/-! ## Runs -/

theorem core_run_zero (s : State) : Sys2Proof.core.run 0 s = .next s := rfl

theorem core_run_succ (k : Nat) {s t : State} (h : step s = .next t) :
    Sys2Proof.core.run (k + 1) s = Sys2Proof.core.run k t := by
  have hm : ∀ (M : Host.Core) (s t : M.State), M.step s = .next t → M.run (k + 1) s = M.run k t := by
    intro M s t h
    simp only [Host.Core.run, h]
  exact hm Sys2Proof.core s t h

end Sys2Proof.Machine
end

