-- ==== Sys2Proof/Tests/Slice0.lean ====
section
/-! SUPPORT. Tests of one step or less, with the expected results of spec/95_test_vectors.md and of the rules named, and for every
statement with hypotheses a witness that they can be met together. -/

namespace Sys2Proof.Tests

open Sys2Proof Sys2Proof.Machine Sys2Proof.Config

/-! ## Fixtures (95_test_vectors.md, section 0) -/

/-- FONT_T: 'A' at 0x41, 'B' at 0x42, every other glyph zero. -/
def fontT : Memory :=
  [(0x208, 0x1E), (0x209, 0x22), (0x20A, 0x22), (0x20B, 0x3E), (0x20C, 0x22), (0x20D, 0x22), (0x20E, 0x22),
    (0x210, 0x7F), (0x211, 0x49), (0x212, 0x49), (0x213, 0x49), (0x214, 0x36)]

/-- The text "AB". -/
def textAB : Memory := [(0, 0x41), (1, 0x42)]

def glyphA : Glyph := [0x1E, 0x22, 0x22, 0x3E, 0x22, 0x22, 0x22, 0x00]
def glyphB : Glyph := [0x7F, 0x49, 0x49, 0x49, 0x36, 0x00, 0x00, 0x00]

/-- After reset, with the fixture's memories, a chain whose last position is `k`. -/
def base (k : Fin 256) : State := { State.resetOf (Params.ofLastPos k) with font := fontT, text := textAB }

/-- The same in an open session. -/
def opened (k : Fin 256) : State :=
  { base k with session := .opened, lines := { selDriven := true, selLevel := true, xportActive := true } }

/-- With a word on the port. -/
def withWord (s : State) (w : CommandWord) : State := { s with port := some w }

/-- The state an outcome goes to; the machine answers no other outcome. -/
def after (o : Host.Outcome State Fault Refusal) : State :=
  match o with
  | .next s => s
  | .fault _ => State.reset
  | .refused _ => State.reset

/-- The state after a word is accepted. -/
def ran (s : State) (w : CommandWord) : State := after (step (withWord s w))

/-- The digit registers of a chip. -/
def digits (s : State) (k : Nat) : List (Option Byte) :=
  (List.range 8).map (fun col => s.chain.chipReg k (BitVec.ofNat 8 (col + 1)))

/-- The frames (1, d0) .. (8, d7), each in a pulse of its own on a chain of one. -/
def digitPulses (d : List Byte) : List Event :=
  (List.range 8).flatMap (fun col => pulseOf [(BitVec.ofNat 8 (col + 1), d.getD col 0)])

/-! ## WellFormed: each check refuses an ill-formed term -/

theorem test_wf_refuses_long_text : (Instr.renderText 65536).wellFormed = false := by decide
theorem test_wf_refuses_long_scroll : (Instr.renderScroll 65536 0).wellFormed = false := by decide
theorem test_wf_refuses_low_offset : (Instr.renderScroll 0 (-32769)).wellFormed = false := by decide
theorem test_wf_refuses_high_offset : (Instr.renderScroll 0 32768).wellFormed = false := by decide
theorem test_wf_refuses_send_pos_256 : (Instr.sendPos 256 1 1).wellFormed = false := by decide
theorem test_wf_refuses_render_char_256 : (Instr.renderChar 256 1).wellFormed = false := by decide
theorem test_wf_accepts_bounds : (Instr.renderText 65535).wellFormed = true ∧
    (Instr.renderScroll 65535 (-32768)).wellFormed = true ∧ (Instr.renderScroll 0 32767).wellFormed = true ∧
    (Instr.sendPos 255 0xFF 0xFF).wellFormed = true ∧ (Instr.renderChar 255 0).wellFormed = true := by decide

/-! ## Decoding of words written out from R71, R73, R77, R78 -/

theorem test_decode_open : decodeCommand 0x10FFFFFFFFFFFFFF = .instr .openSession := by decide
theorem test_decode_close : decodeCommand 0x20ABCDEF12345678 = .instr .closeSession := by decide
theorem test_decode_set_intensity : decodeCommand 0x300000FF00000000 = .instr (.setIntensity 255) := by decide
theorem test_decode_render_text : decodeCommand 0x40000000FFFF0000 = .instr (.renderText 65535) := by decide
theorem test_decode_render_scroll : decodeCommand 0x500000000001FFFF = .instr (.renderScroll 1 (-1)) := by decide
theorem test_decode_render_scroll_bounds : decodeCommand 0x5000000000037FFF = .instr (.renderScroll 3 32767) ∧
    decodeCommand 0x5000000000038000 = .instr (.renderScroll 3 (-32768)) := by decide
theorem test_decode_send_pos : decodeCommand 0x600105AB00000000 = .instr (.sendPos 1 0x05 0xAB) := by decide
theorem test_decode_send_all : decodeCommand 0x70000A0800000000 = .instr (.sendAll 0x0A 0x08) := by decide
theorem test_decode_render_char : decodeCommand 0x8002004200000000 = .instr (.renderChar 2 0x42) := by decide
theorem test_decode_illegal : decodeCommand 0 = .illegal .illegalOpcode ∧
    decodeCommand 0x9000000000000000 = .illegal .illegalOpcode ∧
    decodeCommand 0xF000000000000000 = .illegal .illegalOpcode ∧
    decodeCommand 0x0100000000000000 = .illegal .illegalOpcode ∧
    decodeCommand 0x1100000000000000 = .illegal .reservedBits ∧
    decodeCommand 0x1800000000000000 = .illegal .reservedBits := by decide
theorem test_decode_frames : decodeFrame 0x0000 = some (.frameNoop 0x00) ∧ decodeFrame 0x01FE = some (.frameDigit1 0xFE) ∧
    decodeFrame 0x0290 = some (.frameDigit2 0x90) ∧ decodeFrame 0x037E = some (.frameDigit3 0x7E) ∧
    decodeFrame 0x0480 = some (.frameDigit4 0x80) ∧ decodeFrame 0x05AB = some (.frameDigit5 0xAB) ∧
    decodeFrame 0x0601 = some (.frameDigit6 0x01) ∧ decodeFrame 0x07F4 = some (.frameDigit7 0xF4) ∧
    decodeFrame 0x0805 = some (.frameDigit8 0x05) ∧ decodeFrame 0x0900 = some (.frameDecodeMode 0x00) ∧
    decodeFrame 0x0A0F = some (.frameIntensity 0x0F) ∧ decodeFrame 0x0B07 = some (.frameScanLimit 0x07) ∧
    decodeFrame 0x0C01 = some (.frameShutdown 0x01) ∧ decodeFrame 0x0F00 = some (.frameDisplayTest 0x00) := by decide
theorem test_decode_no_frame : decodeFrame 0x0D00 = none ∧ decodeFrame 0x0E00 = none ∧ decodeFrame 0x1000 = none ∧
    decodeFrame 0xFF12 = none := by decide

/-! ## The assembler (V-EN17 to V-EN28) -/

theorem test_asm_negative : assembleWord "RENDER_SCROLL 1, -7 ; enter".toList = some (.command 0x500000000001FFF9) := by decide
theorem test_asm_lowest : assembleWord "RENDER_SCROLL 3, -32768".toList = some (.command 0x5000000000038000) := by decide
theorem test_asm_hex : assembleWord "SEND_POS 1, 5, 0xAB".toList = some (.command 0x600105AB00000000) := by decide
theorem test_asm_out_of_range : assembleLine "SET_INTENSITY 256".toList = .refused := by decide
theorem test_asm_set_column : assembleWord "SET_COLUMN 0, 7, 0x81".toList = some (.command 0x6000088100000000) := by decide
theorem test_asm_wake : assembleWord "WAKE".toList = some (.command 0x70000C0100000000) := by decide

/-! ## The rotator and the compositor (V-GR1, V-GR2, V-SC) -/

theorem test_rot_A : rot glyphA = [0x00, 0xFE, 0x90, 0x90, 0x90, 0x7E, 0x00, 0x00] := by decide
theorem test_rot_B : rot glyphB = [0xF0, 0x88, 0x88, 0xF0, 0x88, 0x88, 0xF0, 0x00] := by decide
theorem test_rot_corners : rot [0x01, 0, 0, 0, 0, 0, 0, 0] = [0x80, 0, 0, 0, 0, 0, 0, 0] ∧
    rot [0, 0, 0, 0, 0, 0, 0, 0x80] = [0, 0, 0, 0, 0, 0, 0, 0x01] ∧
    rot [0xAA, 0x55, 0xAA, 0x55, 0xAA, 0x55, 0xAA, 0x55] = [0x55, 0xAA, 0x55, 0xAA, 0x55, 0xAA, 0x55, 0xAA] := by decide
theorem test_rot_twice : rot (rot glyphA) = [0x00, 0x44, 0x44, 0x44, 0x7C, 0x44, 0x44, 0x78] := by decide
theorem test_window_minus_1 : window (base 0) 1 (-1) 0 = [0x00, 0x1E, 0x22, 0x22, 0x3E, 0x22, 0x22, 0x22] := by decide
theorem test_window_minus_7 : window (base 0) 1 (-7) 0 = [0, 0, 0, 0, 0, 0, 0, 0x1E] := by decide
theorem test_window_out : window (base 0) 1 (-8) 0 = zero8 ∧ window (base 0) 1 (-9) 0 = zero8 ∧
    window (base 0) 1 8 0 = zero8 ∧ window (base 0) 1 32767 0 = zero8 ∧ window (base 0) 1 (-32768) 0 = zero8 := by decide
theorem test_window_across : window (base 1) 2 (-3) 0 = [0x00, 0x00, 0x00, 0x1E, 0x22, 0x22, 0x3E, 0x22] ∧
    window (base 1) 2 (-3) 1 = [0x22, 0x22, 0x00, 0x7F, 0x49, 0x49, 0x49, 0x36] ∧
    window (base 1) 2 3 0 = [0x3E, 0x22, 0x22, 0x22, 0x00, 0x7F, 0x49, 0x49] := by decide

/-! ## One step of each command -/

/-- V-DS1. -/
theorem test_open_trace : (ran (base 0) 0x1000000000000000).trace = [.selDrive, .xportInit] ++ pulseOf [(0x0B, 0x07)] ++
    pulseOf [(0x09, 0x00)] ++ pulseOf [(0x0F, 0x00)] ++ pulseOf [(0x0A, 0x0F)] ++
    digitPulses [0, 0, 0, 0, 0, 0, 0, 0] ++ pulseOf [(0x0C, 0x01)] := by decide

/-- V-DS1. -/
theorem test_open_state : (ran (base 0) 0x1000000000000000).status = 0x0A ∧
    (ran (base 0) 0x1000000000000000).lines = { selDriven := true, selLevel := true, xportActive := true } ∧
    (ran (base 0) 0x1000000000000000).chain.chipReg 0 0x0F = some 0x00 ∧
    (ran (base 0) 0x1000000000000000).chain.chipReg 0 0x0D = none := by decide

/-- V-DS3. -/
theorem test_close : (ran (opened 0) 0x2000000000000000).trace = pulseOf [(0x0C, 0x00)] ++ [.xportRelease] ∧
    (ran (opened 0) 0x2000000000000000).status = 0x08 := by decide

/-- W3, V-DS4: the level is masked, not saturated. -/
theorem test_set_intensity : (ran (opened 1) 0x300000FF00000000).trace = pulseOf [(0x0A, 0x0F), (0x0A, 0x0F)] ∧
    (ran (opened 0) 0x3000001000000000).trace = pulseOf [(0x0A, 0x00)] := by decide

/-- V-EN10. -/
theorem test_set_intensity_not_open : (ran (base 0) 0x3000000500000000).status = 0x34 ∧
    (ran (base 0) 0x3000000500000000).faultCmd = 0x3000000500000000 ∧
    (ran (base 0) 0x3000000500000000).trace = [] := by decide

/-- R144 to R146: the text's character, then the space glyph. -/
theorem test_render_text : digits (ran (opened 1) 0x4000000000010000) 0 =
      [some 0x00, some 0xFE, some 0x90, some 0x90, some 0x90, some 0x7E, some 0x00, some 0x00] ∧
    digits (ran (opened 1) 0x4000000000010000) 1 = List.replicate 8 (some 0x00) := by decide

/-- V-SC, row -3. -/
theorem test_render_scroll : (ran (opened 0) 0x500000000001FFFD).trace =
    digitPulses [0x00, 0x1F, 0x12, 0x12, 0x12, 0x0F, 0x00, 0x00] := by decide

/-- V-SC2, row 3, chip 1. -/
theorem test_render_scroll_second_chip : digits (ran (opened 1) 0x5000000000020003) 1 =
    [some 0x80, some 0x40, some 0x40, some 0x80, some 0x40, some 0x40, some 0x80, some 0x00] := by decide

/-- V-RP3, R96. -/
theorem test_send_pos : (ran (opened 2) 0x600105AB00000000).trace = pulseOf [(0, 0), (0x05, 0xAB), (0, 0)] ∧
    (ran (opened 2) 0x600105AB00000000).chain.chipReg 1 0x05 = some 0xAB ∧
    (ran (opened 2) 0x600105AB00000000).chain.chipReg 0 0x05 = none ∧
    (ran (opened 2) 0x600105AB00000000).chain.chipReg 2 0x05 = none := by decide

/-- V-EN11, V-EN12. -/
theorem test_send_pos_faults : (ran (base 1) 0x6005000100000000).status = 0x34 ∧
    (ran (opened 1) 0x6002050100000000).status = 0x4E := by decide

/-- V-RP6, V-RP7. -/
theorem test_send_all : (ran (opened 2) 0x70000A0800000000).trace = pulseOf [(0x0A, 8), (0x0A, 8), (0x0A, 8)] ∧
    (ran (opened 1) 0x7000000000000000).chain.regs = [] := by decide

/-- W1. -/
theorem test_render_char : (ran (opened 0) 0x8000004100000000).trace =
    digitPulses [0x00, 0xFE, 0x90, 0x90, 0x90, 0x7E, 0x00, 0x00] := by decide

/-- V-GR3: only the chip at the position is written. -/
theorem test_render_char_second_chip : digits (ran (opened 1) 0x8001004200000000) 1 =
      [some 0xF0, some 0x88, some 0x88, some 0xF0, some 0x88, some 0x88, some 0xF0, some 0x00] ∧
    digits (ran (opened 1) 0x8001004200000000) 0 = List.replicate 8 none := by decide

/-- V-EN4, V-EN6, V-EN7, V-EN8. -/
theorem test_illegal_words : (ran (base 0) 0).status = 0x14 ∧ (ran (opened 0) 0xF000000000000000).status = 0x1E ∧
    (ran (base 0) 0x0100000000000000).status = 0x14 ∧ (ran (base 0) 0x1100000000000000).status = 0x24 := by decide

/-- V-EN16: nothing is accepted after a fault. -/
theorem test_faulted_waits : step (withWord (ran (base 0) 0) 0x1000000000000000) =
    .next (withWord (ran (base 0) 0) 0x1000000000000000) := rfl

/-! ## One step of each frame -/

/-- A frame word in the pulse in flight: its two transfers are the new events. -/
def framed (w : Nat) : List Event := (after (step (State.reset.withFetchWord 16 w))).trace.drop 1

theorem test_frames_transfer : framed 0x0005 = [.xfer 0x00, .xfer 0x05] ∧ framed 0x01FE = [.xfer 0x01, .xfer 0xFE] ∧
    framed 0x0290 = [.xfer 0x02, .xfer 0x90] ∧ framed 0x037E = [.xfer 0x03, .xfer 0x7E] ∧
    framed 0x0480 = [.xfer 0x04, .xfer 0x80] ∧ framed 0x05AB = [.xfer 0x05, .xfer 0xAB] ∧
    framed 0x0601 = [.xfer 0x06, .xfer 0x01] ∧ framed 0x07F4 = [.xfer 0x07, .xfer 0xF4] ∧
    framed 0x0805 = [.xfer 0x08, .xfer 0x05] ∧ framed 0x0900 = [.xfer 0x09, .xfer 0x00] ∧
    framed 0x0A0F = [.xfer 0x0A, .xfer 0x0F] ∧ framed 0x0B07 = [.xfer 0x0B, .xfer 0x07] ∧
    framed 0x0C01 = [.xfer 0x0C, .xfer 0x01] ∧ framed 0x0F00 = [.xfer 0x0F, .xfer 0x00] := by decide

/-- The frame is in the pulse and latched by nothing yet (R57). -/
theorem test_frame_in_pulse : (after (step (State.reset.withFetchWord 16 0x05AB))).chain.pulse = .opened [0x05, 0xAB] ∧
    (after (step (State.reset.withFetchWord 16 0x05AB))).chain.regs = [] := by decide

/-! ## Witnesses: the hypotheses of each statement can be met together -/

/-- SEND_ALL 0x0A, 0x08 held up before its last event, the select de-assertion. -/
def held : State :=
  { opened 0 with
    busy := true
    latched := 0x70000A0800000000
    job := some { instr := .sendAll 0x0A 0x08, done := 3 }
    lines := { selDriven := true, selLevel := false, xportActive := true }
    trace := [.selAssert, .xfer 0x0A, .xfer 0x08]
    chain := { pulse := .opened [0x0A, 0x08], regs := [], refused := false }
    grant := some 0 }

/-- OPEN held up before its first event. -/
def heldOpen : State :=
  { base 0 with busy := true, latched := 0x1000000000000000, job := some { instr := .openSession, done := 0 } }

/-- After the fault NOT_OPEN of SET_INTENSITY 5. -/
def faulted : State := { base 0 with faulted := true, cause := .notOpen, faultCmd := 0x3000000500000000 }

theorem witness_inv_opened : (opened 1).Inv := by
  constructor <;> first | decide | skip
  intro j hj
  exact nomatch (show (none : Option Job) = some j from hj)

theorem witness_inv_base : (base 0).Inv := by
  constructor <;> first | decide | skip
  intro j hj
  exact nomatch (show (none : Option Job) = some j from hj)

theorem witness_inv_in_reset : ({ base 0 with rst := true } : State).Inv := by
  constructor <;> first | decide | skip
  intro j hj
  exact nomatch (show (none : Option Job) = some j from hj)

theorem witness_inv_faulted : faulted.Inv := by
  constructor <;> first | decide | skip
  intro j hj
  exact nomatch (show (none : Option Job) = some j from hj)

theorem witness_inv_held : held.Inv := by
  constructor <;> first | decide | skip
  intro j hj
  obtain rfl : { instr := .sendAll 0x0A 0x08, done := 3 } = j := Option.some.inj hj
  constructor
  · decide
  · trivial
  · exact .inr rfl
  · decide
  · intro h; cases h
  · intro h; cases h
  · exact ⟨.inside 2, by decide, .inr ⟨[0x0A, 0x08], rfl, rfl⟩, by decide, by decide⟩

theorem witness_inv_heldOpen : heldOpen.Inv := by
  constructor <;> first | decide | skip
  intro j hj
  obtain rfl : { instr := .openSession, done := 0 } = j := Option.some.inj hj
  constructor
  · decide
  · trivial
  · exact .inl rfl
  · decide
  · intro _ h; exact absurd h (by decide)
  · intro _ h; exact absurd h (by decide)
  · exact ⟨.outside, by decide, rfl, by decide, by decide⟩

/-- O1, O2: the boundary operands are well formed and come from a word. -/
theorem witness_encoding : (Instr.renderScroll 65535 (-32768)).wellFormed = true ∧
    decodeWords (.command 0x50000000FFFF8000) = some (.renderScroll 65535 (-32768)) ∧
    decodeWords (.frame 0x0F00) = some (.frameDisplayTest 0x00) := by decide

/-- O3, O4, O5: a word for each opcode case, the reserved bits, and words that differ in unused fields only. -/
theorem witness_decode_cases : (0x0FFFFFFFFFFFFFFF : CommandWord).toNat / 2 ^ 60 = 0 ∧
    9 ≤ (0x9000000000000000 : CommandWord).toNat / 2 ^ 60 ∧
    (0x8F00000000000000 : CommandWord).toNat / 2 ^ 60 = 8 ∧ (0x8F00000000000000 : CommandWord).toNat / 2 ^ 56 % 16 ≠ 0 ∧
    (0x5000000000008000 : CommandWord).toNat / 2 ^ 60 = 5 ∧ (0x5000000000008000 : CommandWord).toNat / 2 ^ 56 % 16 = 0 ∧
    (0x2000000000000000 : CommandWord).toNat / 2 ^ 56 = (0x20ABCDEF12345678 : CommandWord).toNat / 2 ^ 56 := by decide

theorem witness_accepts_illegal : (withWord (base 0) 0).accepts 0 ∧ decodeCommand 0 = .illegal .illegalOpcode ∧
    (withWord (base 0) 0x1100000000000000).accepts 0x1100000000000000 ∧
    decodeCommand 0x1100000000000000 = .illegal .reservedBits :=
  ⟨⟨rfl, rfl, rfl, rfl, rfl, rfl⟩, by decide, ⟨rfl, rfl, rfl, rfl, rfl, rfl⟩, by decide⟩

/-- O7: operands at and beyond the ends of the ranges, in each way of writing a number; a line of no mnemonic. -/
theorem witness_assembled : (⟨false, .decimal 2 [5, 5]⟩ : Operand).value = 255 ∧
    (⟨false, .hexadecimal 1 [0, 0]⟩ : Operand).value = 256 ∧ (⟨true, .binary 1 []⟩ : Operand).value = -1 ∧
    (⟨true, .hexadecimal 8 [0, 0, 0]⟩ : Operand).value = -32768 ∧ (⟨false, .decimal 8 []⟩ : Operand).value = 8 :=
  ⟨rfl, rfl, rfl, rfl, rfl⟩

theorem witness_no_mnemonic : assembleLine "OPEN".toList = .instr .openSession ∧ "FLASH".toList ≠ [] ∧
    (∀ c ∈ "FLASH".toList, c ≠ ' ' ∧ c ≠ '\t' ∧ c ≠ ';') := ⟨by decide, by simp, by simp⟩

/-- The lines of R80 and R81 with an operand just outside its range are refused. -/
theorem test_asm_out_of_range_ofs : assembleLine "RENDER_SCROLL 0, -32769".toList = .refused := by decide
theorem test_asm_out_of_range_col : assembleLine "SET_COLUMN 0, 8, 0x81".toList = .refused := by decide

/-- O8: a command presented; a frame reached; another event reached; a frame whose register byte is in no row. -/
theorem witness_step_runs_decoded :
    ((withWord (opened 0) 0x2000000000000000).accepts 0x2000000000000000 ∧
      decodeCommand 0x2000000000000000 = .instr .closeSession) ∧
    (∃ j, (State.reset.frameNext 0x0A08).job = some j ∧ (State.reset.frameNext 0x0A08).sched = [] ∧
      nextItem (instrEvents j.instr (State.reset.frameNext 0x0A08)) j.done = some (.frame 0x0A08) ∧
      decodeFrame 0x0A08 = some (.frameIntensity 0x08)) ∧
    (∃ j, held.job = some j ∧ nextItem (instrEvents j.instr held) j.done = some (.event .selDeassert)) ∧
    (∃ j, (State.reset.frameNext 0x0D08).job = some j ∧
      nextItem (instrEvents j.instr (State.reset.frameNext 0x0D08)) j.done = some (.frame 0x0D08) ∧
      decodeFrame 0x0D08 = none) :=
  ⟨⟨⟨rfl, rfl, rfl, rfl, rfl, rfl⟩, by decide⟩, ⟨_, rfl, rfl, by decide, by decide⟩, ⟨_, rfl, by decide⟩,
    ⟨_, rfl, by decide, by decide⟩⟩

/-- O9. -/
theorem witness_fetched_word : decodeTableWord 64 0x8002004200000000 = some (.renderChar 2 0x42) ∧
    decodeTableWord 16 0x0805 = some (.frameDigit8 0x05) := by decide

/-- O13: states of every kind that meet the invariant and step. -/
theorem witness_invariant_steps : (∃ t, (opened 1).Inv ∧ step (opened 1) = .next t) ∧ (∃ t, held.Inv ∧ step held = .next t) ∧
    (∃ t, faulted.Inv ∧ step faulted = .next t) :=
  ⟨⟨_, witness_inv_opened, rfl⟩, ⟨_, witness_inv_held, rfl⟩, ⟨_, witness_inv_faulted, rfl⟩⟩

/-- O14: a reset in the middle of a command; a step in reset; a block that waits. -/
theorem witness_reset : (∃ t, ({ held with sched := [.hostDrivesReset true] } : State).resetNext ∧
      step { held with sched := [.hostDrivesReset true] } = .next t) ∧
    (∃ t, ({ base 0 with rst := true } : State).Inv ∧ step { base 0 with rst := true } = .next t) ∧
    ((base 0).atReset ∧ (base 0).rst = false ∧ (base 0).sched = [] ∧ (base 0).port = none) :=
  ⟨⟨_, ⟨[], rfl⟩, rfl⟩, ⟨_, witness_inv_in_reset, rfl⟩,
    ⟨⟨rfl, rfl, rfl, rfl, rfl, rfl, rfl, rfl, rfl, rfl⟩, rfl, rfl, rfl⟩⟩

/-- O15: each cause, the boundary positions of BAD_POSITION, and no cause. -/
theorem witness_first_cause : (withWord (opened 1) 0x6002050100000000).accepts 0x6002050100000000 ∧
    firstCause 2 .opened 0x6002050100000000 = some .badPosition ∧ firstCause 2 .opened 0x6001050100000000 = none ∧
    firstCause 2 .closed 0x6005000100000000 = some .notOpen ∧ firstCause 2 .closed 0x1000000000000000 = none ∧
    firstCause 2 .closed 0x0100000000000000 = some .illegalOpcode ∧
    firstCause 2 .closed 0x2100000000000000 = some .reservedBits :=
  ⟨⟨rfl, rfl, rfl, rfl, rfl, rfl⟩, by decide, by decide, by decide, by decide, by decide, by decide⟩

/-- O16, O19. -/
theorem witness_fault_entry : (base 0).faulted = false ∧ ∃ t, step (withWord (base 0) 0) = .next t ∧ t.faulted = true ∧
    ¬ (withWord (base 0) 0).resetNext :=
  ⟨rfl, _, rfl, rfl, fun ⟨_, h⟩ => by cases h⟩

/-- O17. -/
theorem witness_checks : (Instr.sendPos 5 0 1).isCommand = true ∧ Instr.sendPos 5 0 1 ≠ .openSession ∧
    (base 1).session = .closed ∧ (opened 1).session = .opened ∧ (opened 1).params.n ≤ 2 := by decide

/-- O17, O21: an OPEN that ends, by itself and as a step, and a CLOSE that ends. -/
theorem witness_session_moves : (∃ t, exec .openSession (base 0) = .next t ∧ t.session ≠ (base 0).session) ∧
    (∃ t, step (withWord (base 0) 0x1000000000000000) = .next t ∧ t.session ≠ (base 0).session ∧
      ¬ (withWord (base 0) 0x1000000000000000).resetNext) ∧
    (∃ t, (opened 1).Inv ∧ (opened 1).session = .opened ∧ exec .closeSession (opened 1) = .next t ∧ t.busy = false) :=
  ⟨⟨_, rfl, by decide⟩, ⟨_, rfl, by decide, fun ⟨_, h⟩ => by cases h⟩, ⟨_, witness_inv_opened, rfl, rfl, rfl⟩⟩

/-- O4: two words of one command, the first accepted. -/
theorem witness_same_command : (withWord (base 0) 0x1000000000000000).accepts 0x1000000000000000 ∧
    (withWord (base 0) 0x1000000000000000).transportCompletes ∧
    decodeCommand 0x1000000000000000 = .instr .openSession ∧ decodeCommand 0x1000000000000001 = .instr .openSession ∧
    (∃ t, step (withWord (base 0) 0x1000000000000000) = .next t) :=
  ⟨⟨rfl, rfl, rfl, rfl, rfl, rfl⟩, rfl, by decide, by decide, ⟨_, rfl⟩⟩

/-- O18. -/
theorem witness_quiescent : faulted.Inv ∧ faulted.faulted = true ∧ faulted.sched = [] ∧ ¬ faulted.resetNext ∧
    (∃ t, step faulted = .next t) ∧
    (∃ t, step { faulted with sched := [.hostPresents 0] } = .next t) ∧ ¬ faulted.hostMovesPort :=
  ⟨witness_inv_faulted, rfl, rfl, (by rintro ⟨_, h⟩; cases h), ⟨_, rfl⟩, ⟨_, rfl⟩,
    (by rintro (⟨_, _, h⟩ | ⟨_, h⟩) <;> cases h)⟩

/-- O20. -/
theorem witness_status : (opened 255).params.n = 256 ∧ (opened 1).Inv ∧ (opened 1).faulted = false :=
  ⟨by decide, witness_inv_opened, rfl⟩

/-- O21, O22: a step of a command that ends with the line driven, and one that emits an event of a pulse. -/
theorem witness_lines : ∃ t, ({ opened 1 with port := some 0x7000000000000000 } : State).Inv ∧
    step { opened 1 with port := some 0x7000000000000000 } = .next t ∧ t.busy = false ∧ t.lines.selDriven = true ∧
    (∃ after, t.trace = [] ++ [] ++ Event.selAssert :: after) ∧ Event.selAssert.ofPulse = true := by
  refine ⟨_, ?_, rfl, rfl, rfl, ⟨_, rfl⟩, rfl⟩
  constructor <;> first | decide | skip
  intro j hj
  exact nomatch (show (none : Option Job) = some j from hj)

/-- O21: a byte transfer requested, and the transport completes it. -/
theorem witness_transfer_requested : (State.reset.frameNext 0x0A08).txValid = true ∧ (State.reset.frameNext 0x0A08).sched = [] ∧
    (State.reset.frameNext 0x0A08).rst = false ∧ (State.reset.frameNext 0x0A08).grant ≠ some 0 ∧
    (State.reset.frameNext 0x0A08).txByte = 0x0A := by decide

/-- O23: a word accepted; a word presented and one withdrawn while the block is not ready; a faulted block. -/
theorem witness_accepted : (∃ t, step (withWord (base 0) 0) = .next t ∧ t.port = none ∧ ¬ (withWord (base 0) 0).hostMovesPort) ∧
    (∃ t, step { held with sched := [.hostPresents 1] } = .next t ∧ t.port = some 1 ∧ held.cmdReady = false) ∧
    (∃ t, step { withWord held 1 with sched := [.hostWithdraws] } = .next t ∧ t.port = none) ∧
    (faulted.faulted = true ∧ ¬ faulted.resetNext) :=
  ⟨⟨_, rfl, rfl, by rintro (⟨_, _, h⟩ | ⟨_, h⟩) <;> cases h⟩, ⟨_, rfl, rfl, rfl⟩, ⟨_, rfl, rfl⟩, rfl, by rintro ⟨_, h⟩; cases h⟩

/-- A word presented while the block is not ready is not accepted, and another replaces it: nothing is queued (R185). -/
theorem test_nothing_is_queued : (after (step (withWord held 0x2000000000000000))).port = some 0x2000000000000000 ∧
    (after (step (withWord held 0x2000000000000000))).trace = held.trace ∧
    (after (step { withWord held 1 with sched := [.hostPresents 2] })).port = some 2 := by decide

/-- O24, O52 to O55: a quiet host, and the font precondition. -/
theorem witness_quiet : (base 0).racedFont = [] ∧ (base 0).quiet ∧ State.reset.fontPrecondition ∧ State.reset.quiet :=
  ⟨rfl, ⟨rfl, rfl⟩, fun _ => rfl, ⟨rfl, rfl⟩⟩

/-- O25, O26: host writes outside and inside a command, at the last addresses. -/
theorem witness_host_writes :
    (∃ t, step { base 0 with sched := [.hostWritesFont 0x7FF 0x81] } = .next t ∧ t.font.readByte 0x7FF = 0x81 ∧
      (base 0).font.readByte 0x7FF = 0x00 ∧ (base 0).busy = false ∧ (base 0).quiet) ∧
    (∃ t, step { held with sched := [.hostWritesText 0xFFFF 0x81] } = .next t ∧ held.busy = true ∧
      t.racedText = [0xFFFF]) :=
  ⟨⟨_, rfl, by decide, by decide, rfl, ⟨rfl, rfl⟩⟩, ⟨_, rfl, rfl, by decide⟩⟩

/-- O27: another TEXT that agrees below the length. -/
theorem witness_text_beyond : (∀ a, a < 1 → Memory.readByte [(0, 0x41), (1, 0x55)] a = (opened 1).text.readByte a) ∧
    Memory.readByte [(0, 0x41), (1, 0x55)] 1 ≠ (opened 1).text.readByte 1 ∧
    (∃ t, exec (.renderText 1) (opened 1) = .next t) ∧ (∃ t, exec (.renderScroll 1 0) (opened 1) = .next t) :=
  ⟨by decide, by decide, ⟨_, rfl⟩, ⟨_, rfl⟩⟩

/-- O28. -/
theorem witness_memories : (∃ t, exec (.renderChar 0 0x41) (opened 1) = .next t) ∧
    (∃ u, exec (.renderChar 0 0x41) { opened 1 with font := [], text := [] } = .next u) := ⟨⟨_, rfl⟩, ⟨_, rfl⟩⟩

/-- O29, O30: a pulse of 2 frames on chains of 2 and of 3. -/
theorem witness_pulse : ∃ c : Chain, c.pulse = .opened ([(0x05, 0xAB), (0x00, 0x00)].flatMap (fun f => [f.1, f.2])) ∧
    ([(0x05, 0xAB), (0x00, 0x00)] : List (Byte × Byte)).length = 2 ∧ ([0x05, 0xAB, 0x00, 0x00] : List Byte).length ≠ 2 * 3 ∧
    ([0x05] : List Byte).length ≠ 2 * 1 :=
  ⟨{ pulse := .opened [0x05, 0xAB, 0x00, 0x00], regs := [], refused := false }, rfl, rfl, by decide, by decide⟩

/-- O31: a foreign agent in the middle of a pulse. -/
theorem witness_foreign : ∃ t, step { held with sched := [.foreignBusAgent] } = .next t ∧
    held.chain.pulse = .opened [0x0A, 0x08] ∧ t.chain.pulse = .spoiled := ⟨_, rfl, rfl, rfl⟩

/-- O32 to O36: positions at both ends of a chain of 256. -/
theorem witness_positions : positionInChain (opened 255).params.n (.sendPos 255 0x05 0xAB) ∧
    positionInChain (opened 255).params.n (.renderChar 0 0x41) ∧ ¬ positionInChain (opened 255).params.n (.sendPos 256 5 5) :=
  by unfold positionInChain; decide

/-- O37: a register a command may not write. -/
theorem witness_may_write : (∃ t, exec (.sendPos 0 0x05 0xAB) (opened 1) = .next t) ∧
    ¬ mayWriteChip (opened 1).params.n (.sendPos 0 0x05 0xAB) 1 0x05 ∧
    mayWriteChip (opened 1).params.n (.sendPos 0 0x05 0xAB) 0 0x05 := by
  refine ⟨⟨_, rfl⟩, ?_, ?_⟩ <;> unfold mayWriteChip <;> decide

/-- O40 to O48: what a command needs to complete. -/
theorem witness_completion : (opened 2).session = .opened ∧ (opened 2).transportCompletes ∧ (opened 2).quiet ∧
    2 < (opened 2).params.n ∧ (base 2).session = .closed ∧ (base 2).transportCompletes ∧ (base 2).quiet :=
  ⟨rfl, rfl, ⟨rfl, rfl⟩, by decide, rfl, rfl, ⟨rfl, rfl⟩⟩

/-- O49, O50. -/
theorem witness_session_chips : (∃ t, exec .openSession (base 0) = .next t) ∧ 1 ≤ (base 0).params.initRepeat ∧
    0 < (base 0).params.n ∧ (∃ t, exec (.renderText 1) (opened 1) = .next t) ∧ 1 < (opened 1).params.n :=
  ⟨⟨_, rfl⟩, by decide, by decide, ⟨_, rfl⟩, by decide⟩

/-- O53: both ends of the blank range of a text of one character. -/
theorem witness_blank_range : ((-8 : Int) + 8 * (0 : Nat) + 7 < 0) ∧ ((8 : Int) * (1 : Nat) ≤ 8 + 8 * (0 : Nat)) ∧
    window (base 0) 1 (-7) 0 ≠ zero8 ∧ window (base 0) 1 6 0 ≠ zero8 := by decide

/-- O55: with the fixture's font the two commands run in one state. -/
theorem witness_text_scroll : ∃ t, exec (.renderText 1) { State.reset with session := .opened } = .next t := ⟨_, rfl⟩

/-- O56. -/
theorem witness_counts : (base 2).params.initRepeat = (base 2).params.n ∧ 2 < (base 2).params.n := by decide

/-- O57: a stalled transport. -/
theorem witness_stalled : held.Inv ∧ held.busy = true ∧ held.grant = some 0 ∧ held.sched = [] :=
  ⟨witness_inv_held, rfl, rfl, rfl⟩

/-- O57: a stalled command that is reset. -/
theorem witness_stalled_reset : ({ held with sched := [.hostDrivesReset true] } : State).Inv ∧
    ({ held with sched := [.hostDrivesReset true] } : State).resetNext ∧
    (∃ t, step { held with sched := [.hostDrivesReset true] } = .next t) := by
  refine ⟨?_, ⟨[], rfl⟩, ⟨_, rfl⟩⟩
  have h := witness_inv_held
  exact { h with jobInv := fun j hj => { h.jobInv j hj with } }

/-- O58, O60: a transport that completes 3 events of 4, and one that completes none of OPEN's. -/
theorem witness_partial : (Instr.sendAll 0x0A 0x08).isCommand = true ∧
    positionInChain (opened 0).params.n (.sendAll 0x0A 0x08) ∧ (opened 0).session = .opened ∧
    ({ opened 0 with grant := some 3 } : State).grant = some 3 ∧ (opened 0).sched = [] ∧ (opened 0).rst = false ∧
    3 < (instrEvents (.sendAll 0x0A 0x08) (opened 0)).length :=
  ⟨rfl, trivial, rfl, rfl, rfl, rfl, by decide⟩

/-- O59: held-up commands whose transport goes on. -/
theorem witness_goes_on : heldOpen.Inv ∧ heldOpen.job = some { instr := .openSession, done := 0 } ∧
    heldOpen.transportCompletes ∧ heldOpen.sched = [] := ⟨witness_inv_heldOpen, rfl, rfl, rfl⟩

/-! ## The opcode table -/

/-- The rows of spec/opcode_table.json. -/
def table : List TableRow :=
  ([0x1, 0x2, 0x3, 0x4, 0x5, 0x6, 0x7, 0x8].map (fun op => ⟨64, op * 2 ^ 60, 0xFF00000000000000⟩)) ++
    ([0x00, 0x01, 0x02, 0x03, 0x04, 0x05, 0x06, 0x07, 0x08, 0x09, 0x0A, 0x0B, 0x0C, 0x0F].map
      (fun r => ⟨16, r * 2 ^ 8, 0xFF00⟩))

/-- No word matches two rows: any two rows of one width differ in the bits both fix. -/
theorem test_rows_do_not_overlap :
    table.Pairwise (fun a b => a.nbits ≠ b.nbits ∨ a.pattern &&& b.mask ≠ b.pattern &&& a.mask) := by decide

end Sys2Proof.Tests
end

section
/-! What an instruction and a step do to SESSION, the parameters and the fault registers, said once; and the statements of
10_state.md that follow from it. -/

namespace Sys2Proof.Machine

/-! ## The fault registers, the parameters and SESSION under the operations -/

/-- The parameters (R6) and the fault registers FAULTED, CAUSE and FAULT_CMD (R33) are those of `s`. -/
structure FaultRegistersKept (s t : State) : Prop where
  params : t.params = s.params
  faulted : t.faulted = s.faulted
  cause : t.cause = s.cause
  faultCmd : t.faultCmd = s.faultCmd

theorem FaultRegistersKept.trans {s t u : State} (h : FaultRegistersKept s t) (h' : FaultRegistersKept t u) :
    FaultRegistersKept s u :=
  ⟨h'.params.trans h.params, h'.faulted.trans h.faulted, h'.cause.trans h.cause, h'.faultCmd.trans h.faultCmd⟩

theorem faultRegistersKept_endCommand (s : State) (i : Instr) : FaultRegistersKept s (s.endCommand i) :=
  ⟨rfl, rfl, rfl, rfl⟩

theorem faultRegistersKept_transfer (s : State) (evs : List Event) : FaultRegistersKept s (s.transfer evs) := by
  rw [State.transfer_eq]
  exact ⟨rfl, rfl, rfl, rfl⟩

theorem State.transfer_session (s : State) (evs : List Event) : (s.transfer evs).session = s.session := by
  rw [State.transfer_eq]

/-- The transport counts the events of the command in execution and does not replace the command. -/
theorem State.transfer_job_instr (s : State) (evs : List Event) :
    (s.transfer evs).job.map Job.instr = s.job.map Job.instr := by
  rw [State.transfer_eq]
  cases s.job <;> rfl

theorem faultRegistersKept_hostWriteFont (s : State) (a : BitVec 11) (b : Byte) :
    FaultRegistersKept s (s.hostWriteFont a b) := by
  unfold State.hostWriteFont
  cases s.busy <;> exact ⟨rfl, rfl, rfl, rfl⟩

theorem State.hostWriteFont_session (s : State) (a : BitVec 11) (b : Byte) :
    (s.hostWriteFont a b).session = s.session := by
  unfold State.hostWriteFont
  cases s.busy <;> rfl

theorem faultRegistersKept_hostWriteText (s : State) (a : BitVec 16) (b : Byte) :
    FaultRegistersKept s (s.hostWriteText a b) := by
  unfold State.hostWriteText
  cases s.busy <;> exact ⟨rfl, rfl, rfl, rfl⟩

theorem State.hostWriteText_session (s : State) (a : BitVec 16) (b : Byte) :
    (s.hostWriteText a b).session = s.session := by
  unfold State.hostWriteText
  cases s.busy <;> rfl

/-- An instruction whose end changes SESSION is OPEN in a closed session or CLOSE in an open one (R29). -/
theorem sessionAfter_changes {i : Instr} {old : Session} (h : sessionAfter i old ≠ old) :
    (i = .openSession ∧ sessionAfter i old = .opened) ∨ (i = .closeSession ∧ sessionAfter i old = .closed) := by
  cases i with
  | openSession => exact .inl ⟨rfl, rfl⟩
  | closeSession => exact .inr ⟨rfl, rfl⟩
  | _ => exact absurd rfl h

/-! ## What an instruction does to them -/

/-- The command `i` has ended: it has written its last state element and left no transient state (R30, R38). -/
structure CommandEnded (i : Instr) (s t : State) : Prop where
  session : t.session = sessionAfter i s.session
  busy : t.busy = false
  job : t.job = none

/-- What the instruction `i` does to SESSION, the parameters and the fault registers. -/
inductive ExecEffect (i : Instr) (s t : State) : Prop where
  | keeps (hs : t.session = s.session) (hk : FaultRegistersKept s t)
  | ends (he : CommandEnded i s t) (hk : FaultRegistersKept s t)
  | faults (c : Cause) (hc : c ≠ .none) (ht : t = s.afterFault c s.latched)

theorem perform_effect (s : State) (i : Instr) (evs : List Event) : ExecEffect i s (s.perform i evs) := by
  rcases s.perform_cases i evs with ⟨g, h⟩ | ⟨m, g, _, h⟩ <;> rw [h]
  · exact .ends ⟨rfl, rfl, rfl⟩ ⟨rfl, rfl, rfl, rfl⟩
  · exact .keeps rfl ⟨rfl, rfl, rfl, rfl⟩

theorem exec_effect {i : Instr} {s t : State} (h : exec i s = .next t) : ExecEffect i s t := by
  cases hi : i.isCommand with
  | true =>
    cases exec_command_cases hi h with
    | notOpen _ _ ht => exact .faults .notOpen (by decide) ht
    | badPosition _ _ ht => exact .faults .badPosition (by decide) ht
    | runs _ _ ht => rw [ht]; exact perform_effect s i _
  | false =>
    obtain ⟨r, v, -, hx⟩ := exec_frame hi
    rw [hx, Host.Outcome.next.injEq] at h
    subst h
    exact .keeps (s.transfer_session _) (faultRegistersKept_transfer s _)

/-! ## What a step does to them -/

/-- `i` is the command in execution, or the one whose word an idle block is presented with. -/
def State.runs (s : State) (i : Instr) : Prop :=
  (∃ j, s.job = some j ∧ j.instr = i) ∨ (s.job = none ∧ ∃ w, s.port = some w ∧ decodeCommand w = .instr i)

/-- What a step does to SESSION, the parameters and the fault registers. -/
inductive StepEffect (s t : State) : Prop where
  | keeps (hs : t.session = s.session) (hk : FaultRegistersKept s t)
  | ends (i : Instr) (hr : s.runs i) (he : CommandEnded i s t) (hk : FaultRegistersKept s t)
  | faults (c : Cause) (w : CommandWord) (hc : c ≠ .none) (hf : s.faulted = false) (hp : s.port = some w)
      (ht : t = ({ s.popped with port := none } : State).afterFault c w)
  | resets (hr : s.resetNext) (ht : t = { s.popped.resetBlock with rst := true })

/-- Taking the turn off the schedule leaves the block as it is. -/
theorem faultRegistersKept_popped (s : State) : FaultRegistersKept s s.popped := ⟨rfl, rfl, rfl, rfl⟩

/-- Ending the command in execution where its events are completed. -/
theorem settle_effect {s u : State} (hj : u.job.map Job.instr = s.job.map Job.instr) (hs : u.session = s.session)
    (hk : FaultRegistersKept s u) (total : Nat) : StepEffect s (u.settle total) := by
  rcases u.settle_cases total with h | ⟨k, huk, -, h⟩ <;> rw [h]
  · exact .keeps hs hk
  · have hr : s.job.map Job.instr = some k.instr := by rw [← hj, huk]; rfl
    exact .ends k.instr (.inl (Option.map_eq_some_iff.mp hr)) ⟨congrArg (sessionAfter k.instr) hs, rfl, rfl⟩
      (hk.trans (faultRegistersKept_endCommand u _))

theorem causeOf_ne_none (c : Illegal) : causeOf c ≠ .none := by cases c <;> decide

theorem State.cmdReady_eq_true {s : State} : s.cmdReady = true ↔ s.busy = false ∧ s.faulted = false := by
  simp [State.cmdReady]

theorem blockTurn_effect {s t : State} (h : BlockCase s.popped t) : StepEffect s t := by
  cases h with
  | waits ht _ => subst ht; exact .keeps rfl (faultRegistersKept_popped s)
  | illegal w c _ _ hc hp _ ht => exact .faults _ w (causeOf_ne_none c) (State.cmdReady_eq_true.mp hc).2 hp ht
  | accepts w i _ hj hc hp hd he =>
    cases exec_effect he with
    | keeps hs hk => exact .keeps hs ⟨hk.params, hk.faulted, hk.cause, hk.faultCmd⟩
    | ends hend hk =>
      exact .ends i (.inr ⟨hj, w, hp, hd⟩) ⟨hend.session, hend.busy, hend.job⟩
        ⟨hk.params, hk.faulted, hk.cause, hk.faultCmd⟩
    | faults c hc' ht => exact .faults c w hc' (State.cmdReady_eq_true.mp hc).2 hp ht
  | event _ _ _ _ _ _ ht =>
    subst ht
    exact settle_effect (s := s) (State.transfer_job_instr s.popped _) (State.transfer_session _ _)
      ((faultRegistersKept_popped s).trans (faultRegistersKept_transfer _ _)) _
  | frame _ _ _ _ _ _ _ ht =>
    subst ht
    exact .keeps (State.transfer_session _ _) ((faultRegistersKept_popped s).trans (faultRegistersKept_transfer _ _))
  | ends _ _ _ _ ht => subst ht; exact settle_effect (s := s) (u := s.popped) rfl rfl (faultRegistersKept_popped s) _

theorem step_effect {s t : State} (h : step s = .next t) : StepEffect s t := by
  cases step_cases h with
  | block _ hb => exact blockTurn_effect hb
  | writesFont a b _ _ ht =>
    subst ht
    exact .keeps (State.hostWriteFont_session _ a b)
      ((faultRegistersKept_popped s).trans (faultRegistersKept_hostWriteFont _ a b))
  | writesText a b _ _ ht =>
    subst ht
    exact .keeps (State.hostWriteText_session _ a b)
      ((faultRegistersKept_popped s).trans (faultRegistersKept_hostWriteText _ a b))
  | asserts rest hs ht => exact .resets ⟨rest, hs⟩ ht
  | presents _ _ _ ht | withdraws _ _ ht | releases _ _ ht | grants _ _ _ ht | foreign _ _ ht =>
    subst ht
    exact .keeps rfl ⟨rfl, rfl, rfl, rfl⟩

/-- No step writes the parameters (R6, R35). -/
theorem step_params {s t : State} (h : step s = .next t) : t.params = s.params := by
  cases step_effect h with
  | keeps _ hk | ends _ _ _ hk => exact hk.params
  | faults _ _ _ _ _ ht | resets _ ht => rw [ht]; rfl

/-- The host's turn that asserts `rst` (R180). -/
theorem step_of_resetNext {s : State} (h : s.resetNext) : step s = .next { s.popped.resetBlock with rst := true } := by
  obtain ⟨rest, hs⟩ := h
  simp only [step, scheduledTurn, hs, takeTurn, State.driveReset, State.popped, List.tail_cons, if_true]

/-! ## SESSION: its writers and its check -/

theorem exec_answers_next (i : Instr) (s : State) : ∃ t, exec i s = .next t := by cases i <;> exact ⟨_, rfl⟩

theorem exec_session_change {i : Instr} {s t : State} (h : exec i s = .next t) (hne : t.session ≠ s.session) :
    CommandEnded i s t := by
  cases exec_effect h with
  | keeps hs _ => exact absurd hs hne
  | ends he _ => exact he
  | faults _ _ ht => subst ht; exact absurd rfl hne

theorem step_session_change {s t : State} (h : step s = .next t) (hne : t.session ≠ s.session) (hr : ¬ s.resetNext) :
    ∃ i, s.runs i ∧ CommandEnded i s t := by
  cases step_effect h with
  | keeps hs _ => exact absurd hs hne
  | ends i hi he _ => exact ⟨i, hi, he⟩
  | faults _ _ _ _ _ ht => subst ht; exact absurd rfl hne
  | resets hr' _ => exact absurd hr' hr

/-- A command that ends with SESSION changed is OPEN or CLOSE. -/
theorem CommandEnded.open_or_close {i : Instr} {s t : State} (he : CommandEnded i s t) (hne : t.session ≠ s.session) :
    (i = .openSession ∧ t.session = .opened) ∨ (i = .closeSession ∧ t.session = .closed) := by
  rw [he.session] at hne ⊢
  exact sessionAfter_changes hne

/-- The session check of R161, which comes before the position check (R163). -/
theorem exec_notOpen {i : Instr} {s : State} (hi : i.isCommand = true) (ho : i ≠ .openSession) (hs : s.session = .closed) :
    exec i s = .next (s.afterFault .notOpen s.latched) := by
  obtain ⟨t, h⟩ := exec_answers_next i s
  cases exec_command_cases hi h with
  | notOpen _ _ ht => rw [h, ht]
  | badPosition hs' _ _ => simp [hs] at hs'
  | runs hs' _ _ => simp [ho, hs] at hs'

/-- The position check of R161. -/
theorem exec_badPosition {i : Instr} {s : State} (hi : i.isCommand = true) (hs : s.session = .opened)
    (hp : ¬ positionInChain s.params.n i) : exec i s = .next (s.afterFault .badPosition s.latched) := by
  obtain ⟨t, h⟩ := exec_answers_next i s
  cases exec_command_cases hi h with
  | notOpen _ hs' _ => simp [hs] at hs'
  | badPosition _ _ ht => rw [h, ht]
  | runs _ hp' _ => exact absurd hp' hp

/-- Settles O17: SESSION moves only where `exec_effect` and `step_effect` let a command end, and the checks answer a fault. -/
theorem sessionWritesAndChecks : Obligations.SessionWritesAndChecks := by
  refine ⟨fun i s t h hne => ?_, fun s t h hne hr => ?_, fun s t hr h => ?_, fun i s => exec_notOpen,
    fun p r v s hs hp => ⟨?_, ?_⟩⟩
  · have he := exec_session_change h hne
    exact ⟨he.busy, he.job, he.open_or_close hne⟩
  · obtain ⟨i, hi, he⟩ := step_session_change h hne hr
    have hoc := he.open_or_close hne
    refine ⟨he.busy, he.job, fun j hj => ?_, fun hj => ?_⟩
    · rcases hi with ⟨j', hj', rfl⟩ | ⟨hn, -⟩
      · obtain rfl : j = j' := Option.some.inj (hj.symm.trans hj')
        exact hoc
      · simp [hn] at hj
    · rcases hi with ⟨j', hj', -⟩ | ⟨-, w, hw, hd⟩
      · simp [hj] at hj'
      · refine ⟨w, hw, hoc.imp ?_ ?_⟩ <;> rintro ⟨rfl, ht⟩ <;> exact ⟨hd, ht⟩
  · rw [step_of_resetNext hr, Host.Outcome.next.injEq] at h
    subst h
    rfl
  · exact exec_badPosition rfl hs (Nat.not_lt.mpr hp)
  · exact exec_badPosition rfl hs (Nat.not_lt.mpr hp)

/-! ## The fault registers -/

/-- Settles O19: of the effects of a step, only taking a fault and a reset write the fault registers. -/
theorem faultRegistersChangeOnlyByFaultOrReset : Obligations.FaultRegistersChangeOnlyByFaultOrReset := by
  intro s t h hr
  cases step_effect h with
  | keeps _ hk | ends _ _ _ hk => exact .inl ⟨hk.faulted, hk.cause, hk.faultCmd⟩
  | faults c w hc hf hp ht => subst ht; exact .inr ⟨hf, rfl, hc, rfl, w, hp, rfl⟩
  | resets hr' _ => exact absurd hr' hr

/-! ## The reset values -/

/-- Settles O11: the fields of `State.resetOf`, and the chain at power-on, which lists no register. -/
theorem resetStateHasSpecValues : Obligations.ResetStateHasSpecValues :=
  fun _ => ⟨rfl, rfl, rfl, rfl, rfl, rfl, rfl, rfl, rfl, fun _ _ => rfl⟩

/-! ## What the host sees -/

theorem State.openBit_eq_true {s : State} : s.openBit = true ↔ s.session = .opened := by
  unfold State.openBit
  cases s.session <;> simp

/-- STATUS is CAUSE with the four bits SEL_DRIVEN, FAULTED, OPEN and BUSY appended below it (R34). -/
theorem State.status_eq_concat (s : State) :
    s.status = (((s.cause.code.concat s.lines.selDriven).concat s.faulted).concat s.openBit).concat s.busy := rfl

theorem State.status_busy (s : State) : s.status.getLsbD 0 = s.busy := by
  rw [s.status_eq_concat, BitVec.getLsbD_concat_zero]

theorem State.status_open (s : State) : s.status.getLsbD 1 = s.openBit := by
  rw [s.status_eq_concat, BitVec.getLsbD_concat_succ, BitVec.getLsbD_concat_zero]

theorem State.status_faulted (s : State) : s.status.getLsbD 2 = s.faulted := by
  rw [s.status_eq_concat, BitVec.getLsbD_concat_succ, BitVec.getLsbD_concat_succ, BitVec.getLsbD_concat_zero]

theorem State.status_selDriven (s : State) : s.status.getLsbD 3 = s.lines.selDriven := by
  rw [s.status_eq_concat, BitVec.getLsbD_concat_succ, BitVec.getLsbD_concat_succ, BitVec.getLsbD_concat_succ,
    BitVec.getLsbD_concat_zero]

theorem State.status_cause (s : State) : s.status.extractLsb' 4 4 = s.cause.code := by
  apply BitVec.eq_of_getLsbD_eq
  intro i hi
  rw [BitVec.getLsbD_extractLsb', decide_eq_true hi, Bool.true_and, Nat.add_comm, s.status_eq_concat]
  simp only [BitVec.getLsbD_concat_succ]

/-- N fits the 16 bits of CHAIN_LEN (R35). -/
theorem State.chainLen_toNat (s : State) : s.chainLen.toNat = s.params.n := by
  have hn := Config.Params.n_le s.params
  rw [State.chainLen, BitVec.toNat_ofNat, Nat.mod_eq_of_lt (by omega)]

theorem step_chainLen {s t : State} (h : step s = .next t) : t.chainLen = s.chainLen := by
  rw [State.chainLen, State.chainLen, step_params h]

/-- Settles O20, bit by bit; the codes of the causes are the table of R160. -/
theorem hostRegistersShowTheBlock : Obligations.HostRegistersShowTheBlock := by
  intro s
  refine ⟨s.status_busy, by rw [s.status_open, State.openBit_eq_true], s.status_faulted, s.status_selDriven,
    s.status_cause, ?_, rfl, State.cmdReady_eq_true, rfl, fun hinv hf => ?_, s.chainLen_toNat,
    Config.Params.n_pos s.params, Config.Params.n_le s.params, fun t h => ⟨step_params h, step_chainLen h⟩⟩
  · cases s.cause <;> rfl
  · obtain ⟨hcause, hcmd⟩ := hinv.noFault hf
    exact ⟨by rw [s.status_cause, hcause]; rfl, hcmd⟩

end Sys2Proof.Machine
end

section
/-! Reads of FONT and TEXT (20_memory.md R26, R46 to R49), the latch of the reference chain read register by register (R55 to R57), and
the statements that follow from them. -/

namespace Sys2Proof.Machine

/-! ## The latch of a whole pulse -/

/-- At the SelDeassert that ends a pulse of `n` frames the chain goes back between pulses, and every slot's frame is applied. -/
theorem Chain.take_selDeassert_frames {n : Nat} {c : Chain} {fs : List (Byte × Byte)}
    (hp : c.pulse = .opened (frameBytes fs)) (hn : fs.length = n) :
    c.take n .selDeassert = { c with pulse := .idle, regs := latchFrom c.regs 0 fs } := by
  simp [Chain.take, Chain.latch, hp, length_frameBytes, framesOf_frameBytes, hn]

/-- A latch of the frames from position 0 on: CHIPREG[k][r] is the value of slot k's frame where that frame names r and r is not 0x00. -/
theorem Chain.chipReg_latchFrom (c : Chain) (p : Pulse) (fs : List (Byte × Byte)) (k : Nat) (r : Byte) :
    Chain.chipReg { c with pulse := p, regs := latchFrom c.regs 0 fs } k r =
      match fs[k]? with
      | some f => if f.1 ≠ 0 ∧ f.1 = r then some f.2 else c.chipReg k r
      | none => c.chipReg k r := by
  rw [Chain.chipReg, cellAt_latchFrom, Nat.sub_zero]
  cases fs[k]? with
  | none => rfl
  | some f => simp only [Nat.zero_le, true_and, and_comm, Chain.chipReg]

theorem Chain.chipReg_take_selAssert (n : Nat) (c : Chain) (k : Nat) (r : Byte) :
    (c.take n .selAssert).chipReg k r = c.chipReg k r := rfl

theorem Chain.chipReg_take_xfer (n : Nat) (c : Chain) (b : Byte) (k : Nat) (r : Byte) :
    (c.take n (.xfer b)).chipReg k r = c.chipReg k r := by
  obtain ⟨pulse, regs, refused⟩ := c
  cases pulse <;> rfl

/-- Settles O29: the latch of the pulse's frames, read at one register. -/
theorem latchAppliesEachSlot : Obligations.LatchAppliesEachSlot := by
  refine ⟨fun n c frames k r hp hn => ?_, fun n c b k r =>
    ⟨c.chipReg_take_selAssert n k r, c.chipReg_take_xfer n b k r⟩⟩
  rw [Chain.take_selDeassert_frames hp hn]
  exact ⟨rfl, c.chipReg_latchFrom .idle frames k r⟩

/-! ## Reads of FONT and TEXT -/

/-- A FONT byte the host has not written during the command is as the host left it (R46). -/
theorem State.fontByte_of_notRaced {s : State} {a : Nat} (h : a ∉ s.racedFont) (tag : Nat) :
    s.fontByte tag a = s.font.readByte a := if_neg h

/-- A TEXT byte the host has not written during the command is as the host left it (R49). -/
theorem State.char_of_notRaced {s : State} {a : Nat} (h : a ∉ s.racedText) (tag : Nat) :
    s.char tag a = s.text.readByte a := if_neg h

theorem State.length_glyph (s : State) (tag : Nat) (ch : Byte) : (s.glyph tag ch).length = 8 := by simp [State.glyph]

/-- Glyph byte `c` is the FONT byte at `ch*8 + c` (R47). -/
theorem State.glyphByte_glyph (s : State) (tag : Nat) (ch : Byte) {c : Nat} (hc : c < 8) :
    glyphByte (s.glyph tag ch) c = s.fontByte tag (ch.toNat * 8 + c) := by
  simp [glyphByte, State.glyph, hc]

/-- Settles O24: byte by byte, the glyph and the font port read the same FONT byte. -/
theorem glyphLookupReadsEightBytes : Obligations.GlyphLookupReadsEightBytes := by
  intro s tag ch hfont
  have hbyte : ∀ c < 8, glyphByte (s.glyph tag ch) c = s.font.readByte (ch.toNat * 8 + c) := fun c hc => by
    rw [s.glyphByte_glyph tag ch hc, State.fontByte_of_notRaced (by simp [hfont])]
  refine ⟨s.length_glyph tag ch, fun c hc => ⟨hbyte c hc, ?_⟩, fun a => ⟨rfl, fun htext => ?_⟩⟩
  · rw [s.fontPort_byte ch hc, hbyte c hc]
  · rw [State.char_of_notRaced (by simp [htext]), State.textPort]

end Sys2Proof.Machine
end

section
/-! Decoding in the fields of R71, the acceptance of a word by an idle block, and the statements of 30_encoding.md R72, R74 and R76
that follow from them. -/

namespace Sys2Proof

/-! ## The fields of a word as operands -/

theorem regField_eq_ofNat (w : CommandWord) : regField w = BitVec.ofNat 8 (w.toNat / 2 ^ 40 % 256) := by
  rw [← regField_toNat, BitVec.ofNat_toNat, BitVec.setWidth_eq]

theorem valField_eq_ofNat (w : CommandWord) : valField w = BitVec.ofNat 8 (w.toNat / 2 ^ 32 % 256) := by
  rw [← valField_toNat, BitVec.ofNat_toNat, BitVec.setWidth_eq]

/-- `sval` of R72: from 32768 on, the offset field stands for a negative number. -/
theorem ofsOperand_eq (w : CommandWord) :
    ofsOperand w =
      if w.toNat % 65536 < 32768 then ((w.toNat % 65536 : Nat) : Int) else ((w.toNat % 65536 : Nat) : Int) - 65536 := by
  rw [ofsOperand, BitVec.toInt_eq_toNat_cond, ofsField_toNat]
  split <;> split <;> omega

/-- The instruction that a legal opcode makes of the fields of R71: of each field, the opcode uses it or drops it (R74). -/
def Opcode.ofFields (op : Opcode) (pos reg val : BitVec 8) (len ofs : BitVec 16) : Instr :=
  match op with
  | .opOpen => .openSession
  | .opClose => .closeSession
  | .opSetIntensity => .setIntensity val
  | .opRenderText => .renderText len.toNat
  | .opRenderScroll => .renderScroll len.toNat ofs.toInt
  | .opSendPos => .sendPos pos.toNat reg val
  | .opSendAll => .sendAll reg val
  | .opRenderChar => .renderChar pos.toNat val

theorem assembleOperands_eq_ofFields (op : Opcode) (w : CommandWord) :
    assembleOperands op w = op.ofFields (posField w) (regField w) (valField w) (lenField w) (ofsField w) := by
  cases op <;> rfl

/-- Whatever its operand fields hold, a word of an opcode decodes to that opcode's row of the table. -/
theorem row_assembleOperands (op : Opcode) (w w' : CommandWord) :
    (assembleOperands op w).row = (assembleOperands op w').row := by
  cases op <;> rfl

/-! ## Decoding by the number in OP -/

theorem decodeCommand_of_number {w : CommandWord} (op : Opcode) (h : (opField w).toNat = op.number)
    (hr : (rsvField w).toNat = 0) : decodeCommand w = .instr (assembleOperands op w) :=
  decodeCommand_of_opcode (by rw [← h, BitVec.ofNat_toNat, BitVec.setWidth_eq]) (BitVec.eq_of_toNat_eq hr)

theorem decodeCommand_commandWord (op : Opcode) (pos reg val : BitVec 8) (len ofs : BitVec 16) :
    decodeCommand (commandWord (BitVec.ofNat 4 op.number) pos reg val len ofs) =
      .instr (op.ofFields pos reg val len ofs) := by
  rw [decodeCommand_of_opcode (opField_commandWord ..) (rsvField_commandWord ..), assembleOperands_eq_ofFields,
    posField_commandWord, regField_commandWord, valField_commandWord, lenField_commandWord, ofsField_commandWord]

/-- Words of one command up to the fields that its opcode drops decode alike. -/
theorem decodeCommand_commandWord_congr (op : Opcode) {pos reg val pos' reg' val' : BitVec 8} {len ofs len' ofs' : BitVec 16}
    (h : op.ofFields pos reg val len ofs = op.ofFields pos' reg' val' len' ofs') :
    decodeCommand (commandWord (BitVec.ofNat 4 op.number) pos reg val len ofs) =
      decodeCommand (commandWord (BitVec.ofNat 4 op.number) pos' reg' val' len' ofs') := by
  rw [decodeCommand_commandWord, decodeCommand_commandWord, h]

/-! ## What OP and RSV alone decide -/

theorem opField_congr {w w' : CommandWord} (h : w.toNat / 2 ^ 56 = w'.toNat / 2 ^ 56) : opField w = opField w' := by
  apply BitVec.eq_of_toNat_eq
  rw [opField_toNat, opField_toNat]
  omega

theorem rsvField_congr {w w' : CommandWord} (h : w.toNat / 2 ^ 56 = w'.toNat / 2 ^ 56) : rsvField w = rsvField w' := by
  apply BitVec.eq_of_toNat_eq
  rw [rsvField_toNat, rsvField_toNat, h]

theorem decodeCommand_illegal_congr {w w' : CommandWord} (ho : opField w = opField w') (hr : rsvField w = rsvField w')
    {c : Illegal} (h : decodeCommand w = .illegal c) : decodeCommand w' = .illegal c := by
  cases c with
  | illegalOpcode => rwa [decodeCommand_illegalOpcode, ho, ← decodeCommand_illegalOpcode] at h
  | reservedBits => rwa [decodeCommand_reservedBits, ho, hr, ← decodeCommand_reservedBits] at h

theorem decodeCommand_instr_congr {w w' : CommandWord} (ho : opField w = opField w') (hr : rsvField w = rsvField w')
    {i : Instr} (h : decodeCommand w = .instr i) : ∃ i', decodeCommand w' = .instr i' ∧ i.row = i'.row := by
  obtain ⟨op, hop, hrsv, rfl⟩ := decodeCommand_eq_instr.1 h
  exact ⟨assembleOperands op w', decodeCommand_eq_instr.2 ⟨op, ho ▸ hop, hr ▸ hrsv, rfl⟩, row_assembleOperands op w w'⟩

end Sys2Proof

namespace Sys2Proof.Machine

/-! ## Accepting a word -/

/-- The block has latched the word `w` and is busy with it (R24, R30). -/
def State.latch (s : State) (w : CommandWord) : State := { s with busy := true, latched := w }

theorem executeWord_of_instr {w : CommandWord} {i : Instr} (h : decodeCommand w = .instr i) (s : State) :
    executeWord w s = exec i (s.latch w) := by
  simp only [executeWord, h, State.latch]

theorem isCommand_of_decodeCommand {w : CommandWord} {i : Instr} (h : decodeCommand w = .instr i) : i.isCommand = true := by
  obtain ⟨op, -, -, rfl⟩ := decodeCommand_eq_instr.1 h
  exact isCommand_assembleOperands op w

/-- The step in which an idle block accepts the word presented (R24). -/
theorem step_of_accepts {s : State} {w : CommandWord} (h : s.accepts w) : step s = executeWord w { s with port := none } := by
  obtain ⟨hs, hr, hj, hb, hf, hp⟩ := h
  simp [step, scheduledTurn, hs, blockTurn, hr, hj, State.cmdReady, hb, hf, hp]

/-- The block would accept any other word in its place. -/
theorem State.accepts.other {s : State} {w : CommandWord} (h : s.accepts w) (w' : CommandWord) :
    ({ s with port := some w' } : State).accepts w' := by
  obtain ⟨hs, hr, hj, hb, hf, -⟩ := h
  exact ⟨hs, hr, hj, hb, hf, rfl⟩

/-! ## The latched word -/

/-- A command that the transport completes leaves nothing of the word it was latched from. -/
theorem State.perform_latch {s : State} (hg : s.transportCompletes) (i : Instr) (w : CommandWord) :
    (s.latch w).perform i (instrEvents i (s.latch w)) = s.afterCommand (instrEvents i s) (sessionAfter i s.session) := by
  have he : instrEvents i (s.latch w) = instrEvents i s := instrEvents_congr i rfl rfl rfl rfl rfl rfl
  rw [State.perform_complete (s := s.latch w) hg, he]
  rfl

/-- Where the transport completes every event, a command takes from its latched word only what a fault records (R162). -/
theorem exec_latch {i : Instr} {s t : State} {w : CommandWord} (hi : i.isCommand = true) (hg : s.transportCompletes)
    (hf : s.faulted = false) (h : exec i (s.latch w) = .next t) (w' : CommandWord) :
    exec i (s.latch w') = .next { t with faultCmd := if t.faulted then w' else t.faultCmd } := by
  cases exec_command_cases hi h with
  | notOpen ho hs ht => subst ht; exact exec_notOpen hi ho hs
  | badPosition hs hp ht => subst ht; exact exec_badPosition (s := s.latch w') hi hs hp
  | runs hs hp ht =>
    rw [State.perform_latch hg] at ht
    have hk : ¬ t.faulted = true := by rw [ht]; simp [State.afterCommand, hf]
    rw [exec_runs (s := s.latch w') hi hs hp, State.perform_latch hg, ← ht, if_neg hk]

/-- Two words of one command have one effect, but for the word that a fault records (R74, R162). -/
theorem step_of_same_command {s t : State} {w w' : CommandWord} {i : Instr} (ha : s.accepts w) (hg : s.transportCompletes)
    (hd : decodeCommand w = .instr i) (hd' : decodeCommand w' = .instr i) (h : step s = .next t) :
    step { s with port := some w' } = .next { t with faultCmd := if t.faulted then w' else t.faultCmd } := by
  rw [step_of_accepts ha, executeWord_of_instr hd] at h
  rw [step_of_accepts (ha.other w'), executeWord_of_instr hd']
  obtain ⟨-, -, -, -, hf, -⟩ := ha
  exact exec_latch (s := { s with port := none }) (isCommand_of_decodeCommand hd) hg hf h w'

/-! ## The statements -/

/-- Settles O3: the numbers of the statement are the decoder's fields and operands, and the opcode's number decides the rest. -/
theorem decodeFollowsFieldTable : Obligations.DecodeFollowsFieldTable := by
  intro w op rsv p r v len x o
  have hop : (opField w).toNat = op := opField_toNat w
  have hrsv : (rsvField w).toNat = rsv := rsvField_toNat w
  have hp : posOperand w = p := posField_toNat w
  have hr : regField w = r := regField_eq_ofNat w
  have hv : valField w = v := valField_eq_ofNat w
  have hlen : lenOperand w = len := lenField_toNat w
  have ho : ofsOperand w = o := ofsOperand_eq w
  clear_value op rsv p r v len o
  subst hop hrsv hp hr hv hlen ho
  refine ⟨decodeCommand_illegalOpcode.2, fun h hr => decodeCommand_reservedBits.2 ⟨by omega, fun h0 => hr (by rw [h0]; rfl)⟩,
    decodeCommand_of_number .opOpen, decodeCommand_of_number .opClose, decodeCommand_of_number .opSetIntensity,
    decodeCommand_of_number .opRenderText, decodeCommand_of_number .opRenderScroll, decodeCommand_of_number .opSendPos,
    decodeCommand_of_number .opSendAll, decodeCommand_of_number .opRenderChar⟩

/-- Settles O4: an opcode's instruction drops its unused fields, OP and RSV decide the row, and of the latched word only a fault
keeps anything. -/
theorem unusedFieldsAreIgnored : Obligations.UnusedFieldsAreIgnored := by
  refine ⟨fun op pos reg val pos' reg' val' len ofs len' ofs' => ⟨?_, ?_, ?_, ?_, ?_, ?_, ?_⟩, fun w w' h => ?_,
    fun s t w w' i ha hg hd hd' => step_of_same_command ha hg hd hd'⟩
  · rintro (rfl | rfl)
    · exact decodeCommand_commandWord_congr .opOpen rfl
    · exact decodeCommand_commandWord_congr .opClose rfl
  · rintro rfl; exact decodeCommand_commandWord_congr .opSetIntensity rfl
  · rintro rfl; exact decodeCommand_commandWord_congr .opRenderText rfl
  · rintro rfl; exact decodeCommand_commandWord_congr .opRenderScroll rfl
  · rintro rfl; exact decodeCommand_commandWord_congr .opSendPos rfl
  · rintro rfl; exact decodeCommand_commandWord_congr .opSendAll rfl
  · rintro rfl; exact decodeCommand_commandWord_congr .opRenderChar rfl
  · have ho := opField_congr h
    have hr := rsvField_congr h
    cases hd : decodeCommand w with
    | illegal c => simp only [decodeCommand_illegal_congr ho hr hd]
    | instr i =>
      obtain ⟨i', hd', hrow⟩ := decodeCommand_instr_congr ho hr hd
      simpa only [hd'] using hrow

end Sys2Proof.Machine
end

section
/-! The frames of the two pulse primitives by slot, the lines a pulse leaves, and the statement of 41_register_protocol.md R90, R91
and R93 that follows from them. -/

namespace Sys2Proof.Machine

/-! ## The frames by slot -/

theorem length_framesAt (n p : Nat) (r v : Byte) : (framesAt n p r v).length = n := by simp [framesAt]

/-- The frame in a slot of `framesAt`: the real one in slot `p`, no-ops elsewhere. -/
theorem framesAt_slot {n j : Nat} (hj : j < n) (p : Nat) (r v : Byte) :
    (framesAt n p r v)[j]? = some (if j = p then (r, v) else (0, 0)) := by
  simp [framesAt, hj]

/-- The frames in the order R90 emits them are the frames by slot. -/
theorem positionFrames_eq_framesAt {n p : Nat} (h : p < n) (r v : Byte) : positionFrames n p r v = framesAt n p r v := by
  have hlen : (positionFrames n p r v).length = (framesAt n p r v).length := by
    rw [length_positionFrames h, length_framesAt]
  refine List.ext_getElem? fun j => ?_
  by_cases hj : j < n
  · rw [positionFrames_slot h r v hj, framesAt_slot hj]
  · rw [← length_framesAt n p r v] at hj
    rw [List.getElem?_eq_none (by omega), List.getElem?_eq_none (by omega)]

theorem sendToPosition_eq_pulseOf_framesAt {n p : Nat} (h : p < n) (r v : Byte) :
    sendToPosition n p r v = pulseOf (framesAt n p r v) := by
  rw [sendToPosition_eq_pulseOf, positionFrames_eq_framesAt h]

/-! ## The lines and the chain -/

theorem State.lines_emitAll (s : State) (evs : List Event) : (s.emitAll evs).lines = evs.foldl Lines.take s.lines := by
  rw [State.emitAll_eq]

theorem State.chain_emitAll (s : State) (evs : List Event) :
    (s.emitAll evs).chain = evs.foldl (Chain.take s.params.n) s.chain := by
  rw [State.emitAll_eq]

/-- Of the lines, a pulse of any number of frames leaves SEL_LEVEL at 1 and the others as they were (R31, R32). -/
theorem State.lines_emitAll_pulseOf (s : State) (fs : List (Byte × Byte)) :
    (s.emitAll (pulseOf fs)).lines = { s.lines with selLevel := true } := by
  rw [State.lines_emitAll, lines_after_pulse]

/-! ## The statement -/

/-- Settles O33: both primitives are pulses, R90's order of frames is the one by slot, and a pulse moves SEL_LEVEL only. -/
theorem pulsePrimitivesFillTheirSlots : Obligations.PulsePrimitivesFillTheirSlots := by
  refine ⟨fun n p r v h => ⟨sendToPosition_eq_pulseOf_framesAt h r v, length_framesAt n p r v, fun j hj =>
    framesAt_slot hj p r v⟩, sendToAll_eq_pulseOf, fun s p r v => ⟨?_, ?_, fun evs => ?_⟩⟩
  · rw [sendToPosition_eq_pulseOf, State.lines_emitAll_pulseOf]
  · rw [sendToAll_eq_pulseOf, State.lines_emitAll_pulseOf]
  · rw [State.lines_emitAll, State.chain_emitAll, State.emitAll_eq]

end Sys2Proof.Machine
end

section
/-! The transform of the rotator, bit by bit: the statement of 42_glyph_rotator.md R105, from the bit laws of `rotByte` in
Laws/Rotator.lean. -/

namespace Sys2Proof.Machine

/-- Each bit of each byte of `rot g`, by the bit of `g` it comes from. -/
theorem getLsbD_glyphByte_rot (g : Glyph) {col k : Nat} (hcol : col < 8) (hk : k < 8) :
    (glyphByte (rot g) col).getLsbD k = (glyphByte g (7 - k)).getLsbD col := by
  rw [glyphByte_rot g hcol, getLsbD_rotByte g col k hk]

/-- Settles O38: bit `k` of byte `col` comes from glyph byte `7 - k`, and `7 - (7 - i)` is `i`. -/
theorem rotatorMovesEachBit : Obligations.RotatorMovesEachBit := by
  intro g col i hcol hi
  have hback : 7 - (7 - i) = i := by omega
  refine ⟨length_rot g, ?_⟩
  rw [getLsbD_glyphByte_rot g hcol (by omega), hback]

end Sys2Proof.Machine
end

section
/-! The compositor: the offset's floor division, the glyphs of its three slots as the host left them, and the window cut from the
scratch buffer (43_scroll_compositor.md R121 to R124). -/

namespace Sys2Proof.Machine

/-! ## The offset -/

/-- The two parts of the offset as a quotient and a remainder. -/
theorem subOffset_eq_emod (o : Int) : (subOffset o : Int) = o % 8 := by
  simp only [subOffset, firstGlyphIndex]
  omega

theorem firstGlyphIndex_add_subOffset (o : Int) : 8 * firstGlyphIndex o + subOffset o = o := by
  rw [subOffset_eq_emod, firstGlyphIndex, Int.mul_ediv_add_emod]

theorem subOffset_le (o : Int) : subOffset o ≤ 7 := by
  have h := subOffset_eq_emod o
  omega

/-- Settles O51: the quotient and the remainder of the offset by 8. -/
theorem offsetIsSplitByFloor : Obligations.OffsetIsSplitByFloor :=
  ⟨fun o => ⟨firstGlyphIndex_add_subOffset o, subOffset_le o⟩, by decide⟩

/-! ## The slots' glyphs -/

/-- A lookup of a quiet host's font reads the glyph the host left there, whatever the lookup's tag. -/
theorem State.glyph_of_quiet {s : State} (h : s.quiet) (tag : Nat) (ch : Byte) : s.glyph tag ch = hostGlyph s ch := by
  obtain ⟨hfont, -⟩ := h
  exact List.map_congr_left fun c _ => State.fontByte_of_notRaced (by simp [hfont]) tag

theorem State.char_of_quiet {s : State} (h : s.quiet) (tag i : Nat) : s.char tag i = s.text.readByte i := by
  obtain ⟨-, htext⟩ := h
  exact State.char_of_notRaced (by simp [htext]) tag

/-- `g(c)` of R122 with a quiet host. -/
theorem charGlyph_of_quiet {s : State} (h : s.quiet) (len tag : Nat) (c : Int) :
    charGlyph s len tag c = if 0 ≤ c ∧ c < len then hostGlyph s (s.text.readByte c.toNat) else zero8 := by
  rw [charGlyph, s.char_of_quiet h, s.glyph_of_quiet h]

theorem length_charGlyph (s : State) (len tag : Nat) (c : Int) : (charGlyph s len tag c).length = 8 := by
  unfold charGlyph
  split
  · exact s.length_glyph tag _
  · rfl

/-! ## The scratch buffer and the window -/

/-- Bytes of three slots of 8, slot by slot. -/
theorem glyphByte_append_three {l m r : Glyph} (hl : l.length = 8) (hm : m.length = 8) {c : Nat} (hc : c < 8) :
    glyphByte (l ++ m ++ r) c = glyphByte l c ∧ glyphByte (l ++ m ++ r) (8 + c) = glyphByte m c ∧
    glyphByte (l ++ m ++ r) (16 + c) = glyphByte r c := by
  have hlm : (l ++ m).length = 16 := by rw [List.length_append, hl, hm]
  refine ⟨?_, ?_, ?_⟩
  · rw [glyphByte, List.append_assoc, List.getD_append _ _ _ _ (by omega), glyphByte]
  · rw [glyphByte, List.getD_append _ _ _ _ (by omega), List.getD_append_right _ _ _ _ (by omega), hl,
      Nat.add_sub_cancel_left, glyphByte]
  · rw [glyphByte, List.getD_append_right _ _ _ _ (by omega), hlm, Nat.add_sub_cancel_left, glyphByte]

theorem length_scratch (s : State) (len : Nat) (o : Int) (k : Nat) : (scratch s len o k).length = 24 := by
  simp [scratch, length_charGlyph]

theorem glyphByte_scratch (s : State) (len : Nat) (o : Int) (k : Nat) {c : Nat} (hc : c < 8) :
    glyphByte (scratch s len o k) c = glyphByte (charGlyph s len (lookupTag k 0) (firstGlyphIndex o + k - 1)) c ∧
    glyphByte (scratch s len o k) (8 + c) = glyphByte (charGlyph s len (lookupTag k 1) (firstGlyphIndex o + k)) c ∧
    glyphByte (scratch s len o k) (16 + c) = glyphByte (charGlyph s len (lookupTag k 2) (firstGlyphIndex o + k + 1)) c :=
  glyphByte_append_three (length_charGlyph ..) (length_charGlyph ..) hc

/-- The cut stays inside the scratch buffer: it ends at `8 + 7 + 8 = 23` at the latest. -/
theorem length_window (s : State) (len : Nat) (o : Int) (k : Nat) : (window s len o k).length = 8 := by
  have hsub := subOffset_le o
  rw [window, List.length_take, List.length_drop, length_scratch]
  omega

theorem glyphByte_window (s : State) (len : Nat) (o : Int) (k : Nat) {j : Nat} (hj : j < 8) :
    glyphByte (window s len o k) j = glyphByte (scratch s len o k) (8 + subOffset o + j) := by
  simp [glyphByte, window, hj]

/-- Settles O52: the slots of the scratch buffer by `charGlyph`, which a quiet host's memories determine, and the cut by its bounds. -/
theorem windowIsCutFromScratch : Obligations.WindowIsCutFromScratch := by
  intro s len o k hquiet g a
  refine ⟨length_scratch s len o k, fun c hc => ?_, length_window s len o k, fun j hj => glyphByte_window s len o k hj⟩
  have hslots := glyphByte_scratch s len o k hc
  simp only [charGlyph_of_quiet hquiet] at hslots
  exact hslots

end Sys2Proof.Machine
end

section
/-! The block that waits: after a fault until reset (60_exceptions.md R164), and for a transport that has stalled (R167). Its own
turn changes nothing, and the turns of the other agents, short of a reset, leave the block as it is. -/

namespace Sys2Proof.Machine

/-! ## What the invariant says of a busy block -/

/-- BUSY = 1 exactly while a command is in execution (R30). -/
theorem State.Inv.exists_job {s : State} (hi : s.Inv) (hb : s.busy = true) : ∃ j, s.job = some j :=
  Option.isSome_iff_exists.mp (hi.busyIff ▸ hb)

theorem State.Inv.not_faulted_of_busy {s : State} (hi : s.Inv) (hb : s.busy = true) : s.faulted = false := by
  obtain ⟨j, hj⟩ := hi.exists_job hb
  rw [Bool.eq_false_iff]
  intro hf
  simp [(hi.fault hf).2] at hj

/-- The invariant does not speak of the schedule. -/
theorem State.Inv.popped {s : State} (hi : s.Inv) : s.popped.Inv :=
  { hi with
    jobInv := fun j hj =>
      have hji := hi.jobInv j hj
      have he : instrEvents j.instr s.popped = instrEvents j.instr s := instrEvents_congr _ rfl rfl rfl rfl rfl rfl
      { hji with
        unfinished := he ▸ hji.unfinished
        phase := he ▸ hji.phase } }

/-! ## When the block's turn changes nothing -/

/-- Whatever the block does in its turn, the state stays the same. -/
def State.BlockWaits (s : State) : Prop := ∀ t, BlockCase s t → t = s

/-- A command with events left does not end. -/
theorem State.settle_of_unfinished {s : State} {j : Job} {total : Nat} (hj : s.job = some j) (hd : j.done < total) :
    s.settle total = s := by
  rcases s.settle_cases total with h | ⟨k, hk, hle, -⟩
  · exact h
  · obtain rfl : j = k := Option.some.inj (hj.symm.trans hk)
    exact absurd hd (Nat.not_lt.mpr hle)

/-- After a fault no command is in execution, and none is accepted since `cmd_ready` is 0 (R164). -/
theorem State.Inv.blockWaits_of_faulted {s : State} (hi : s.Inv) (hf : s.faulted = true) : s.BlockWaits := by
  have hnone := (hi.fault hf).2
  intro t h
  cases h with
  | waits ht _ => exact ht
  | illegal _ _ _ _ hc | accepts _ _ _ _ hc => simp [State.cmdReady, hf] at hc
  | event _ _ _ _ hj | frame _ _ _ _ _ hj | ends _ _ hj => simp [hnone] at hj

/-- The transport takes no event of the command in execution, so the command neither goes on nor ends (R167). -/
theorem State.Inv.blockWaits_of_stalled {s : State} (hi : s.Inv) (hb : s.busy = true) (hg : s.grant = some 0) :
    s.BlockWaits := by
  intro t h
  cases h with
  | waits ht _ => exact ht
  | illegal _ _ _ _ hc | accepts _ _ _ _ hc => simp [State.cmdReady, hb] at hc
  | event j _ _ _ hj _ ht =>
    rw [ht, State.transfer_stalled hg, State.settle_of_unfinished hj (hi.jobInv j hj).unfinished]
  | frame _ _ _ _ _ _ _ ht => rw [ht, State.transfer_stalled hg]
  | ends j _ hj hl _ => exact absurd (hi.jobInv j hj).unfinished (Nat.not_lt.mpr hl)

/-! ## The steps of a block that waits -/

theorem executeWord_answers_next (w : CommandWord) (s : State) : ∃ t, executeWord w s = .next t := by
  rw [executeWord]
  split
  · exact ⟨_, rfl⟩
  · exact exec_answers_next ..

theorem continueJob_answers_next (j : Job) (s : State) : ∃ t, continueJob j s = .next t := by
  rw [continueJob]
  split
  · exact ⟨_, rfl⟩
  · exact ⟨_, rfl⟩
  · split
    · exact exec_answers_next ..
    · exact ⟨_, rfl⟩

theorem blockTurn_answers_next (s : State) : ∃ t, blockTurn s = .next t := by
  rw [blockTurn]
  split
  · exact ⟨s, rfl⟩
  · split
    · exact continueJob_answers_next ..
    · split
      · split
        · exact ⟨s, rfl⟩
        · exact executeWord_answers_next ..
      · exact ⟨s, rfl⟩

theorem step_of_blockWaits {s : State} (hw : s.BlockWaits) (hs : s.sched = []) : step s = .next s := by
  obtain ⟨t, ht⟩ := blockTurn_answers_next s
  rw [step, scheduledTurn, hs]
  exact ht.trans (congrArg _ (hw t (blockTurn_cases ht)))

/-- A state that a step leaves as it is is the answer of every run from it. -/
theorem core_run_of_step_self {s : State} (h : step s = .next s) (k : Nat) : Sys2Proof.core.run k s = .next s := by
  induction k with
  | zero => exact core_run_zero s
  | succ k ih => rw [core_run_succ k h, ih]

/-- The parameters, the elements of 10_state.md R28, the command in execution and the trace are those of `s`. -/
structure BlockKept (s t : State) : Prop extends FaultRegistersKept s t where
  session : t.session = s.session
  busy : t.busy = s.busy
  lines : t.lines = s.lines
  job : t.job = s.job
  trace : t.trace = s.trace

/-- STATUS shows nothing but elements of R28 (R34). -/
theorem BlockKept.status {s t : State} (h : BlockKept s t) : t.status = s.status := by
  simp only [State.status, State.openBit, h.cause, h.lines, h.faulted, h.session, h.busy]

theorem BlockKept.refl (s : State) : BlockKept s s := ⟨⟨rfl, rfl, rfl, rfl⟩, rfl, rfl, rfl, rfl, rfl⟩

theorem blockKept_hostWriteFont (s : State) (a : BitVec 11) (b : Byte) : BlockKept s (s.hostWriteFont a b) := by
  unfold State.hostWriteFont
  dsimp only
  split <;> exact ⟨⟨rfl, rfl, rfl, rfl⟩, rfl, rfl, rfl, rfl, rfl⟩

theorem blockKept_hostWriteText (s : State) (a : BitVec 16) (b : Byte) : BlockKept s (s.hostWriteText a b) := by
  unfold State.hostWriteText
  dsimp only
  split <;> exact ⟨⟨rfl, rfl, rfl, rfl⟩, rfl, rfl, rfl, rfl, rfl⟩

@[simp] theorem State.hostWriteFont_port (s : State) (a : BitVec 11) (b : Byte) : (s.hostWriteFont a b).port = s.port := by
  unfold State.hostWriteFont
  cases s.busy <;> rfl

@[simp] theorem State.hostWriteText_port (s : State) (a : BitVec 16) (b : Byte) : (s.hostWriteText a b).port = s.port := by
  unfold State.hostWriteText
  cases s.busy <;> rfl

/-- Taking the turn off the schedule leaves the block as it is. -/
theorem BlockKept.of_popped {s t : State} (h : BlockKept s.popped t) : BlockKept s t :=
  { (faultRegistersKept_popped s).trans h.toFaultRegistersKept with
    session := h.session, busy := h.busy, lines := h.lines, job := h.job, trace := h.trace }

/-- While the block waits only a reset touches it, whatever agent moves. -/
theorem blockKept_of_blockWaits {s t : State} (hw : s.popped.BlockWaits) (hr : ¬ s.resetNext) (h : step s = .next t) :
    BlockKept s t := by
  refine BlockKept.of_popped ?_
  cases step_cases h with
  | block _ hb => rw [hw t hb]; exact .refl _
  | writesFont a b _ _ ht => rw [ht]; exact blockKept_hostWriteFont _ a b
  | writesText a b _ _ ht => rw [ht]; exact blockKept_hostWriteText _ a b
  | asserts rest hs _ => exact absurd ⟨rest, hs⟩ hr
  | presents _ _ _ ht | withdraws _ _ ht | releases _ _ ht | grants _ _ _ ht | foreign _ _ ht =>
    rw [ht]
    exact ⟨⟨rfl, rfl, rfl, rfl⟩, rfl, rfl, rfl, rfl, rfl⟩

/-- While the block waits it accepts no word: only the host moves the port (R24). -/
theorem port_of_blockWaits {s t : State} (hw : s.popped.BlockWaits) (hm : ¬ s.hostMovesPort) (h : step s = .next t) :
    t.port = s.port := by
  cases step_cases h with
  | block _ hb => rw [hw t hb]; rfl
  | presents w rest hs _ => exact absurd (.inl ⟨w, rest, hs⟩) hm
  | withdraws rest hs _ => exact absurd (.inr ⟨rest, hs⟩) hm
  | writesFont a b _ _ ht => rw [ht]; exact State.hostWriteFont_port _ a b
  | writesText a b _ _ ht => rw [ht]; exact State.hostWriteText_port _ a b
  | asserts _ _ ht | releases _ _ ht | grants _ _ _ ht | foreign _ _ ht => rw [ht]; rfl

/-! ## The faulted block and the stalled transport -/

/-- Settles O18: after a fault the block waits, so every step short of a reset keeps it. -/
theorem faultedBlockIsQuiescent : Obligations.FaultedBlockIsQuiescent := by
  refine ⟨fun s t hi hf hr h => ?_, fun s hi hf hs => step_of_blockWaits (hi.blockWaits_of_faulted hf) hs⟩
  have hw : s.popped.BlockWaits := hi.popped.blockWaits_of_faulted hf
  have hk : BlockKept s t := blockKept_of_blockWaits hw hr h
  have hft : t.faulted = true := hk.faulted.trans hf
  exact ⟨by simp [State.cmdReady, hf], by simp [State.cmdReady, hft], fun hm => port_of_blockWaits hw hm h, hk.trace,
    hk.session, hk.busy, hft, hk.cause, hk.faultCmd, hk.lines, hk.job.trans (hi.fault hf).2, hk.status, step_chainLen h⟩

/-- Settles O57: with a stalled transport the block waits, so every step short of a reset keeps it, and the reset is that of
`step_of_resetNext`. -/
theorem stalledTransportHangs : Obligations.StalledTransportHangs := by
  refine ⟨fun s k hi hb hg hs => ?_, fun s t hi hb hg h => ⟨fun hr => ?_, fun hr => ?_⟩⟩
  · have hstep : step s = .next s := step_of_blockWaits (hi.blockWaits_of_stalled hb hg) hs
    exact ⟨hstep, hi.not_faulted_of_busy hb, core_run_of_step_self hstep k⟩
  · have hk : BlockKept s t := blockKept_of_blockWaits (hi.popped.blockWaits_of_stalled hb hg) hr h
    exact ⟨hk.busy.trans hb, hk.faulted.trans (hi.not_faulted_of_busy hb), hk.trace, hk.job⟩
  · rw [step_of_resetNext hr, Host.Outcome.next.injEq] at h
    subst h
    exact ⟨rfl, rfl, rfl, rfl⟩

end Sys2Proof.Machine
end

section
/-! Encoding: the words of the 22 rows and what they decode to, the fixed bits of a decoded word, and the two illegal classes
(30_encoding.md sections 1 and 2). -/

namespace Sys2Proof

/-! ## From an instruction to its word and back -/

/-- The word composed of an opcode and fields decodes to what the opcode makes of the fields. -/
theorem decodeWords_commandWord (op : Opcode) (pos reg val : BitVec 8) (len ofs : BitVec 16) :
    decodeWords (.command (commandWord (BitVec.ofNat 4 op.number) pos reg val len ofs)) =
      some (op.ofFields pos reg val len ofs) := by
  simp only [decodeWords, decodeCommand_commandWord]

theorem decodeWords_encode {i : Instr} (h : i.wellFormed = true) : decodeWords (encode i) = some i := by
  cases i with
  | openSession => exact decodeWords_commandWord .opOpen ..
  | closeSession => exact decodeWords_commandWord .opClose ..
  | setIntensity level => exact decodeWords_commandWord .opSetIntensity ..
  | renderText len =>
    have hlen : len < 65536 := of_decide_eq_true h
    refine (decodeWords_commandWord .opRenderText ..).trans ?_
    rw [Opcode.ofFields, BitVec.toNat_ofNat, Nat.mod_eq_of_lt hlen]
  | renderScroll len ofs =>
    simp only [Instr.wellFormed, Bool.and_eq_true, decide_eq_true_eq] at h
    obtain ⟨⟨hlen, hlow⟩, hhigh⟩ := h
    refine (decodeWords_commandWord .opRenderScroll ..).trans ?_
    rw [Opcode.ofFields, BitVec.toNat_ofNat, Nat.mod_eq_of_lt hlen, BitVec.toInt_ofInt,
      Int.bmod_eq_of_le (by omega) (by omega)]
  | sendPos pos reg val =>
    have hpos : pos < 256 := of_decide_eq_true h
    refine (decodeWords_commandWord .opSendPos ..).trans ?_
    rw [Opcode.ofFields, BitVec.toNat_ofNat, Nat.mod_eq_of_lt hpos]
  | sendAll reg val => exact decodeWords_commandWord .opSendAll ..
  | renderChar pos code =>
    have hpos : pos < 256 := of_decide_eq_true h
    refine (decodeWords_commandWord .opRenderChar ..).trans ?_
    rw [Opcode.ofFields, BitVec.toNat_ofNat, Nat.mod_eq_of_lt hpos]
  | _ =>
    simp only [encode, decodeWords, decodeFrame, frameReg_frameWord, frameVal_frameWord]
    rfl

theorem wordsOfBits_command (w : CommandWord) : wordsOfBits 64 w.toNat = .command w := by
  simp [wordsOfBits, Nat.mod_eq_of_lt w.isLt]

theorem wordsOfBits_frame (w : FrameWord) : wordsOfBits 16 w.toNat = .frame w := by
  simp [wordsOfBits, Nat.mod_eq_of_lt w.isLt]

/-- The word of an instruction, read back from the number of its row's width. -/
theorem wordsOfBits_encode (i : Instr) : wordsOfBits i.row.nbits (encode i).toNat = encode i := by
  cases i with
  | openSession | closeSession | setIntensity | renderText | renderScroll | sendPos | sendAll | renderChar =>
    exact wordsOfBits_command _
  | _ => exact wordsOfBits_frame _

/-- Settles O1: the fields of the composed word are the operands, which the ranges of R80 keep whole. -/
theorem decodeEncodeRoundTrip : Obligations.DecodeEncodeRoundTrip := by
  intro i h
  refine ⟨decodeWords_encode h, ?_⟩
  rw [decodeTableWord, wordsOfBits_encode, decodeWords_encode h]

/-! ## From a word to its row -/

theorem wellFormed_assembleOperands (op : Opcode) (w : CommandWord) : (assembleOperands op w).wellFormed = true := by
  have hlen : lenOperand w < 65536 := (lenField w).isLt
  have hpos : posOperand w < 256 := (posField w).isLt
  have hlow : -32768 ≤ ofsOperand w := (ofsField w).le_toInt
  have hhigh : ofsOperand w < 32768 := (ofsField w).toInt_lt
  cases op <;> simp [assembleOperands, Instr.wellFormed, *]

/-- A command word with an opcode's OP and with RSV = 0 has the fixed bits of that opcode's row. -/
theorem covers_assembleOperands {op : Opcode} {w : CommandWord} (ho : opField w = BitVec.ofNat 4 op.number)
    (hr : rsvField w = 0) : (assembleOperands op w).row.covers (.command w) = true := by
  have hmask : w &&& BitVec.ofNat 64 0xFF00000000000000 = (BitVec.ofNat 4 op.number).setWidth 64 <<< 60 := by
    rw [mask_eq_fields, ho, hr]
    simp
  cases op <;> simp only [TableRow.covers, assembleOperands, Instr.row, hmask] <;> decide

theorem decodeCommand_of_decodeWords {w : CommandWord} {i : Instr} (h : decodeWords (.command w) = some i) :
    decodeCommand w = .instr i := by
  simp only [decodeWords] at h
  split at h
  · rename_i j hj
    rw [hj, Option.some.inj h]
  · exact nomatch h

/-- Settles O2: for a command by the fields OP and RSV, for a frame by its encoding, which is the word. -/
theorem decodedWordsMatchTheirRow : Obligations.DecodedWordsMatchTheirRow := by
  intro w i h
  cases w with
  | command w =>
    obtain ⟨op, ho, hr, rfl⟩ := decodeCommand_eq_instr.1 (decodeCommand_of_decodeWords h)
    exact ⟨wellFormed_assembleOperands op w, covers_assembleOperands (opcodeOf_eq_some ho) hr, fun f hf => nomatch hf⟩
  | frame w =>
    obtain ⟨-, hwf, he⟩ := decodeFrame_eq_some h
    have hrow : i.row.covers (encode i) = true := Laws.EncodingRow.of_instr i
    exact ⟨hwf, he ▸ hrow, fun _ _ => he⟩

/-- Settles O6: each word is decoded. -/
theorem sampleWordsDecode : Obligations.SampleWordsDecode := by
  unfold Obligations.SampleWordsDecode
  decide

end Sys2Proof

namespace Sys2Proof.Machine

/-! ## The two illegal classes -/

/-- A ready block that accepts an illegal word takes that word's fault (R75, R162). -/
theorem step_of_accepts_illegal {s : State} {w : CommandWord} {c : Illegal} (ha : s.accepts w)
    (hd : decodeCommand w = .illegal c) :
    step s = .next (({ s with port := none } : State).afterFault (causeOf c) w) := by
  simp only [step_of_accepts ha, executeWord, hd]
  rfl

/-- Settles O5: the classes by the numbers in OP and RSV, and the fault by `step_of_accepts_illegal`. -/
theorem illegalWordsFault : Obligations.IllegalWordsFault := by
  refine ⟨fun w => ?_, fun w => ?_, by decide, fun s w ha => ⟨step_of_accepts_illegal ha, step_of_accepts_illegal ha⟩⟩
  · have hlt : w.toNat / 2 ^ 60 < 16 := by have := w.isLt; omega
    rw [decodeCommand_illegalOpcode, opField_toNat]
    simp only [List.mem_cons, List.not_mem_nil, or_false]
    omega
  · have hrsv : rsvField w ≠ 0 ↔ w.toNat / 2 ^ 56 % 16 ≠ 0 := by
      rw [← rsvField_toNat, not_iff_not, BitVec.toNat_eq]
      rfl
    rw [decodeCommand_reservedBits, opField_toNat, hrsv]
    simp only [List.mem_cons, List.not_mem_nil, or_false]
    omega

end Sys2Proof.Machine
end

section
/-! The pulses of a command: its events are whole pulses of N frames, after SelDrive and XportInit for OPEN and before XportRelease for
CLOSE. From the frames of the pulses follow the pulse structure (41_register_protocol.md R92), the numbers of events
(70_reset_and_hazards.md R189) and what a command leaves in the chip registers. -/

namespace Sys2Proof.Machine

open Sys2Proof.Config

/-! ## The frames of a command's pulses -/

/-- The frames of the four pulses of a configuration group, on a chain of `n` (44_display_session.md R141; log 2). -/
def groupFrames (n : Nat) : List (List (Byte × Byte)) :=
  [List.replicate n (0x0B, 0x07), List.replicate n (0x09, 0x00), List.replicate n (0x0F, 0x00), List.replicate n (0x0A, 0x0F)]

/-- The frames of the 8 pulses that render `g` at position `p` (42_glyph_rotator.md R108). -/
def glyphFrames (n p : Nat) (g : Glyph) : List (List (Byte × Byte)) :=
  (List.range 8).map (fun col => framesAt n p (BitVec.ofNat 8 (col + 1)) (glyphByte (rot g) col))

/-- The frames of a render of every position. -/
def renderFrames (n : Nat) (g : Nat → Glyph) : List (List (Byte × Byte)) :=
  (List.range n).flatMap (fun k => glyphFrames n k (g k))

/-- The frames of the pulses of an instruction, pulse by pulse; an output frame is no pulse of its own. -/
def pulseFrames (i : Instr) (s : State) : List (List (Byte × Byte)) :=
  match i with
  | .openSession =>
    (List.replicate s.params.initRepeat (groupFrames s.params.n)).flatten ++ renderFrames s.params.n (textGlyph s 0) ++
      [List.replicate s.params.n (0x0C, 0x01)]
  | .closeSession => [List.replicate s.params.n (0x0C, 0x00)]
  | .setIntensity level => [List.replicate s.params.n (0x0A, maskedLevel level)]
  | .renderText len => renderFrames s.params.n (textGlyph s len)
  | .renderScroll len ofs => renderFrames s.params.n (window s len ofs)
  | .sendPos pos reg val => [framesAt s.params.n pos reg val]
  | .sendAll reg val => [List.replicate s.params.n (reg, val)]
  | .renderChar pos code => glyphFrames s.params.n pos (s.glyph (lookupTag pos 1) code)
  | _ => []

/-- The events of a command before its first pulse. -/
def openingEvents (i : Instr) : List Event :=
  match i with
  | .openSession => [.selDrive, .xportInit]
  | _ => []

/-- The events of a command after its last pulse. -/
def closingEvents (i : Instr) : List Event :=
  match i with
  | .closeSession => [.xportRelease]
  | _ => []

theorem glyphPulses_eq (n p : Nat) (g : Glyph) : glyphPulses n p g = (glyphFrames n p g).flatMap pulseOf := by
  rw [glyphPulses, glyphFrames, List.flatMap_map]

theorem renderGlyph_eq_glyphPulses {n p : Nat} (h : p < n) (g : Glyph) : renderGlyph n p g = glyphPulses n p g := by
  simp only [renderGlyph, glyphPulses, regDigit, sendToPosition_eq_pulseOf_framesAt h]

/-- A render of every position, position by position, in pulses. -/
theorem flatMap_renderGlyph (n : Nat) (g : Nat → Glyph) :
    (List.range n).flatMap (fun k => renderGlyph n k (g k)) = (renderFrames n g).flatMap pulseOf := by
  rw [renderFrames, List.flatMap_assoc]
  refine List.flatMap_congr fun k hk => ?_
  rw [renderGlyph_eq_glyphPulses (List.mem_range.mp hk), glyphPulses_eq]

theorem flatMap_replicate_flatten (m : Nat) (pulses : List (List (Byte × Byte))) :
    (List.replicate m pulses).flatten.flatMap pulseOf = (List.replicate m (pulses.flatMap pulseOf)).flatten := by
  rw [List.flatMap_def, List.map_flatten, List.flatten_flatten, List.map_map, List.map_replicate]
  rfl

theorem initGroup_eq (n : Nat) : initGroup n = (groupFrames n).flatMap pulseOf := by
  simp only [initGroup, groupFrames, sendToAll_eq_pulseOf, List.flatMap_cons, List.flatMap_nil, List.append_nil,
    List.append_assoc]
  rfl

/-- The events of a command, with its position inside the chain. -/
theorem instrEvents_eq_pulses {i : Instr} {s : State} (hi : i.isCommand = true) (hp : positionInChain s.params.n i) :
    instrEvents i s = openingEvents i ++ (pulseFrames i s).flatMap pulseOf ++ closingEvents i := by
  cases i with
  | openSession =>
    simp only [instrEvents, openEvents, renderTextEvents, flatMap_renderGlyph, initGroup_eq, sendToAll_eq_pulseOf,
      openingEvents, closingEvents, pulseFrames, List.flatMap_append, flatMap_replicate_flatten, List.flatMap_singleton,
      List.append_nil, List.append_assoc]
    rfl
  | closeSession => simp [instrEvents, closeEvents, openingEvents, closingEvents, pulseFrames, sendToAll_eq_pulseOf]; rfl
  | setIntensity level =>
    simp [instrEvents, setIntensityEvents, openingEvents, closingEvents, pulseFrames, sendToAll_eq_pulseOf]; rfl
  | renderText len =>
    simp [instrEvents, renderTextEvents, openingEvents, closingEvents, pulseFrames, flatMap_renderGlyph]
  | renderScroll len ofs =>
    simp [instrEvents, renderScrollEvents, openingEvents, closingEvents, pulseFrames, flatMap_renderGlyph]
  | sendPos pos reg val =>
    simp [instrEvents, sendPosEvents, openingEvents, closingEvents, pulseFrames, sendToPosition_eq_pulseOf_framesAt hp]
  | sendAll reg val => simp [instrEvents, sendAllEvents, openingEvents, closingEvents, pulseFrames, sendToAll_eq_pulseOf]
  | renderChar pos code =>
    simp [instrEvents, renderCharEvents, openingEvents, closingEvents, pulseFrames, renderGlyph_eq_glyphPulses hp,
      glyphPulses_eq]
  | _ => simp [Instr.isCommand] at hi

/-! ## Every pulse has N frames -/

theorem length_of_mem_glyphFrames {n p : Nat} {g : Glyph} {fs : List (Byte × Byte)} (h : fs ∈ glyphFrames n p g) :
    fs.length = n := by
  obtain ⟨col, -, rfl⟩ := List.mem_map.mp h
  exact length_framesAt ..

theorem length_of_mem_renderFrames {n : Nat} {g : Nat → Glyph} {fs : List (Byte × Byte)} (h : fs ∈ renderFrames n g) :
    fs.length = n := by
  obtain ⟨k, -, hk⟩ := List.mem_flatMap.mp h
  exact length_of_mem_glyphFrames hk

theorem length_of_mem_groupFrames {n : Nat} {fs : List (Byte × Byte)} (h : fs ∈ groupFrames n) : fs.length = n := by
  simp only [groupFrames, List.mem_cons, List.not_mem_nil, or_false] at h
  rcases h with rfl | rfl | rfl | rfl <;> exact List.length_replicate

theorem length_of_mem_pulseFrames {i : Instr} {s : State} {fs : List (Byte × Byte)} (h : fs ∈ pulseFrames i s) :
    fs.length = s.params.n := by
  cases i with
  | openSession =>
    simp only [pulseFrames, List.mem_append, List.mem_flatten, List.mem_replicate, List.mem_singleton] at h
    rcases h with (⟨_, ⟨-, rfl⟩, hm⟩ | hm) | rfl
    · exact length_of_mem_groupFrames hm
    · exact length_of_mem_renderFrames hm
    · exact List.length_replicate
  | renderText | renderScroll => exact length_of_mem_renderFrames h
  | renderChar => exact length_of_mem_glyphFrames h
  | sendPos => rw [List.mem_singleton.mp h]; exact length_framesAt ..
  | closeSession | setIntensity | sendAll => rw [List.mem_singleton.mp h]; exact List.length_replicate
  | _ => simp [pulseFrames] at h

/-! ## The pulse structure -/

theorem scanPulses_openingEvents (n : Nat) (i : Instr) : scanPulses n .outside (openingEvents i) = some .outside := by
  cases i <;> rfl

theorem scanPulses_closingEvents (n : Nat) (i : Instr) : scanPulses n .outside (closingEvents i) = some .outside := by
  cases i <;> rfl

/-- Settles O32: every pulse has N frames, and outside the pulses there are only SelDrive, XportInit and XportRelease. -/
theorem commandsEmitWholePulses : Obligations.CommandsEmitWholePulses := by
  intro i s hi hp
  have hpulses : scanPulses s.params.n .outside ((pulseFrames i s).flatMap pulseOf) = some .outside :=
    scanPulses_flatMap _ _ _ fun fs hfs => scanPulses_pulseOf _ fs (length_of_mem_pulseFrames hfs)
  rw [instrEvents_eq_pulses hi hp, scanPulses_append, scanPulses_append, scanPulses_openingEvents, Option.bind_some, hpulses,
    Option.bind_some, scanPulses_closingEvents]

/-! ## Counting events -/

theorem pulseCount_append (as bs : List Event) : pulseCount (as ++ bs) = pulseCount as + pulseCount bs := List.countP_append

theorem transferCount_append (as bs : List Event) : transferCount (as ++ bs) = transferCount as + transferCount bs :=
  List.countP_append

/-- A pulse of `n` frames is one SelAssert, `2n` transfers and one SelDeassert. -/
theorem counts_pulseOf (fs : List (Byte × Byte)) : pulseCount (pulseOf fs) = 1 ∧
    transferCount (pulseOf fs) = 2 * fs.length ∧ (pulseOf fs).length = 2 * fs.length + 2 := by
  have hall : ∀ bs : List Byte, bs.countP (fun _ => true) = bs.length := fun bs => by simp
  have hx : (Event.isXfer ∘ Event.xfer) = fun _ => true := rfl
  have hd : ((fun e => e == Event.selDeassert) ∘ Event.xfer) = fun _ => false := rfl
  rw [pulseOf, frames_as_xfers]
  simp [pulseCount, transferCount, List.countP_append, List.countP_map, hx, hd, length_frameBytes,
    Event.isXfer]

theorem counts_pulses {n : Nat} {pulses : List (List (Byte × Byte))} (h : ∀ fs ∈ pulses, fs.length = n) :
    pulseCount (pulses.flatMap pulseOf) = pulses.length ∧ transferCount (pulses.flatMap pulseOf) = 2 * n * pulses.length ∧
    (pulses.flatMap pulseOf).length = (2 * n + 2) * pulses.length := by
  induction pulses with
  | nil => exact ⟨rfl, rfl, rfl⟩
  | cons fs rest ih =>
    obtain ⟨hp, ht, hl⟩ := ih fun gs hgs => h gs (List.mem_cons_of_mem _ hgs)
    obtain ⟨hp₁, ht₁, hl₁⟩ := counts_pulseOf fs
    rw [h fs List.mem_cons_self] at ht₁ hl₁
    rw [List.flatMap_cons, pulseCount_append, transferCount_append, List.length_append, List.length_cons, hp, ht, hl, hp₁, ht₁,
      hl₁]
    refine ⟨by omega, by ring, by ring⟩

/-- The counts of a command, from its number of pulses and of the events outside them. -/
theorem counts_instrEvents {i : Instr} {s : State} (hi : i.isCommand = true) (hp : positionInChain s.params.n i)
    {pulses others transfers total : Nat} (hk : (pulseFrames i s).length = pulses)
    (ho : (openingEvents i).length + (closingEvents i).length = others) (ht : 2 * s.params.n * pulses = transfers)
    (hl : (2 * s.params.n + 2) * pulses + others = total) :
    pulseCount (instrEvents i s) = pulses ∧ transferCount (instrEvents i s) = transfers ∧ (instrEvents i s).length = total := by
  subst hk ho ht hl
  obtain ⟨hpc, htc, hlen⟩ := counts_pulses (pulses := pulseFrames i s) (n := s.params.n) fun fs => length_of_mem_pulseFrames
  have hout : pulseCount (openingEvents i) = 0 ∧ transferCount (openingEvents i) = 0 ∧ pulseCount (closingEvents i) = 0 ∧
      transferCount (closingEvents i) = 0 := by cases i <;> exact ⟨rfl, rfl, rfl, rfl⟩
  obtain ⟨hop, hot, hcp, hct⟩ := hout
  rw [instrEvents_eq_pulses hi hp, pulseCount_append, pulseCount_append, transferCount_append, transferCount_append,
    List.length_append, List.length_append, hpc, htc, hlen, hop, hot, hcp, hct]
  omega

theorem length_renderFrames (n : Nat) (g : Nat → Glyph) : (renderFrames n g).length = 8 * n := by
  simp [renderFrames, glyphFrames, List.length_flatMap, Nat.mul_comm]

theorem length_pulseFrames_open (s : State) : (pulseFrames .openSession s).length = 4 * s.params.initRepeat + 8 * s.params.n + 1 := by
  simp only [pulseFrames, List.length_append, List.length_flatten, length_renderFrames, List.map_replicate, List.sum_replicate,
    groupFrames, List.length_cons, List.length_nil, smul_eq_mul]
  omega

theorem length_glyphFrames (n p : Nat) (g : Glyph) : (glyphFrames n p g).length = 8 := by simp [glyphFrames]

/-- Settles O56: the number of pulses of each command, and with it the number of transfers and events. -/
theorem eventCounts : Obligations.EventCounts := by
  intro s
  dsimp only
  refine ⟨fun hrep => ?_, ?_, fun l => ?_, fun p r v h => ?_, fun r v => ?_, fun p c h => ?_, fun len => ?_, fun len o => ?_⟩
  · have hpulses : (pulseFrames .openSession s).length = 12 * s.params.n + 1 := by rw [length_pulseFrames_open, hrep]; ring
    exact counts_instrEvents (i := .openSession) (others := 2) rfl trivial hpulses rfl (by ring) (by ring)
  · exact counts_instrEvents (i := .closeSession) (others := 1) rfl trivial rfl rfl (by ring) (by ring)
  · exact counts_instrEvents (i := .setIntensity l) (others := 0) rfl trivial rfl rfl (by ring) (by ring)
  · exact counts_instrEvents (i := .sendPos p r v) (others := 0) rfl h rfl rfl (by ring) (by ring)
  · exact counts_instrEvents (i := .sendAll r v) (others := 0) rfl trivial rfl rfl (by ring) (by ring)
  · exact counts_instrEvents (i := .renderChar p c) (others := 0) rfl h (length_glyphFrames ..) rfl (by ring) (by ring)
  · exact counts_instrEvents (i := .renderText len) (others := 0) rfl trivial (length_renderFrames ..) rfl (by ring) (by ring)
  · exact counts_instrEvents (i := .renderScroll len o) (others := 0) rfl trivial (length_renderFrames ..) rfl (by ring) (by ring)

end Sys2Proof.Machine
end

section
/-! What pulses leave in the chip registers (20_memory.md R57): a register that no frame in its chip's slot names is unchanged, and one
that such frames name, all with one value, holds that value. -/

namespace Sys2Proof.Machine

open Sys2Proof.Config

/-! ## The write in a slot -/

/-- The frame in slot `k` writes the value `v` to register `r` (R57, R58). -/
def slotWrites (fs : List (Byte × Byte)) (k : Nat) (r v : Byte) : Prop := fs[k]? = some (r, v) ∧ r ≠ 0

theorem slotWrites_replicate {n k : Nat} {r v x y : Byte} (h : slotWrites (List.replicate n (r, v)) k x y) :
    k < n ∧ x = r ∧ y = v := by
  obtain ⟨h, -⟩ := h
  simp only [List.getElem?_replicate, Option.ite_none_right_eq_some, Option.some.injEq, Prod.mk.injEq] at h
  exact ⟨h.1, h.2.1.symm, h.2.2.symm⟩

theorem slotWrites_replicate_self {n k : Nat} {r : Byte} (hk : k < n) (hr : r ≠ 0) (v : Byte) :
    slotWrites (List.replicate n (r, v)) k r v :=
  ⟨by rw [List.getElem?_replicate, if_pos hk], hr⟩

theorem slotWrites_framesAt {n p k : Nat} {r v x y : Byte} (h : slotWrites (framesAt n p r v) k x y) :
    k < n ∧ k = p ∧ x = r ∧ y = v := by
  obtain ⟨h, hx⟩ := h
  have hk : k < n := by
    obtain ⟨hk, -⟩ := List.getElem?_eq_some_iff.mp h
    rwa [length_framesAt] at hk
  rw [framesAt_slot hk] at h
  by_cases hp : k = p
  · simp only [hp, if_true, Option.some.injEq, Prod.mk.injEq] at h
    exact ⟨hk, hp, h.1.symm, h.2.symm⟩
  · simp only [hp, if_false, Option.some.injEq, Prod.mk.injEq] at h
    exact absurd h.1.symm hx

theorem slotWrites_framesAt_self {n p : Nat} {r : Byte} (hp : p < n) (hr : r ≠ 0) (v : Byte) :
    slotWrites (framesAt n p r v) p r v :=
  ⟨by rw [framesAt_slot hp, if_pos rfl], hr⟩

theorem slotWrites_glyphFrames {n p k : Nat} {g : Glyph} {x y : Byte} {fs : List (Byte × Byte)} (hfs : fs ∈ glyphFrames n p g)
    (h : slotWrites fs k x y) :
    k < n ∧ k = p ∧ ∃ col < 8, x = BitVec.ofNat 8 (col + 1) ∧ y = glyphByte (rot g) col := by
  obtain ⟨col, hcol, rfl⟩ := List.mem_map.mp hfs
  obtain ⟨hn, hp, hx, hy⟩ := slotWrites_framesAt h
  exact ⟨hn, hp, col, List.mem_range.mp hcol, hx, hy⟩

/-- The number of a digit register. -/
theorem toNat_digitReg {col : Nat} (hcol : col < 8) : (BitVec.ofNat 8 (col + 1)).toNat = col + 1 := by
  rw [BitVec.toNat_ofNat, Nat.mod_eq_of_lt (by omega)]

theorem digitReg_ne_zero {col : Nat} (hcol : col < 8) : BitVec.ofNat 8 (col + 1) ≠ 0 := by
  intro h
  have hn := congrArg BitVec.toNat h
  rw [toNat_digitReg hcol] at hn
  simp at hn

theorem digitReg_inj {col col' : Nat} (hcol : col < 8) (hcol' : col' < 8)
    (h : BitVec.ofNat 8 (col + 1) = BitVec.ofNat 8 (col' + 1)) : col = col' := by
  have hn := congrArg BitVec.toNat h
  rw [toNat_digitReg hcol, toNat_digitReg hcol'] at hn
  omega

theorem exists_slotWrites_glyphFrames {n p col : Nat} (hp : p < n) (hcol : col < 8) (g : Glyph) :
    ∃ fs ∈ glyphFrames n p g, slotWrites fs p (BitVec.ofNat 8 (col + 1)) (glyphByte (rot g) col) :=
  ⟨_, List.mem_map_of_mem (List.mem_range.mpr hcol), slotWrites_framesAt_self hp (digitReg_ne_zero hcol) _⟩

/-! ## One pulse -/

theorem chipReg_pulseOf_of_writes {n k : Nat} {fs : List (Byte × Byte)} {r v : Byte} (hn : fs.length = n)
    (h : slotWrites fs k r v) (c : Chain) : ((pulseOf fs).foldl (Chain.take n) c).chipReg k r = some v := by
  obtain ⟨hslot, hr⟩ := h
  rw [chain_after_pulse n c fs hn, Chain.chipReg_latchFrom, hslot]
  exact if_pos ⟨hr, rfl⟩

theorem chipReg_pulseOf_of_not_writes {n k : Nat} {fs : List (Byte × Byte)} {r : Byte} (hn : fs.length = n)
    (h : ∀ v, ¬ slotWrites fs k r v) (c : Chain) : ((pulseOf fs).foldl (Chain.take n) c).chipReg k r = c.chipReg k r := by
  rw [chain_after_pulse n c fs hn, Chain.chipReg_latchFrom]
  cases hslot : fs[k]? with
  | none => rfl
  | some f =>
    obtain ⟨q, v⟩ := f
    refine if_neg ?_
    rintro ⟨hq, rfl⟩
    exact h v ⟨hslot, hq⟩

theorem refused_pulseOf {n : Nat} {fs : List (Byte × Byte)} (hn : fs.length = n) (c : Chain) :
    ((pulseOf fs).foldl (Chain.take n) c).refused = c.refused := by
  rw [chain_after_pulse n c fs hn]

theorem pulse_pulseOf {n : Nat} {fs : List (Byte × Byte)} (hn : fs.length = n) (c : Chain) :
    ((pulseOf fs).foldl (Chain.take n) c).pulse = .idle := by
  rw [chain_after_pulse n c fs hn]

/-! ## Pulses one after another -/

section
variable {n : Nat} {pulses : List (List (Byte × Byte))} (hn : ∀ fs ∈ pulses, fs.length = n)
include hn

theorem refused_pulses (c : Chain) : ((pulses.flatMap pulseOf).foldl (Chain.take n) c).refused = c.refused := by
  induction pulses generalizing c with
  | nil => rfl
  | cons fs rest ih =>
    rw [List.flatMap_cons, List.foldl_append, ih fun gs hgs => hn gs (List.mem_cons_of_mem _ hgs),
      refused_pulseOf (hn fs List.mem_cons_self)]

theorem chipReg_pulses_of_not_writes {k : Nat} {r : Byte} (h : ∀ fs ∈ pulses, ∀ v, ¬ slotWrites fs k r v) (c : Chain) :
    ((pulses.flatMap pulseOf).foldl (Chain.take n) c).chipReg k r = c.chipReg k r := by
  induction pulses generalizing c with
  | nil => rfl
  | cons fs rest ih =>
    rw [List.flatMap_cons, List.foldl_append,
      ih (fun gs hgs => hn gs (List.mem_cons_of_mem _ hgs)) fun gs hgs => h gs (List.mem_cons_of_mem _ hgs),
      chipReg_pulseOf_of_not_writes (hn fs List.mem_cons_self) (h fs List.mem_cons_self)]

/-- A register that some pulse writes holds the one value that the pulses write to it. -/
theorem chipReg_pulses_of_writes {k : Nat} {r v : Byte} (hall : ∀ fs ∈ pulses, ∀ w, slotWrites fs k r w → w = v)
    (hex : ∃ fs ∈ pulses, slotWrites fs k r v) (c : Chain) :
    ((pulses.flatMap pulseOf).foldl (Chain.take n) c).chipReg k r = some v := by
  induction pulses generalizing c with
  | nil => simp at hex
  | cons fs rest ih =>
    have hnr : ∀ gs ∈ rest, gs.length = n := fun gs hgs => hn gs (List.mem_cons_of_mem _ hgs)
    have hallr : ∀ gs ∈ rest, ∀ w, slotWrites gs k r w → w = v := fun gs hgs => hall gs (List.mem_cons_of_mem _ hgs)
    rw [List.flatMap_cons, List.foldl_append]
    by_cases hlater : ∃ gs ∈ rest, slotWrites gs k r v
    · exact ih hnr hallr hlater _
    · have hnone : ∀ gs ∈ rest, ∀ w, ¬ slotWrites gs k r w :=
        fun gs hgs w hw => hlater ⟨gs, hgs, hallr gs hgs w hw ▸ hw⟩
      have hfs : slotWrites fs k r v := by
        obtain ⟨gs, hgs, hw⟩ := hex
        rcases List.mem_cons.mp hgs with rfl | hgs
        · exact hw
        · exact absurd hw (hnone gs hgs v)
      rw [chipReg_pulses_of_not_writes hnr hnone, chipReg_pulseOf_of_writes (hn fs List.mem_cons_self) hfs]

end

/-! ## A part of the pulses -/

theorem Chain.regs_take_of_no_latch {e : Event} (h : e ≠ .selDeassert) (n : Nat) (c : Chain) : (c.take n e).regs = c.regs := by
  obtain ⟨pulse, regs, refused⟩ := c
  cases e with
  | selDeassert => exact absurd rfl h
  | xfer b => cases pulse <;> rfl
  | selDrive | xportInit | selAssert | xportRelease => rfl

/-- Only a SelDeassert latches (R57). -/
theorem regs_foldl_of_no_latch {n : Nat} {evs : List Event} (h : .selDeassert ∉ evs) (c : Chain) :
    (evs.foldl (Chain.take n) c).regs = c.regs := by
  induction evs generalizing c with
  | nil => rfl
  | cons e rest ih =>
    rw [List.mem_cons, not_or] at h
    rw [List.foldl_cons, ih h.2, Chain.regs_take_of_no_latch (Ne.symm h.1)]

theorem chipReg_foldl_of_no_latch {n : Nat} {evs : List Event} (h : .selDeassert ∉ evs) (c : Chain) (k : Nat) (r : Byte) :
    (evs.foldl (Chain.take n) c).chipReg k r = c.chipReg k r := by
  rw [Chain.chipReg, Chain.chipReg, regs_foldl_of_no_latch h]

/-- A pulse cut short has no SelDeassert. -/
theorem selDeassert_notMem_take_pulseOf {fs : List (Byte × Byte)} {m : Nat} (hm : m < (pulseOf fs).length) :
    .selDeassert ∉ (pulseOf fs).take m := by
  rw [pulseOf, List.length_append, List.length_singleton] at hm
  rw [pulseOf, List.take_append_of_le_length (by omega)]
  intro h
  simpa [frames_as_xfers] using List.mem_of_mem_take h

/-- However many of the events have been completed, a register that no pulse writes is unchanged. -/
theorem chipReg_take_pulses {n : Nat} {pulses : List (List (Byte × Byte))} (hn : ∀ fs ∈ pulses, fs.length = n) {k : Nat} {r : Byte}
    (h : ∀ fs ∈ pulses, ∀ v, ¬ slotWrites fs k r v) (m : Nat) (c : Chain) :
    (((pulses.flatMap pulseOf).take m).foldl (Chain.take n) c).chipReg k r = c.chipReg k r := by
  induction pulses generalizing c m with
  | nil => rw [List.flatMap_nil, List.take_nil]; rfl
  | cons fs rest ih =>
    have hrest := ih (fun gs hgs => hn gs (List.mem_cons_of_mem _ hgs)) (fun gs hgs => h gs (List.mem_cons_of_mem _ hgs))
    rw [List.flatMap_cons, List.take_append, List.foldl_append, hrest]
    rcases Nat.lt_or_ge m (pulseOf fs).length with hlt | hge
    · exact chipReg_foldl_of_no_latch (selDeassert_notMem_take_pulseOf hlt) c k r
    · rw [List.take_of_length_le hge]
      exact chipReg_pulseOf_of_not_writes (hn fs List.mem_cons_self) (h fs List.mem_cons_self) c

/-! ## The statements -/

/-- Settles O34: the one pulse has (r, v) in slot p alone. -/
theorem sendPosWritesOneChip : Obligations.SendPosWritesOneChip := by
  intro n p r v c hp c'
  have hlen := length_framesAt n p r v
  have hc' : c' = (pulseOf (framesAt n p r v)).foldl (Chain.take n) c := by
    rw [← sendToPosition_eq_pulseOf_framesAt hp]
  rw [hc']
  refine ⟨fun hr => chipReg_pulseOf_of_writes hlen (slotWrites_framesAt_self hp hr v) c, refused_pulseOf hlen c,
    pulse_pulseOf hlen c, fun k x hkx => chipReg_pulseOf_of_not_writes hlen (fun w hw => hkx ?_) c⟩
  obtain ⟨-, hk, hx, -⟩ := slotWrites_framesAt hw
  exact ⟨hk, hx, hx ▸ hw.2⟩

/-- Settles O35: the one pulse has (r, v) in every slot. -/
theorem sendAllWritesEveryChip : Obligations.SendAllWritesEveryChip := by
  intro n r v c c'
  have hlen : (List.replicate n (r, v)).length = n := List.length_replicate
  have hc' : c' = (pulseOf (List.replicate n (r, v))).foldl (Chain.take n) c := by rw [← sendToAll_eq_pulseOf]
  rw [hc']
  refine ⟨fun hr k hk => chipReg_pulseOf_of_writes hlen (slotWrites_replicate_self hk hr v) c, refused_pulseOf hlen c,
    pulse_pulseOf hlen c, fun k x hkx => chipReg_pulseOf_of_not_writes hlen (fun w hw => hkx ?_) c⟩
  obtain ⟨hk, hx, -⟩ := slotWrites_replicate hw
  exact ⟨hk, hx, hx ▸ hw.2⟩

/-- Settles O36: of the 8 pulses one writes each digit register of the chip at p, and none writes any other register. -/
theorem renderGlyphWritesOneChip : Obligations.RenderGlyphWritesOneChip := by
  intro n p g c hp c'
  have hlen : ∀ fs ∈ glyphFrames n p g, fs.length = n := fun _ => length_of_mem_glyphFrames
  have hc' : c' = ((glyphFrames n p g).flatMap pulseOf).foldl (Chain.take n) c := by
    rw [← glyphPulses_eq, ← renderGlyph_eq_glyphPulses hp]
  rw [hc']
  refine ⟨fun col hcol => chipReg_pulses_of_writes hlen (fun fs hfs w hw => ?_) (exists_slotWrites_glyphFrames hp hcol g) c,
    refused_pulses hlen c, fun k x hkx => chipReg_pulses_of_not_writes hlen (fun fs hfs w hw => hkx ?_) c⟩
  · obtain ⟨-, -, col', hcol', hr, hv⟩ := slotWrites_glyphFrames hfs hw
    rw [hv, digitReg_inj hcol hcol' hr]
  · obtain ⟨-, hk, col, hcol, hx, -⟩ := slotWrites_glyphFrames hfs hw
    have hnum := toNat_digitReg hcol
    rw [← hx] at hnum
    exact ⟨hk, by omega, by omega⟩

/-- Settles O30: the latch of a pulse of another number of bytes. -/
theorem wrongPulseIsRefused : Obligations.WrongPulseIsRefused := by
  intro n c bytes k r hp hlen
  have hlatch : c.take n .selDeassert = { pulse := .idle, regs := [], refused := true } := by
    simp only [Chain.take, Chain.latch, hp, hlen, if_false]
  rw [hlatch]
  exact ⟨rfl, rfl⟩

end Sys2Proof.Machine
end

section
/-! The pixel strip: every byte of the compositor's three slots is a column of the strip, and so is every byte of a window, however the
offset is split (43_scroll_compositor.md sections 3 and 4); and RENDER_TEXT's glyphs with a quiet host. -/

namespace Sys2Proof.Machine

/-! ## The slots in columns of the strip -/

/-- `g(c)` of R122 as the host left FONT and TEXT: the glyph of character `c`, or eight zero bytes out of range. -/
def hostCharGlyph (s : State) (len : Nat) (c : Int) : Glyph :=
  if 0 ≤ c ∧ c < len then hostGlyph s (s.text.readByte c.toNat) else zero8

/-- The three slots of R123 around character `a`. -/
def hostSlots (s : State) (len : Nat) (a : Int) : List Byte :=
  hostCharGlyph s len (a - 1) ++ hostCharGlyph s len a ++ hostCharGlyph s len (a + 1)

theorem glyphByte_zero8 {b : Nat} (hb : b < 8) : glyphByte zero8 b = 0 := List.getD_replicate 0 hb

theorem length_hostCharGlyph (s : State) (len : Nat) (c : Int) : (hostCharGlyph s len c).length = 8 := by
  unfold hostCharGlyph
  split
  · simp [hostGlyph]
  · rfl

theorem length_hostSlots (s : State) (len : Nat) (a : Int) : (hostSlots s len a).length = 24 := by
  simp [hostSlots, length_hostCharGlyph]

/-- Byte `b` of character `c`'s glyph is column `8c + b` of the strip (R125). -/
theorem glyphByte_hostCharGlyph (s : State) (len : Nat) (c : Int) {b : Nat} (hb : b < 8) :
    glyphByte (hostCharGlyph s len c) b = strip s len (8 * c + b) := by
  have hq : (8 * c + b) / 8 = c := by omega
  have hr : ((8 * c + b) % 8).toNat = b := by omega
  unfold hostCharGlyph strip
  rw [hq, hr]
  split
  · simp [glyphByte, hostGlyph, hb]
  · exact glyphByte_zero8 hb

theorem glyphByte_hostSlots (s : State) (len : Nat) (a : Int) {i : Nat} (hi : i < 24) :
    glyphByte (hostSlots s len a) i = strip s len (8 * (a - 1) + i) := by
  have hthree := fun c hc => glyphByte_append_three (r := hostCharGlyph s len (a + 1)) (length_hostCharGlyph s len (a - 1))
    (length_hostCharGlyph s len a) (c := c) hc
  obtain ⟨q, c, hc, rfl⟩ : ∃ q c, c < 8 ∧ i = 8 * q + c := ⟨i / 8, i % 8, by omega, by omega⟩
  obtain ⟨hleft, hmid, hright⟩ := hthree c hc
  have hq : q = 0 ∨ q = 1 ∨ q = 2 := by omega
  unfold hostSlots
  rcases hq with rfl | rfl | rfl
  · rw [show 8 * 0 + c = c by omega, hleft, glyphByte_hostCharGlyph _ _ _ hc]
  · rw [show 8 * 1 + c = 8 + c by omega, hmid, glyphByte_hostCharGlyph _ _ _ hc]
    congr 1
    omega
  · rw [show 8 * 2 + c = 16 + c by omega, hright, glyphByte_hostCharGlyph _ _ _ hc]
    congr 1
    omega

/-- 8 columns of the strip from column `x` on. -/
def stripGlyph (s : State) (len : Nat) (x : Int) : Glyph := (List.range 8).map (fun j : Nat => strip s len (x + j))

theorem length_stripGlyph (s : State) (len : Nat) (x : Int) : (stripGlyph s len x).length = 8 := by simp [stripGlyph]

theorem glyphByte_stripGlyph (s : State) (len : Nat) (x : Int) {j : Nat} (hj : j < 8) :
    glyphByte (stripGlyph s len x) j = strip s len (x + j) := by
  simp [glyphByte, stripGlyph, hj]

/-- The 8 bytes cut from the slots at index `d` are the strip's columns there. -/
theorem cut_hostSlots (s : State) (len : Nat) (a : Int) {d : Nat} (hd : d ≤ 16) :
    ((hostSlots s len a).drop d).take 8 = stripGlyph s len (8 * (a - 1) + d) := by
  have hlen := length_hostSlots s len a
  refine glyph_ext (by rw [List.length_take, List.length_drop]; omega) (length_stripGlyph ..) fun j hj => ?_
  have hcut : glyphByte (((hostSlots s len a).drop d).take 8) j = glyphByte (hostSlots s len a) (d + j) := by
    simp [glyphByte, hj]
  rw [hcut, glyphByte_hostSlots s len a (by omega), glyphByte_stripGlyph s len _ hj]
  congr 1
  omega

/-! ## The window -/

theorem scratch_of_quiet {s : State} (h : s.quiet) (len : Nat) (o : Int) (k : Nat) :
    scratch s len o k = hostSlots s len (firstGlyphIndex o + k) := by
  simp only [scratch, charGlyph_of_quiet h, hostSlots, hostCharGlyph]

/-- The strip equation of R125: the window of position `k` is the strip from column `o + 8k` on. -/
theorem window_eq_stripGlyph {s : State} (h : s.quiet) (len : Nat) (o : Int) (k : Nat) :
    window s len o k = stripGlyph s len (o + 8 * k) := by
  have hsplit := firstGlyphIndex_add_subOffset o
  have hsub := subOffset_le o
  rw [window, scratch_of_quiet h, cut_hostSlots s len _ (by omega)]
  congr 1
  omega

/-- Left of the text and right of it the strip is blank (R125). -/
theorem strip_out_of_range (s : State) (len : Nat) {x : Int} (h : x < 0 ∨ 8 * (len : Int) ≤ x) : strip s len x = 0 :=
  if_neg (by omega)

theorem stripGlyph_out_of_range (s : State) (len : Nat) {x : Int} (h : x + 7 < 0 ∨ 8 * (len : Int) ≤ x) :
    stripGlyph s len x = zero8 := by
  refine glyph_ext (length_stripGlyph ..) rfl fun j hj => ?_
  rw [glyphByte_stripGlyph s len x hj, strip_out_of_range s len (by omega), glyphByte_zero8 hj]

/-- Settles O53: each clause is the strip equation at its columns. -/
theorem scrollShowsThePixelStrip : Obligations.ScrollShowsThePixelStrip := by
  intro s len o k hq
  simp only [window_eq_stripGlyph hq]
  refine ⟨fun j hj => glyphByte_stripGlyph s len _ hj, ?_, fun j hj => ?_, stripGlyph_out_of_range s len⟩
  · congr 1
    push_cast
    ring
  · rw [glyphByte_stripGlyph s len _ (by omega), glyphByte_stripGlyph s len _ (by omega)]
    congr 1
    push_cast
    ring

/-! ## Other readings of the offset -/

/-- The signed number in the upper 13 bits of a 16-bit number is its floor division by 8 (R121). -/
theorem firstGlyphIndex_toInt (f : BitVec 16) : firstGlyphIndex f.toInt = (f.extractLsb' 3 13).toInt := by
  have hlt := f.isLt
  have hbits : (f.extractLsb' 3 13).toNat = f.toNat / 8 := by
    rw [BitVec.extractLsb'_toNat, Nat.shiftRight_eq_div_pow]
    omega
  rw [firstGlyphIndex, BitVec.toInt_eq_toNat_cond, BitVec.toInt_eq_toNat_cond, hbits]
  split <;> split <;> omega

theorem subOffset_toInt (f : BitVec 16) : subOffset f.toInt = (f.extractLsb' 0 3).toNat := by
  have hlt := f.isLt
  have hsub : (subOffset f.toInt : Int) = ((f.toNat % 8 : Nat) : Int) := by
    rw [subOffset_eq_emod, BitVec.toInt_eq_toNat_cond]
    split <;> omega
  rw [BitVec.extractLsb'_toNat, Nat.shiftRight_zero]
  exact Int.ofNat_inj.mp hsub

/-- Settles O54: by the bits of OFS, and by a cut of the slots around the truncated quotient, whose remainder is in -7..7. -/
theorem otherOffsetReadingsAgree : Obligations.OtherOffsetReadingsAgree := by
  refine ⟨fun f => ⟨firstGlyphIndex_toInt f, subOffset_toInt f⟩, ?_⟩
  intro s len o k hq a sub g
  have hsub : sub = o.tmod 8 := (Int.tmod_def o 8).symm
  have hlow : -8 < o.tmod 8 := Int.lt_tmod_of_pos o (by decide)
  have hhigh : o.tmod 8 < 8 := Int.tmod_lt_of_pos o (by decide)
  have hcut := cut_hostSlots s len a (d := (8 + sub).toNat) (by omega)
  rw [window_eq_stripGlyph hq]
  refine hcut.trans ?_
  congr 1
  omega

/-! ## The glyphs of RENDER_TEXT -/

theorem textGlyph_of_quiet {s : State} (h : s.quiet) (len k : Nat) :
    textGlyph s len k = hostGlyph s (if k < len then s.text.readByte k else 0x20) := by
  unfold textGlyph
  rw [s.char_of_quiet h, s.glyph_of_quiet h, s.glyph_of_quiet h]
  split <;> rfl

/-- At offset 0 the window of a position is its character's glyph, blank after the text's end (R132). -/
theorem window_zero {s : State} (h : s.quiet) (len k : Nat) :
    window s len 0 k = if k < len then hostGlyph s (s.text.readByte k) else zero8 := by
  have hchar : window s len 0 k = hostCharGlyph s len k := by
    rw [window_eq_stripGlyph h]
    refine glyph_ext (length_stripGlyph ..) (length_hostCharGlyph ..) fun j hj => ?_
    rw [glyphByte_stripGlyph s len _ hj, glyphByte_hostCharGlyph s len _ hj, zero_add]
  rw [hchar, hostCharGlyph]
  simp only [Int.natCast_nonneg, true_and, Nat.cast_lt, Int.toNat_natCast]

end Sys2Proof.Machine
end

section
/-! Instructions to their end: with a transport that completes every event a command ends with all its events, which are the pulses
its rule names (44_display_session.md, 43_scroll_compositor.md, 42_glyph_rotator.md, 41_register_protocol.md), and the chip registers
hold what those pulses write. -/

namespace Sys2Proof.Machine

open Sys2Proof.Config

/-! ## The lines after a command's events -/

theorem lines_after_pulses (l : Lines) {pulses : List (List (Byte × Byte))} (h : pulses ≠ []) :
    (pulses.flatMap pulseOf).foldl Lines.take l = { l with selLevel := true } := by
  induction pulses generalizing l with
  | nil => exact absurd rfl h
  | cons fs rest ih =>
    rw [List.flatMap_cons, List.foldl_append, lines_after_pulse]
    cases rest with
    | nil => rfl
    | cons gs rest => exact ih _ (List.cons_ne_nil _ _)

theorem pulseFrames_ne_nil {i : Instr} (hi : i.isCommand = true) (s : State) : pulseFrames i s ≠ [] := by
  have hn := Config.Params.n_pos s.params
  have hrender : ∀ g, renderFrames s.params.n g ≠ [] := fun g h => by
    have hlen := length_renderFrames s.params.n g
    rw [h, List.length_nil] at hlen
    omega
  cases i with
  | openSession => exact List.append_ne_nil_of_right_ne_nil _ (List.cons_ne_nil _ _)
  | closeSession | setIntensity | sendPos | sendAll | renderChar => exact List.cons_ne_nil _ _
  | renderText | renderScroll => exact hrender _
  | _ => simp [Instr.isCommand] at hi

theorem lines_after_instrEvents {i : Instr} {s : State} (hi : i.isCommand = true) (hp : positionInChain s.params.n i) (l : Lines) :
    (instrEvents i s).foldl Lines.take l =
      (closingEvents i).foldl Lines.take { (openingEvents i).foldl Lines.take l with selLevel := true } := by
  rw [instrEvents_eq_pulses hi hp, List.foldl_append, List.foldl_append, lines_after_pulses _ (pulseFrames_ne_nil hi s)]

/-! ## Completion -/

theorem exec_completes {i : Instr} {s : State} (hi : i.isCommand = true) (hs : i = .openSession ∨ s.session = .opened)
    (hp : positionInChain s.params.n i) (hg : s.transportCompletes) :
    exec i s = .next (s.afterCommand (instrEvents i s) (sessionAfter i s.session)) := by
  rw [exec_runs hi hs hp, State.perform_complete hg]

/-- The same with the events written otherwise, and the lines as the events outside the pulses leave them. -/
theorem exec_completes_with {i : Instr} {s : State} {evs : List Event} {session : Session} (hi : i.isCommand = true)
    (hs : i = .openSession ∨ s.session = .opened) (hp : positionInChain s.params.n i) (hg : s.transportCompletes)
    (hevs : instrEvents i s = evs) (hses : sessionAfter i s.session = session) :
    ∃ t, exec i s = .next t ∧ t = s.afterCommand evs session ∧
      t.lines = (closingEvents i).foldl Lines.take { (openingEvents i).foldl Lines.take s.lines with selLevel := true } := by
  subst hevs hses
  exact ⟨_, exec_completes hi hs hp hg, rfl, lines_after_instrEvents hi hp s.lines⟩

/-- What RENDER_TEXT emits with a quiet host. -/
theorem renderTextEvents_of_quiet {s : State} (h : s.quiet) (len : Nat) :
    renderTextEvents len s = (List.range s.params.n).flatMap (fun k =>
      glyphPulses s.params.n k (hostGlyph s (if k < len then s.text.readByte k else 0x20))) := by
  refine List.flatMap_congr fun k hk => ?_
  rw [renderGlyph_eq_glyphPulses (List.mem_range.mp hk), textGlyph_of_quiet h]

/-- Settles O40: the configuration groups are broadcasts, and the render of length 0 is the space at every position. -/
theorem openCompletes : Obligations.OpenCompletes := by
  intro s hg hq n group evs
  refine exec_completes_with (i := .openSession) rfl (.inl rfl) trivial hg ?_ rfl
  simp only [instrEvents, openEvents, renderTextEvents_of_quiet hq, initGroup, sendToAll_eq_pulseOf, Nat.not_lt_zero, if_false]
  rfl

/-- Settles O41: the shutdown broadcast, then the release. -/
theorem closeCompletes : Obligations.CloseCompletes := by
  intro s hs hg
  refine exec_completes_with (i := .closeSession) rfl (.inr hs) trivial hg ?_ rfl
  rw [instrEvents, closeEvents, sendToAll_eq_pulseOf]
  rfl

/-- The mask of R143 is the remainder by 16. -/
theorem maskedLevel_eq (level : Byte) : maskedLevel level = BitVec.ofNat 8 (level.toNat % 16) := by
  have hmask : (maskedLevel level).toNat = level.toNat % 16 := by
    rw [maskedLevel, BitVec.toNat_and]
    exact Nat.and_two_pow_sub_one_eq_mod level.toNat 4
  rw [← hmask, BitVec.ofNat_toNat, BitVec.setWidth_eq]

/-- Settles O42: a broadcast of the masked level. -/
theorem setIntensityCompletes : Obligations.SetIntensityCompletes := by
  intro s level hs hg
  refine exec_completes_with (i := .setIntensity level) rfl (.inr hs) trivial hg ?_ hs
  rw [instrEvents, setIntensityEvents, sendToAll_eq_pulseOf, maskedLevel_eq]
  rfl

/-- Settles O43: each primitive is one pulse. -/
theorem sendCommandsComplete : Obligations.SendCommandsComplete := by
  intro s p r v hs hg
  refine ⟨fun hp => exec_completes_with (i := .sendPos p r v) rfl (.inr hs) hp hg ?_ hs,
    exec_completes_with (i := .sendAll r v) rfl (.inr hs) trivial hg (sendToAll_eq_pulseOf ..) hs⟩
  exact sendToPosition_eq_pulseOf_framesAt hp r v

/-- Settles O44: a quiet host's font glyph, rendered at a position inside the chain. -/
theorem renderCharCompletes : Obligations.RenderCharCompletes := by
  intro s p ch hs hg hq hp
  refine exec_completes_with (i := .renderChar p ch) rfl (.inr hs) hp hg ?_ hs
  rw [instrEvents, renderCharEvents, renderGlyph_eq_glyphPulses hp, s.glyph_of_quiet hq]

/-- Settles O45: every position's glyph by `textGlyph_of_quiet`. -/
theorem renderTextCompletes : Obligations.RenderTextCompletes := by
  intro s len hs hg hq
  exact exec_completes_with (i := .renderText len) rfl (.inr hs) trivial hg (renderTextEvents_of_quiet hq len) hs

/-- Settles O46: every position's window is the strip's glyph there. -/
theorem renderScrollCompletes : Obligations.RenderScrollCompletes := by
  intro s len o hs hg hq
  refine exec_completes_with (i := .renderScroll len o) rfl (.inr hs) trivial hg ?_ hs
  refine List.flatMap_congr fun k hk => ?_
  rw [renderGlyph_eq_glyphPulses (List.mem_range.mp hk), window_eq_stripGlyph hq]
  rfl

/-- With the font precondition the glyphs of RENDER_TEXT are the windows of RENDER_SCROLL at offset 0. -/
theorem renderTextEvents_eq_scroll {s : State} (hq : s.quiet) (hf : s.fontPrecondition) (len : Nat) :
    instrEvents (.renderText len) s = instrEvents (.renderScroll len 0) s := by
  refine List.flatMap_congr fun k _ => congrArg _ ?_
  rw [window_zero hq, textGlyph_of_quiet hq]
  split
  · rfl
  · exact (s.glyph_of_quiet hq 0 spaceCode).symm.trans (hf 0)

/-- Settles O55: the two commands emit the same events, and a command's end depends on its events and SESSION alone. -/
theorem textEqualsScrollAtOffsetZero : Obligations.TextEqualsScrollAtOffsetZero := by
  refine ⟨fun s len k hq => window_zero hq len k, fun s t len hs hg hq hf h => ?_⟩
  rw [exec_completes (i := .renderText len) rfl (.inr hs) trivial hg] at h
  rw [← h, exec_completes (i := .renderScroll len 0) rfl (.inr hs) trivial hg, renderTextEvents_eq_scroll hq hf]
  rfl

/-! ## Output frames -/

theorem State.sendFrame_complete {s : State} (hg : s.transportCompletes) (r v : Byte) : s.sendFrame r v = s.afterFrame r v := by
  rw [State.sendFrame, State.transfer_complete hg]
  rfl

/-- Settles O47: every frame row is its register byte's `sendFrame`. -/
theorem framesTransferTwoBytes : Obligations.FramesTransferTwoBytes := by
  intro s v hg
  have h : ∀ r, Host.Outcome.next (s.sendFrame r v) = (Host.Outcome.next (s.afterFrame r v) : Host.Outcome State Fault Refusal) :=
    fun r => congrArg _ (State.sendFrame_complete hg r v)
  exact ⟨h _, h _, h _, h _, h _, h _, h _, h _, h _, h _, h _, h _, h _, h _⟩

/-! ## What a completed command leaves in the chip registers -/

/-- The writes of OPEN's configuration broadcasts, register and value (44_display_session.md R148; log 2). -/
def openConfig : List (Byte × Byte) := [(0x0B, 0x07), (0x09, 0x00), (0x0F, 0x00), (0x0A, 0x0F), (0x0C, 0x01)]

theorem openConfig_functional : ∀ p ∈ openConfig, ∀ q ∈ openConfig, p.1 = q.1 → p.2 = q.2 := by
  simp [openConfig]

theorem openConfig_register : ∀ p ∈ openConfig, (9 ≤ p.1.toNat ∧ p.1.toNat ≤ 12) ∨ p.1.toNat = 15 := by
  simp [openConfig]

theorem slotWrites_renderFrames {n k : Nat} {g : Nat → Glyph} {x y : Byte} {fs : List (Byte × Byte)} (hfs : fs ∈ renderFrames n g)
    (h : slotWrites fs k x y) : k < n ∧ ∃ col < 8, x = BitVec.ofNat 8 (col + 1) ∧ y = glyphByte (rot (g k)) col := by
  obtain ⟨p, -, hp⟩ := List.mem_flatMap.mp hfs
  obtain ⟨hk, rfl, hcol⟩ := slotWrites_glyphFrames hp h
  exact ⟨hk, hcol⟩

theorem exists_slotWrites_renderFrames {n k col : Nat} (hk : k < n) (hcol : col < 8) (g : Nat → Glyph) :
    ∃ fs ∈ renderFrames n g, slotWrites fs k (BitVec.ofNat 8 (col + 1)) (glyphByte (rot (g k)) col) := by
  obtain ⟨fs, hfs, hw⟩ := exists_slotWrites_glyphFrames hk hcol (g k)
  exact ⟨fs, List.mem_flatMap.mpr ⟨k, List.mem_range.mpr hk, hfs⟩, hw⟩

/-- What OPEN writes: the configuration and the glyphs of its render of length 0. -/
theorem slotWrites_open {s : State} {k : Nat} {x y : Byte} {fs : List (Byte × Byte)} (hfs : fs ∈ pulseFrames .openSession s)
    (h : slotWrites fs k x y) : k < s.params.n ∧
      ((x, y) ∈ openConfig ∨ ∃ col < 8, x = BitVec.ofNat 8 (col + 1) ∧ y = glyphByte (rot (textGlyph s 0 k)) col) := by
  have hconfig : ∀ p ∈ openConfig, fs = List.replicate s.params.n p → k < s.params.n ∧ (x, y) ∈ openConfig := by
    rintro ⟨r, v⟩ hp rfl
    obtain ⟨hk, rfl, rfl⟩ := slotWrites_replicate h
    exact ⟨hk, hp⟩
  simp only [pulseFrames, List.mem_append, List.mem_flatten, List.mem_replicate, List.mem_singleton] at hfs
  rcases hfs with (⟨_, ⟨-, rfl⟩, hgroup⟩ | hrender) | hlast
  · simp only [groupFrames, List.mem_cons, List.not_mem_nil, or_false] at hgroup
    rcases hgroup with hfs | hfs | hfs | hfs <;> exact (hconfig _ (by decide) hfs).imp_right .inl
  · exact (slotWrites_renderFrames hrender h).imp_right .inr
  · exact (hconfig _ (by decide) hlast).imp_right .inl

theorem exists_slotWrites_open {s : State} (hrep : 1 ≤ s.params.initRepeat) {k : Nat} (hk : k < s.params.n) {p : Byte × Byte}
    (hp : p ∈ openConfig) : ∃ fs ∈ pulseFrames .openSession s, slotWrites fs k p.1 p.2 := by
  have hmem : List.replicate s.params.n p ∈ pulseFrames .openSession s := by
    simp only [pulseFrames, List.mem_append, List.mem_flatten, List.mem_replicate, List.mem_singleton]
    simp only [openConfig, List.mem_cons, List.not_mem_nil, or_false] at hp
    have hgroup : ∀ fs ∈ groupFrames s.params.n, ∃ l, (s.params.initRepeat ≠ 0 ∧ l = groupFrames s.params.n) ∧ fs ∈ l :=
      fun fs hfs => ⟨_, ⟨by omega, rfl⟩, hfs⟩
    rcases hp with rfl | rfl | rfl | rfl | rfl
    · exact .inl (.inl (hgroup _ (by simp [groupFrames])))
    · exact .inl (.inl (hgroup _ (by simp [groupFrames])))
    · exact .inl (.inl (hgroup _ (by simp [groupFrames])))
    · exact .inl (.inl (hgroup _ (by simp [groupFrames])))
    · exact .inr rfl
  have hne : p.1 ≠ 0 := by
    intro h0
    have hreg := openConfig_register p hp
    simp [h0] at hreg
  exact ⟨_, hmem, slotWrites_replicate_self hk hne p.2⟩

/-- A register that some pulse of a command writes, and all to one value, holds it when the command has ended. -/
theorem chipReg_of_completed {i : Instr} {s t : State} (hi : i.isCommand = true) (hs : i = .openSession ∨ s.session = .opened)
    (hp : positionInChain s.params.n i) (hg : s.transportCompletes) (h : exec i s = .next t) {k : Nat} {r v : Byte}
    (hall : ∀ fs ∈ pulseFrames i s, ∀ w, slotWrites fs k r w → w = v) (hex : ∃ fs ∈ pulseFrames i s, slotWrites fs k r v) :
    t.chain.chipReg k r = some v := by
  rw [exec_completes hi hs hp hg, Host.Outcome.next.injEq] at h
  have hclosing : .selDeassert ∉ closingEvents i := by cases i <;> simp [closingEvents]
  have hchain : t.chain = (instrEvents i s).foldl (Chain.take s.params.n) s.chain := by rw [← h]; rfl
  rw [hchain, instrEvents_eq_pulses hi hp, List.foldl_append, List.foldl_append, chipReg_foldl_of_no_latch hclosing]
  exact chipReg_pulses_of_writes (fun _ => length_of_mem_pulseFrames) hall hex _

/-- Settles O49: of OPEN's writes to a register all have one value. -/
theorem openConfiguresEveryChip : Obligations.OpenConfiguresEveryChip := by
  intro s t k hg hq hrep h hk
  have hconfig : ∀ p ∈ openConfig, t.chain.chipReg k p.1 = some p.2 := fun p hp => by
    refine chipReg_of_completed rfl (.inl rfl) trivial hg h (fun fs hfs w hw => ?_) (exists_slotWrites_open hrep hk hp)
    obtain ⟨-, hmem | ⟨col, hcol, hx, -⟩⟩ := slotWrites_open hfs hw
    · exact openConfig_functional _ hmem _ hp rfl
    · have hreg := openConfig_register p hp
      rw [hx, toNat_digitReg hcol] at hreg
      omega
  refine ⟨hconfig (0x0B, 0x07) (by decide), hconfig (0x09, 0x00) (by decide), hconfig (0x0F, 0x00) (by decide),
    hconfig (0x0A, 0x0F) (by decide), hconfig (0x0C, 0x01) (by decide), fun col hcol => ?_⟩
  have hspace : textGlyph s 0 k = hostGlyph s 0x20 := by
    rw [textGlyph_of_quiet hq, if_neg (Nat.not_lt_zero k)]
  rw [← hspace]
  refine chipReg_of_completed rfl (.inl rfl) trivial hg h (fun fs hfs w hw => ?_) ?_
  · obtain ⟨-, hmem | ⟨col', hcol', hx, hw'⟩⟩ := slotWrites_open hfs hw
    · have hreg := openConfig_register _ hmem
      rw [toNat_digitReg hcol] at hreg
      omega
    · rw [hw', digitReg_inj hcol hcol' hx]
  · obtain ⟨fs, hfs, hw⟩ := exists_slotWrites_renderFrames hk hcol (textGlyph s 0)
    exact ⟨fs, List.mem_append_left _ (List.mem_append_right _ hfs), hw⟩

/-- Settles O50: each digit register of the chip at k is written by one pulse of its own render. -/
theorem renderTextFillsEveryChip : Obligations.RenderTextFillsEveryChip := by
  intro s t len k hs hg hq h hk col hcol
  rw [← textGlyph_of_quiet hq]
  refine chipReg_of_completed (i := .renderText len) rfl (.inr hs) trivial hg h (fun fs hfs w hw => ?_)
    (exists_slotWrites_renderFrames hk hcol (textGlyph s len))
  obtain ⟨-, col', hcol', hx, hw'⟩ := slotWrites_renderFrames hfs hw
  rw [hw', digitReg_inj hcol hcol' hx]

end Sys2Proof.Machine
end

section
/-! The laws of the rotator (42_glyph_rotator.md R106, R107), each bit by bit. -/

namespace Sys2Proof.Machine

/-- Two glyphs of 8 bytes with the same bits are equal. -/
theorem glyph_ext_bits {g h : Glyph} (hg : g.length = 8) (hh : h.length = 8)
    (e : ∀ i < 8, ∀ k < 8, (glyphByte g i).getLsbD k = (glyphByte h i).getLsbD k) : g = h :=
  glyph_ext hg hh fun i hi => BitVec.eq_of_getLsbD_eq fun k hk => e i hi k hk

theorem getLsbD_glyphByte_unrot (c : Glyph) {i k : Nat} (hi : i < 8) (hk : k < 8) :
    (glyphByte (unrot c) i).getLsbD k = (glyphByte c k).getLsbD (7 - i) := by
  rw [glyphByte_unrot c hi, getLsbD_unrotByte c i k hk]

theorem unrot_rot {g : Glyph} (hg : g.length = 8) : unrot (rot g) = g := by
  refine glyph_ext_bits (length_unrot _) hg fun i hi k hk => ?_
  rw [getLsbD_glyphByte_unrot _ hi hk, getLsbD_glyphByte_rot g hk (by omega), show 7 - (7 - i) = i by omega]

theorem rot_unrot {g : Glyph} (hg : g.length = 8) : rot (unrot g) = g := by
  refine glyph_ext_bits (length_rot _) hg fun i hi k hk => ?_
  rw [getLsbD_glyphByte_rot _ hi hk, getLsbD_glyphByte_unrot g (by omega) hi, show 7 - (7 - k) = k by omega]

/-- A half turn: bit `k` of byte `c` comes from the mirrored place in both directions. -/
theorem getLsbD_glyphByte_rot_rot (g : Glyph) {c k : Nat} (hc : c < 8) (hk : k < 8) :
    (glyphByte (rot (rot g)) c).getLsbD k = (glyphByte g (7 - c)).getLsbD (7 - k) := by
  rw [getLsbD_glyphByte_rot _ hc hk, getLsbD_glyphByte_rot g (by omega) hc]

theorem glyphByte_rot_rot (g : Glyph) {c : Nat} (hc : c < 8) : glyphByte (rot (rot g)) c = bitrev8 (glyphByte g (7 - c)) :=
  BitVec.eq_of_getLsbD_eq fun k hk => by rw [getLsbD_glyphByte_rot_rot g hc hk, getLsbD_bitrev8 _ k hk]

theorem rot_four {g : Glyph} (hg : g.length = 8) : rot (rot (rot (rot g))) = g := by
  refine glyph_ext_bits (length_rot _) hg fun i hi k hk => ?_
  rw [getLsbD_glyphByte_rot_rot _ hi hk, getLsbD_glyphByte_rot_rot g (by omega) (by omega), show 7 - (7 - i) = i by omega,
    show 7 - (7 - k) = k by omega]

/-- A glyph of one byte, whose bits are all 0 or all 1, in every place is fixed. -/
theorem rot_replicate (b : Byte) (h : ∀ k < 8, b.getLsbD k = b.getLsbD 0) : rot (List.replicate 8 b) = List.replicate 8 b := by
  have hbyte : ∀ i < 8, glyphByte (List.replicate 8 b) i = b := fun i hi => List.getD_replicate b hi
  refine glyph_ext_bits (length_rot _) List.length_replicate fun i hi k hk => ?_
  rw [getLsbD_glyphByte_rot _ hi hk, hbyte _ (by omega), hbyte i hi, h i hi, h k hk]

/-- Settles O39: the inverse, the half turn and the full turn bit by bit; the lone bit of byte 0 is not fixed by a half turn. -/
theorem rotatorHasInverse : Obligations.RotatorHasInverse := by
  refine ⟨fun g hg => ⟨unrot_rot hg, rot_unrot hg⟩, rot_replicate 0 (by decide), rot_replicate 0xFF (by decide),
    fun g c hc => glyphByte_rot_rot g hc, fun g hg => rot_four hg, [1, 0, 0, 0, 0, 0, 0, 0], rfl, fun h => ?_⟩
  have hbyte := congrArg (fun g => glyphByte g 0) h
  simp only [glyphByte_rot_rot _ (show 0 < 8 by decide)] at hbyte
  revert hbyte
  decide

end Sys2Proof.Machine
end

section
/-! What every instruction keeps, whatever the transport completes of it and whatever fault it takes: the events it emits are a first
part of its own, and with them only the lines, the chain and the elements of its end move (10_state.md section 4, 20_memory.md). -/

namespace Sys2Proof.Machine

open Sys2Proof.Config

/-! ## The events emitted -/

/-- Between `s` and `t` exactly the events `evs` have been emitted, on the trace, the lines and the chain. -/
structure Emitted (s t : State) (evs : List Event) : Prop where
  trace : t.trace = s.trace ++ evs
  lines : t.lines = evs.foldl Lines.take s.lines
  chain : t.chain = evs.foldl (Chain.take s.params.n) s.chain

theorem emitted_afterFault (s : State) (c : Cause) (w : CommandWord) : Emitted s (s.afterFault c w) [] :=
  ⟨(List.append_nil _).symm, rfl, rfl⟩

theorem emitted_transfer (s : State) (evs : List Event) : Emitted s (s.transfer evs) (evs.take (s.completes evs.length)) := by
  rw [State.transfer_eq]
  exact ⟨rfl, rfl, rfl⟩

theorem emitted_perform (s : State) (i : Instr) (evs : List Event) :
    Emitted s (s.perform i evs) (evs.take (s.completes evs.length)) := by
  rw [State.perform_eq]
  split
  · rename_i hall
    rw [hall, List.take_length]
    exact ⟨rfl, rfl, rfl⟩
  · exact ⟨rfl, rfl, rfl⟩

/-- An instruction emits a first part of its events: none where it takes a fault. -/
theorem exec_emitted {i : Instr} {s t : State} (h : exec i s = .next t) :
    ∃ m, Emitted s t ((instrEvents i s).take m) ∧ (i.isCommand = true → positionInChain s.params.n i ∨ m = 0) := by
  cases hi : i.isCommand with
  | true =>
    cases exec_command_cases hi h with
    | notOpen _ _ ht | badPosition _ _ ht => exact ⟨0, ht ▸ emitted_afterFault _ _ _, fun _ => .inr rfl⟩
    | runs _ hp ht => exact ⟨_, ht ▸ emitted_perform s i _, fun _ => .inl hp⟩
  | false =>
    obtain ⟨r, v, hevs, hx⟩ := exec_frame hi
    rw [hx, Host.Outcome.next.injEq] at h
    rw [hevs]
    exact ⟨_, h ▸ emitted_transfer s _, fun hf => nomatch hf⟩

/-! ## Which events an instruction has -/

theorem ofPulse_of_mem_pulseOf {fs : List (Byte × Byte)} {e : Event} (h : e ∈ pulseOf fs) : e.ofPulse = true := by
  rw [pulseOf, frames_as_xfers, List.mem_append, List.mem_cons, List.mem_map, List.mem_singleton] at h
  rcases h with (rfl | ⟨b, -, rfl⟩) | rfl <;> rfl

theorem ofPulse_of_mem_pulses {pulses : List (List (Byte × Byte))} {e : Event} (h : e ∈ pulses.flatMap pulseOf) :
    e.ofPulse = true := by
  obtain ⟨fs, -, he⟩ := List.mem_flatMap.mp h
  exact ofPulse_of_mem_pulseOf he

/-- SelDrive and XportInit are in OPEN alone, XportRelease in CLOSE alone; every other event is a pulse's. -/
theorem mem_instrEvents {i : Instr} {s : State} (hp : i.isCommand = true → positionInChain s.params.n i) {e : Event}
    (h : e ∈ instrEvents i s) :
    e.ofPulse = true ∨ (i = .openSession ∧ (e = .selDrive ∨ e = .xportInit)) ∨ (i = .closeSession ∧ e = .xportRelease) := by
  cases hi : i.isCommand with
  | true =>
    rw [instrEvents_eq_pulses hi (hp hi), List.mem_append, List.mem_append] at h
    rcases h with (hopen | hpulse) | hclose
    · cases i <;> simp [openingEvents] at hopen
      exact .inr (.inl ⟨rfl, hopen⟩)
    · exact .inl (ofPulse_of_mem_pulses hpulse)
    · cases i <;> simp [closingEvents] at hclose
      exact .inr (.inr ⟨rfl, hclose⟩)
  | false =>
    obtain ⟨r, v, hevs, -⟩ := exec_frame hi
    rw [hevs] at h
    simp only [List.mem_cons, List.not_mem_nil, or_false] at h
    rcases h with rfl | rfl <;> exact .inl rfl

theorem Lines.selDriven_take_of_ne {e : Event} (h : e ≠ .selDrive) (l : Lines) : (l.take e).selDriven = l.selDriven := by
  cases e with
  | selDrive => exact absurd rfl h
  | _ => rfl

theorem Lines.xportActive_take_of_ne {e : Event} (h : e ≠ .xportInit) (h' : e ≠ .xportRelease) (l : Lines) :
    (l.take e).xportActive = l.xportActive := by
  cases e with
  | xportInit => exact absurd rfl h
  | xportRelease => exact absurd rfl h'
  | _ => rfl

theorem selDriven_foldl_of_notMem {evs : List Event} (h : .selDrive ∉ evs) (l : Lines) :
    (evs.foldl Lines.take l).selDriven = l.selDriven := by
  induction evs generalizing l with
  | nil => rfl
  | cons e rest ih =>
    rw [List.mem_cons, not_or] at h
    rw [List.foldl_cons, ih h.2, Lines.selDriven_take_of_ne (Ne.symm h.1)]

theorem xportActive_foldl_of_notMem {evs : List Event} (h : .xportInit ∉ evs) (h' : .xportRelease ∉ evs) (l : Lines) :
    (evs.foldl Lines.take l).xportActive = l.xportActive := by
  induction evs generalizing l with
  | nil => rfl
  | cons e rest ih =>
    rw [List.mem_cons, not_or] at h h'
    rw [List.foldl_cons, ih h.2 h'.2, Lines.xportActive_take_of_ne (Ne.symm h.1) (Ne.symm h'.1)]

/-- SEL_DRIVEN moves only in OPEN. -/
theorem exec_selDriven {i : Instr} {s t : State} (h : exec i s = .next t) (hi : i ≠ .openSession) :
    t.lines.selDriven = s.lines.selDriven := by
  obtain ⟨m, he, hp⟩ := exec_emitted h
  rw [he.lines]
  rcases Nat.eq_zero_or_pos m with rfl | hm
  · rfl
  · refine selDriven_foldl_of_notMem (fun hmem => ?_) _
    have hpos : i.isCommand = true → positionInChain s.params.n i := fun hc => (hp hc).resolve_right (by omega)
    rcases mem_instrEvents hpos (List.mem_of_mem_take hmem) with hx | ⟨ho, -⟩ | ⟨-, hx⟩
    · exact nomatch hx
    · exact hi ho
    · exact nomatch hx

/-- XPORT_ACTIVE moves only in OPEN and CLOSE. -/
theorem exec_xportActive {i : Instr} {s t : State} (h : exec i s = .next t) (ho : i ≠ .openSession) (hc : i ≠ .closeSession) :
    t.lines.xportActive = s.lines.xportActive := by
  obtain ⟨m, he, hp⟩ := exec_emitted h
  rw [he.lines]
  rcases Nat.eq_zero_or_pos m with rfl | hm
  · rfl
  · have hpos : i.isCommand = true → positionInChain s.params.n i := fun hi => (hp hi).resolve_right (by omega)
    have hpulse : ∀ e ∈ (instrEvents i s).take m, e.ofPulse = true := fun e hmem => by
      rcases mem_instrEvents hpos (List.mem_of_mem_take hmem) with hx | ⟨hx, -⟩ | ⟨hx, -⟩
      · exact hx
      · exact absurd hx ho
      · exact absurd hx hc
    exact xportActive_foldl_of_notMem (fun hmem => nomatch hpulse _ hmem) (fun hmem => nomatch hpulse _ hmem) _

/-! ## What an instruction leaves -/

/-- What no instruction writes: the parameters, the ports of the host, FONT and TEXT, the race count and the schedule. -/
structure RestKept (s t : State) : Prop where
  params : t.params = s.params
  port : t.port = s.port
  rst : t.rst = s.rst
  font : t.font = s.font
  text : t.text = s.text
  raceCount : t.raceCount = s.raceCount
  sched : t.sched = s.sched

theorem restKept_transfer (s : State) (evs : List Event) : RestKept s (s.transfer evs) := by
  rw [State.transfer_eq]
  exact ⟨rfl, rfl, rfl, rfl, rfl, rfl, rfl⟩

theorem restKept_perform (s : State) (i : Instr) (evs : List Event) : RestKept s (s.perform i evs) := by
  rcases s.perform_cases i evs with ⟨g, h⟩ | ⟨m, g, -, h⟩ <;> rw [h] <;> exact ⟨rfl, rfl, rfl, rfl, rfl, rfl, rfl⟩

theorem exec_restKept {i : Instr} {s t : State} (h : exec i s = .next t) : RestKept s t := by
  cases hi : i.isCommand with
  | true =>
    cases exec_command_cases hi h with
    | notOpen _ _ ht | badPosition _ _ ht => rw [ht]; exact ⟨rfl, rfl, rfl, rfl, rfl, rfl, rfl⟩
    | runs _ _ ht => rw [ht]; exact restKept_perform s i _
  | false =>
    obtain ⟨r, v, -, hx⟩ := exec_frame hi
    rw [hx, Host.Outcome.next.injEq] at h
    rw [← h]
    exact restKept_transfer s _

/-- SESSION moves only in OPEN and CLOSE. -/
theorem exec_session {i : Instr} {s t : State} (h : exec i s = .next t) (ho : i ≠ .openSession) (hc : i ≠ .closeSession) :
    t.session = s.session := by
  by_contra hne
  rcases (exec_session_change h hne).open_or_close hne with ⟨hi, -⟩ | ⟨hi, -⟩
  · exact ho hi
  · exact hc hi

/-- The fault registers of an instruction: kept, or written by a fault that moves nothing else the spec names. -/
theorem exec_faultRegisters {i : Instr} {s t : State} (h : exec i s = .next t) :
    (t.faulted = s.faulted ∧ t.cause = s.cause ∧ t.faultCmd = s.faultCmd) ∨
      (t.faulted = true ∧ t.faultCmd = s.latched ∧ t.trace = s.trace ∧ t.lines = s.lines ∧ t.chain = s.chain ∧
        t.grant = s.grant ∧ t.session = s.session) := by
  cases exec_effect h with
  | keeps _ hk | ends _ hk => exact .inl ⟨hk.faulted, hk.cause, hk.faultCmd⟩
  | faults c _ ht => rw [ht]; exact .inr ⟨rfl, rfl, rfl, rfl, rfl, rfl, rfl⟩

theorem lines_foldl_xfers (bs : List Byte) (l : Lines) : (bs.map Event.xfer).foldl Lines.take l = l := by
  induction bs with
  | nil => rfl
  | cons b rest ih => exact ih

/-- An output frame transfers its two bytes, and latches nothing (R57). -/
theorem exec_frame_keeps {i : Instr} {s t : State} (hi : i.isCommand = false) (h : exec i s = .next t) :
    t.session = s.session ∧ t.busy = s.busy ∧ t.faulted = s.faulted ∧ t.cause = s.cause ∧ t.faultCmd = s.faultCmd ∧
      t.lines = s.lines ∧ t.latched = s.latched ∧ t.racedFont = s.racedFont ∧ t.racedText = s.racedText ∧
      t.chain.regs = s.chain.regs := by
  obtain ⟨r, v, -, hx⟩ := exec_frame hi
  rw [hx, Host.Outcome.next.injEq] at h
  have he := emitted_transfer s ([r, v].map .xfer)
  rw [← List.map_take] at he
  have hl : t.lines = s.lines := by rw [← h]; exact he.lines.trans (lines_foldl_xfers _ _)
  have hno : Event.selDeassert ∉ ([r, v].take (s.completes ([r, v].map Event.xfer).length)).map Event.xfer := fun hm => by
    obtain ⟨b, -, hb⟩ := List.mem_map.mp hm
    exact nomatch hb
  have hc : t.chain.regs = s.chain.regs := by
    rw [← h]
    exact (congrArg Chain.regs he.chain).trans (regs_foldl_of_no_latch hno _)
  rw [State.transfer_eq] at h
  exact ⟨h ▸ rfl, h ▸ rfl, h ▸ rfl, h ▸ rfl, h ▸ rfl, hl, h ▸ rfl, h ▸ rfl, h ▸ rfl, hc⟩

/-- Settles O48: clause by clause, from what an instruction emits and from what it can do to SESSION and the fault registers. -/
theorem instructionsLeaveTheRestUnchanged : Obligations.InstructionsLeaveTheRestUnchanged := by
  intro i s t h
  have hr := exec_restKept h
  obtain ⟨m, he, -⟩ := exec_emitted h
  exact ⟨hr.params, hr.port, hr.rst, hr.font, hr.text, hr.raceCount, hr.sched, ⟨_, he.trace.symm⟩, exec_faultRegisters h,
    exec_session h, exec_selDriven h, exec_xportActive h, fun hi => exec_frame_keeps hi h⟩

/-! ## The chip registers -/

theorem digitReg_of_slot {col : Nat} {r : Byte} (hcol : col < 8) (h : r = BitVec.ofNat 8 (col + 1)) : 1 ≤ r.toNat ∧ r.toNat ≤ 8 := by
  have hnum := toNat_digitReg hcol
  rw [← h] at hnum
  omega

/-- A write of a command's pulses is one that its rule names (R96, R97, R110, R146, R148). -/
theorem mayWriteChip_of_slotWrites {i : Instr} {s : State} {fs : List (Byte × Byte)} (hfs : fs ∈ pulseFrames i s) {k : Nat}
    {r v : Byte} (h : slotWrites fs k r v) : mayWriteChip s.params.n i k r := by
  have hr : r.toNat ≠ 0 := fun h0 => h.2 (BitVec.eq_of_toNat_eq h0)
  cases i with
  | openSession =>
    obtain ⟨hk, hmem | ⟨col, hcol, hx, -⟩⟩ := slotWrites_open hfs h
    · have hreg : (9 ≤ r.toNat ∧ r.toNat ≤ 12) ∨ r.toNat = 15 := openConfig_register _ hmem
      exact ⟨hk, by omega⟩
    · have hd := digitReg_of_slot hcol hx
      exact ⟨hk, by omega⟩
  | closeSession =>
    obtain ⟨hk, rfl, -⟩ := slotWrites_replicate (List.mem_singleton.mp hfs ▸ h)
    exact ⟨hk, rfl⟩
  | setIntensity level =>
    obtain ⟨hk, rfl, -⟩ := slotWrites_replicate (List.mem_singleton.mp hfs ▸ h)
    exact ⟨hk, rfl⟩
  | renderText | renderScroll =>
    obtain ⟨hk, col, hcol, hx, -⟩ := slotWrites_renderFrames hfs h
    exact ⟨hk, digitReg_of_slot hcol hx⟩
  | sendPos pos reg val =>
    obtain ⟨-, hk, hx, -⟩ := slotWrites_framesAt (List.mem_singleton.mp hfs ▸ h)
    exact ⟨hk, hx, hr⟩
  | sendAll reg val =>
    obtain ⟨hk, hx, -⟩ := slotWrites_replicate (List.mem_singleton.mp hfs ▸ h)
    exact ⟨hk, hx, hr⟩
  | renderChar pos code =>
    obtain ⟨-, hk, col, hcol, hx, -⟩ := slotWrites_glyphFrames hfs h
    exact ⟨hk, digitReg_of_slot hcol hx⟩
  | _ => simp [pulseFrames] at hfs

/-- However many of a command's events have been completed, a chip register that no pulse writes is unchanged. -/
theorem chipReg_take_instrEvents {i : Instr} {s : State} (hi : i.isCommand = true) (hp : positionInChain s.params.n i) {k : Nat}
    {r : Byte} (h : ∀ fs ∈ pulseFrames i s, ∀ v, ¬ slotWrites fs k r v) (m : Nat) (c : Chain) :
    (((instrEvents i s).take m).foldl (Chain.take s.params.n) c).chipReg k r = c.chipReg k r := by
  have hopening : .selDeassert ∉ openingEvents i := by cases i <;> simp [openingEvents]
  have hclosing : .selDeassert ∉ closingEvents i := by cases i <;> simp [closingEvents]
  rw [instrEvents_eq_pulses hi hp, List.take_append, List.take_append, List.foldl_append, List.foldl_append,
    chipReg_foldl_of_no_latch fun hmem => hclosing (List.mem_of_mem_take hmem),
    chipReg_take_pulses (fun _ => length_of_mem_pulseFrames) h,
    chipReg_foldl_of_no_latch fun hmem => hopening (List.mem_of_mem_take hmem)]

/-- Settles O37: a command's pulses write only what its rule names, and without a SelDeassert nothing is latched. -/
theorem instructionsWriteOnlyTheirChipRegisters : Obligations.InstructionsWriteOnlyTheirChipRegisters := by
  intro i s t k r h hno
  cases hi : i.isCommand with
  | true =>
    obtain ⟨m, he, hp⟩ := exec_emitted h
    rw [he.chain]
    rcases hp hi with hp | rfl
    · exact chipReg_take_instrEvents hi hp (fun fs hfs v hw => hno (mayWriteChip_of_slotWrites hfs hw)) m s.chain
    · rfl
  | false =>
    obtain ⟨-, -, -, -, -, -, -, -, -, hregs⟩ := exec_frame_keeps hi h
    rw [Chain.chipReg, Chain.chipReg, hregs]

/-! ## The part of a command that the transport completes -/

/-- Settles O58: the transport completes the lesser of its count and the number of the events. -/
theorem commandEmitsWhatTheTransportCompletes : Obligations.CommandEmitsWhatTheTransportCompletes := by
  intro i s g hi hp hs hg
  refine ⟨_, exec_runs hi hs hp, ?_⟩
  have hc : s.completes (instrEvents i s).length = min g (instrEvents i s).length := by rw [State.completes, hg]
  rw [State.perform_eq, hc]
  rcases Nat.lt_or_ge g (instrEvents i s).length with hlt | hge
  · rw [Nat.min_eq_left (by omega), if_neg (by omega)]
    refine ⟨rfl, iff_of_false Bool.noConfusion (by omega), fun _ => ⟨rfl, ?_, rfl⟩⟩
    simp [hg]
  · rw [Nat.min_eq_right hge, if_pos rfl, List.take_of_length_le hge]
    exact ⟨rfl, iff_of_true rfl hge, fun hlt => absurd hge (by omega)⟩

end Sys2Proof.Machine
end

section
/-! What FONT and TEXT do to an instruction (20_memory.md R49, 70_reset_and_hazards.md R189): another TEXT with the same events gives the
same result, and other contents of both memories change transferred bytes and chip registers only. -/

namespace Sys2Proof.Machine

open Sys2Proof.Config

/-! ## Another TEXT with the same events -/

theorem State.perform_withText (s : State) (m : Memory) (i : Instr) (evs : List Event) :
    ({ s with text := m } : State).perform i evs = { s.perform i evs with text := m } := by
  have hc : ({ s with text := m } : State).completes evs.length = s.completes evs.length := rfl
  rw [State.perform_eq, State.perform_eq, hc]
  split <;> rfl

/-- A command with the same events of another TEXT ends in the same state, but for TEXT. -/
theorem exec_withText {i : Instr} {s t : State} {m : Memory} (hi : i.isCommand = true)
    (he : instrEvents i { s with text := m } = instrEvents i s) (h : exec i s = .next t) :
    exec i { s with text := m } = .next { t with text := m } := by
  cases exec_command_cases hi h with
  | notOpen ho hs ht => rw [ht]; exact exec_notOpen (s := { s with text := m }) hi ho hs
  | badPosition hs hp ht => rw [ht]; exact exec_badPosition (s := { s with text := m }) hi hs hp
  | runs hs hp ht => rw [ht, exec_runs (s := { s with text := m }) hi hs hp, he, State.perform_withText]

/-- A character read at an address where the two TEXTs agree. -/
theorem State.char_withText {s : State} {m : Memory} {a : Nat} (h : m.readByte a = s.text.readByte a) (tag : Nat) :
    ({ s with text := m } : State).char tag a = s.char tag a := by
  simp only [State.char, State.textByte, h]

theorem renderTextEvents_withText {s : State} {m : Memory} {len : Nat}
    (h : ∀ a, a < len → a < s.params.n → m.readByte a = s.text.readByte a) :
    instrEvents (.renderText len) { s with text := m } = instrEvents (.renderText len) s := by
  refine List.flatMap_congr fun k hk => congrArg _ ?_
  unfold textGlyph
  split
  · rename_i hlt
    rw [State.char_withText (h k hlt (List.mem_range.mp hk))]
    rfl
  · rfl

theorem charGlyph_withText {s : State} {m : Memory} {len : Nat} (h : ∀ a, a < len → m.readByte a = s.text.readByte a)
    (tag : Nat) (c : Int) : charGlyph { s with text := m } len tag c = charGlyph s len tag c := by
  unfold charGlyph
  split
  · rw [State.char_withText (h c.toNat (by omega))]
    rfl
  · rfl

theorem renderScrollEvents_withText {s : State} {m : Memory} {len : Nat} (h : ∀ a, a < len → m.readByte a = s.text.readByte a)
    (o : Int) : instrEvents (.renderScroll len o) { s with text := m } = instrEvents (.renderScroll len o) s := by
  simp only [instrEvents, renderScrollEvents, window, scratch, charGlyph_withText h]

/-- Settles O27: the events are the same where TEXT agrees below the length. -/
theorem noTextReadBeyondLength : Obligations.NoTextReadBeyondLength :=
  fun _ _ _ _ o => ⟨fun h => exec_withText rfl (renderTextEvents_withText h), fun h =>
    exec_withText rfl (renderScrollEvents_withText h o)⟩

/-! ## Other contents of both memories -/

/-- `u` is `t` with other memories, up to the bytes on the trace and what the chain holds. -/
structure AlikeButBytes (f m : Memory) (t u : State) : Prop where
  rest : u = { t with font := f, text := m, trace := u.trace, chain := u.chain }
  trace : shape u.trace = shape t.trace
  refused : u.chain.refused = t.chain.refused

theorem shape_take_of_shape {as bs : List Event} (h : shape as = shape bs) (m : Nat) : shape (as.take m) = shape (bs.take m) := by
  rw [shape_take, shape_take, h]

theorem lines_foldl_of_shape {as bs : List Event} (h : shape as = shape bs) (l : Lines) :
    as.foldl Lines.take l = bs.foldl Lines.take l := by
  rw [← lines_shape, h, lines_shape]

/-- Events of one shape leave alike what was alike. -/
theorem alikeButBytes_of_emitted {f m : Memory} {s t u : State} {as bs : List Event} (ht : Emitted s t as)
    (hu : Emitted { s with font := f, text := m } u bs) (hs : shape bs = shape as)
    (hrest : { u with lines := t.lines, trace := t.trace, chain := t.chain } = { t with font := f, text := m }) :
    AlikeButBytes f m t u := by
  have hlines : u.lines = t.lines := by rw [hu.lines, ht.lines]; exact lines_foldl_of_shape hs _
  refine ⟨?_, ?_, ?_⟩
  · obtain ⟨⟩ := u
    simp only [State.mk.injEq] at hrest ⊢
    simp only at hlines
    simp_all
  · rw [hu.trace, ht.trace, shape_append, shape_append, hs]
  · rw [hu.chain, ht.chain]
    exact refused_shape _ (.refl _) rfl hs

theorem alikeButBytes_perform (s : State) (f m : Memory) (i : Instr) {as bs : List Event} (h : shape bs = shape as) :
    AlikeButBytes f m (s.perform i as) (({ s with font := f, text := m } : State).perform i bs) := by
  have hlen : bs.length = as.length := by rw [← length_shape, h, length_shape]
  have hc : ({ s with font := f, text := m } : State).completes bs.length = s.completes as.length := by rw [hlen]; rfl
  have hu := emitted_perform { s with font := f, text := m } i bs
  rw [hc] at hu
  refine alikeButBytes_of_emitted (emitted_perform s i as) hu (shape_take_of_shape h _) ?_
  rw [State.perform_eq, State.perform_eq, hc, hlen]
  split <;> rfl

theorem alikeButBytes_transfer (s : State) (f m : Memory) (evs : List Event) :
    AlikeButBytes f m (s.transfer evs) (({ s with font := f, text := m } : State).transfer evs) := by
  refine alikeButBytes_of_emitted (emitted_transfer s evs) (emitted_transfer _ evs) rfl ?_
  rw [State.transfer_eq, State.transfer_eq]
  rfl

theorem exec_alikeButBytes {i : Instr} {s t u : State} {f m : Memory} (h : exec i s = .next t)
    (h' : exec i { s with font := f, text := m } = .next u) : AlikeButBytes f m t u := by
  cases hi : i.isCommand with
  | true =>
    cases exec_command_cases hi h with
    | notOpen ho hs ht =>
      rw [exec_notOpen (s := { s with font := f, text := m }) hi ho hs, Host.Outcome.next.injEq] at h'
      subst ht h'
      exact ⟨rfl, rfl, rfl⟩
    | badPosition hs hp ht =>
      rw [exec_badPosition (s := { s with font := f, text := m }) hi hs hp, Host.Outcome.next.injEq] at h'
      subst ht h'
      exact ⟨rfl, rfl, rfl⟩
    | runs hs hp ht =>
      rw [exec_runs (s := { s with font := f, text := m }) hi hs hp, Host.Outcome.next.injEq] at h'
      subst ht h'
      exact alikeButBytes_perform s f m i (shape_instrEvents i rfl)
  | false =>
    obtain ⟨r, v, -, hx⟩ := exec_frame hi
    rw [hx, Host.Outcome.next.injEq] at h h'
    subst h h'
    exact alikeButBytes_transfer s f m _

/-- STATUS shows neither the memories, nor the trace, nor the chain. -/
theorem AlikeButBytes.status {f m : Memory} {t u : State} (h : AlikeButBytes f m t u) : u.status = t.status := by
  rw [h.rest]
  rfl

/-- Settles O28: the events of an instruction have one shape whatever the memories hold. -/
theorem memoriesDoNotSteerTheBlock : Obligations.MemoriesDoNotSteerTheBlock := by
  intro i s t u f m h h'
  have ha := exec_alikeButBytes h h'
  exact ⟨ha.rest, ha.trace, ha.refused, ha.status⟩

end Sys2Proof.Machine
end

section
/-! The assembler (30_encoding.md R80, R81): the operand ranges as conditions, the number of operands of a mnemonic, and that a line it
accepts gives a well-formed command. -/

namespace Sys2Proof.Machine

/-! ## Operand ranges -/

theorem bind_ite_some {α β : Type} (p : Prop) [Decidable p] (a : α) (f : α → Option β) :
    (if p then some a else none).bind f = if p then f a else none := by
  split <;> rfl

theorem map_ite_some {α β : Type} (p : Prop) [Decidable p] (a : α) (f : α → β) :
    (if p then some a else none).map f = if p then some (f a) else none := by
  split <;> rfl

/-- A column number selects the digit register after it (R81, R108). -/
theorem asCol_bind_regDigit (n : Int) (f : Byte → Option Instr) :
    (asCol n).bind (fun c => f (Config.regDigit c.val)) = if 0 ≤ n ∧ n ≤ 7 then f (BitVec.ofInt 8 (n + 1)) else none := by
  by_cases h : 0 ≤ n ∧ n ≤ 7
  · obtain ⟨k, rfl⟩ := Int.eq_ofNat_of_zero_le h.1
    have hk : k < 8 := by omega
    have hreg : Config.regDigit k = BitVec.ofInt 8 ((k : Int) + 1) := (BitVec.ofInt_natCast 8 (k + 1)).symm
    simp only [asCol, Int.toNat_natCast, hk, h, dif_pos, if_true, Option.bind_some, hreg, and_self]
  · have hnone : asCol n = none := by
      unfold asCol
      split
      · exact if_neg fun h0 => h ⟨h0, by omega⟩
      · rfl
    rw [hnone, if_neg h, Option.bind_none]

theorem asPos_lt {n : Int} {p : Nat} (h : asPos n = some p) : p < 256 := by
  simp only [asPos, Option.ite_none_right_eq_some, Option.some.injEq] at h
  omega

theorem asLen_lt {n : Int} {l : Nat} (h : asLen n = some l) : l < 65536 := by
  simp only [asLen, Option.ite_none_right_eq_some, Option.some.injEq] at h
  omega

theorem asOfs_range {n o : Int} (h : asOfs n = some o) : -32768 ≤ o ∧ o < 32768 := by
  simp only [asOfs, Option.ite_none_right_eq_some, Option.some.injEq] at h
  omega

/-! ## What a mnemonic makes of its operands -/

/-- Every command the assembler gives is in the ranges of R80. -/
theorem assembleParts_wellFormed {m : Mnemonic} {ops : List Int} {i : Instr} (h : assembleParts m ops = some i) :
    i.isCommand = true ∧ i.wellFormed = true := by
  unfold assembleParts at h
  split at h <;> simp only [Option.bind_eq_some_iff, Option.map_eq_some_iff, Option.some.injEq, reduceCtorEq] at h
  case h_1 | h_2 | h_9 | h_10 | h_11 | h_12 => subst h; exact ⟨rfl, rfl⟩
  case h_3 => obtain ⟨l, -, rfl⟩ := h; exact ⟨rfl, rfl⟩
  case h_4 => obtain ⟨l, hl, rfl⟩ := h; exact ⟨rfl, decide_eq_true (asLen_lt hl)⟩
  case h_5 =>
    obtain ⟨l, hl, o, ho, rfl⟩ := h
    have hlen := asLen_lt hl
    have hofs := asOfs_range ho
    exact ⟨rfl, by simp [Instr.wellFormed, hlen, hofs]⟩
  case h_6 => obtain ⟨p, hp, r, -, v, -, rfl⟩ := h; exact ⟨rfl, decide_eq_true (asPos_lt hp)⟩
  case h_7 => obtain ⟨r, -, v, -, rfl⟩ := h; exact ⟨rfl, rfl⟩
  case h_8 => obtain ⟨p, hp, c, -, rfl⟩ := h; exact ⟨rfl, decide_eq_true (asPos_lt hp)⟩
  case h_13 => obtain ⟨p, hp, c, -, b, -, rfl⟩ := h; exact ⟨rfl, decide_eq_true (asPos_lt hp)⟩

/-- The number of operands of a mnemonic (R80, R81). -/
def Mnemonic.arity : Mnemonic → Nat
  | .open' | .close | .clear | .shutdown | .wake | .nopPulse => 0
  | .setIntensity | .renderText => 1
  | .renderScroll | .sendAll | .renderChar => 2
  | .sendPos | .setColumn => 3

theorem assembleParts_of_arity_ne {m : Mnemonic} {ops : List Int} (h : ops.length ≠ m.arity) : assembleParts m ops = none := by
  unfold assembleParts
  split
  case h_14 => rfl
  all_goals exact absurd rfl h

/-! ## Lines -/

/-- A line that gives a command comes from a mnemonic and numbers. -/
theorem exists_parts_of_assembleLine {line : List Char} {i : Instr} (h : assembleLine line = .instr i) :
    ∃ m ops, assembleParts m ops = some i := by
  unfold assembleLine at h
  dsimp only at h
  split at h
  · exact nomatch h
  · split at h
    · exact nomatch h
    · rename_i ops _
      split at h
      · exact nomatch h
      · rename_i j hj
        obtain ⟨m, -, hm⟩ := Option.bind_eq_some_iff.mp hj
        obtain rfl : j = i := by simpa using h
        exact ⟨m, ops, hm⟩

theorem mem_of_mnemonicOf {t : List Char} {m : Mnemonic} (h : mnemonicOf t = some m) : (t, m) ∈ mnemonicNames := by
  obtain ⟨⟨u, m'⟩, hfind, rfl⟩ := Option.map_eq_some_iff.mp h
  have hu : u = t := by simpa using List.find?_some hfind
  exact hu ▸ List.mem_of_find?_eq_some hfind

section
variable {name : String} {m : Mnemonic} (hm : (name.toList, m) ∈ mnemonicNames) {ops : List Operand}
include hm

theorem assembleLine_of_some {i : Instr} (h : assembleParts m (ops.map Operand.value) = some i) :
    assembleLine (lineText name ops) = .instr i := by
  rw [assembleLine_mnemonic hm, h]

theorem assembleLine_of_none (h : assembleParts m (ops.map Operand.value) = none) :
    assembleLine (lineText name ops) = .refused := by
  rw [assembleLine_mnemonic hm, h]

/-- A line of a mnemonic whose operands have to meet a condition. -/
theorem assembleLine_of_ite {p : Prop} [Decidable p] {i : Instr}
    (h : assembleParts m (ops.map Operand.value) = if p then some i else none) :
    assembleLine (lineText name ops) = if p then .instr i else .refused := by
  split
  · rename_i hp; exact assembleLine_of_some hm (by rw [h, if_pos hp])
  · rename_i hp; exact assembleLine_of_none hm (by rw [h, if_neg hp])

end

/-- The mnemonics with the number of their operands. -/
def arityTable : List (String × Nat) :=
  [("OPEN", 0), ("CLOSE", 0), ("SET_INTENSITY", 1), ("RENDER_TEXT", 1), ("RENDER_SCROLL", 2), ("SEND_POS", 3), ("SEND_ALL", 2),
    ("RENDER_CHAR", 2), ("CLEAR", 0), ("SHUTDOWN", 0), ("WAKE", 0), ("NOP_PULSE", 0), ("SET_COLUMN", 3)]

theorem arityTable_eq : arityTable.map (fun x => (x.1.toList, x.2)) = mnemonicNames.map (fun y => (y.1, y.2.arity)) := by rfl

theorem exists_mnemonic_of_mem_arityTable {x : String × Nat} (h : x ∈ arityTable) :
    ∃ m, (x.1.toList, m) ∈ mnemonicNames ∧ m.arity = x.2 := by
  have hx := List.mem_map_of_mem (f := fun x => (x.1.toList, x.2)) h
  rw [arityTable_eq] at hx
  obtain ⟨⟨t, m⟩, hm, he⟩ := List.mem_map.mp hx
  simp only [Prod.mk.injEq] at he
  exact ⟨m, he.1 ▸ hm, he.2⟩

theorem exists_arity_of_mnemonic {name : String} {m : Mnemonic} (h : (name.toList, m) ∈ mnemonicNames) :
    ∃ x ∈ arityTable, x.1 = name := by
  have hy := List.mem_map_of_mem (f := fun y => (y.1, y.2.arity)) h
  rw [← arityTable_eq] at hy
  obtain ⟨x, hx, he⟩ := List.mem_map.mp hy
  simp only [Prod.mk.injEq] at he
  exact ⟨x, hx, String.toList_inj.mp he.1⟩

theorem assembleLine_wrong_arity {x : String × Nat} (hx : x ∈ arityTable) {ops : List Operand} (h : ops.length ≠ x.2) :
    assembleLine (lineText x.1 ops) = .refused := by
  obtain ⟨m, hm, ha⟩ := exists_mnemonic_of_mem_arityTable hx
  exact assembleLine_of_none hm (assembleParts_of_arity_ne (by rwa [List.length_map, ha]))

theorem assembleLine_unknown {name : String} (hn : name.toList ≠ []) (hc : ∀ c ∈ name.toList, c ≠ ' ' ∧ c ≠ '\t' ∧ c ≠ ';')
    (hx : ∀ x ∈ arityTable, x.1 ≠ name) (ops : List Operand) : assembleLine (lineText name ops) = .refused := by
  have hplain : ∀ c ∈ name.toList, isBlank c = false ∧ c ≠ ';' := fun c h => by
    obtain ⟨hsp, htab, hsemi⟩ := hc c h
    exact ⟨by simp [isBlank, hsp, htab], hsemi⟩
  have hnone : mnemonicOf name.toList = none := by
    rw [Option.eq_none_iff_forall_ne_some]
    intro m hm
    obtain ⟨x, hmem, he⟩ := exists_arity_of_mnemonic (mem_of_mnemonicOf hm)
    exact hx x hmem he
  rw [assembleLine_lineText name ops hn hplain, hnone]
  rfl

/-- Settles O7: the lines of R80 and R81 by what each mnemonic makes of its operands' values, as nested conditions. -/
theorem assembledLinesAreWellFormed : Obligations.AssembledLinesAreWellFormed := by
  refine ⟨fun line i h => ?_, assembleLine_of_some (m := .open') (by decide) rfl,
    assembleLine_of_some (m := .close) (by decide) rfl, assembleLine_of_some (m := .clear) (by decide) rfl,
    assembleLine_of_some (m := .shutdown) (by decide) rfl, assembleLine_of_some (m := .wake) (by decide) rfl,
    assembleLine_of_some (m := .nopPulse) (by decide) rfl, fun x y z => ⟨?_, ?_, ?_, ?_, ?_, ?_, ?_⟩,
    ⟨fun x hx ops h => assembleLine_wrong_arity hx h, fun name ops hn hc hx => assembleLine_unknown hn hc hx ops⟩,
    assembleLine_comment⟩
  · obtain ⟨m, ops, hm⟩ := exists_parts_of_assembleLine h
    obtain ⟨hi, hwf⟩ := assembleParts_wellFormed hm
    exact ⟨hi, hwf, decodeWords_encode hwf⟩
  · refine assembleLine_of_ite (m := .setIntensity) (by decide) ?_
    simp only [List.map, assembleParts, asByte, map_ite_some, Operand.byte]
  · refine assembleLine_of_ite (m := .renderText) (by decide) ?_
    simp only [List.map, assembleParts, asLen, map_ite_some]
  · refine assembleLine_of_ite (m := .renderScroll) (by decide) ?_
    simp only [List.map, assembleParts, asLen, asOfs, bind_ite_some, map_ite_some]
    simp only [ite_and]
  · refine assembleLine_of_ite (m := .sendPos) (by decide) ?_
    simp only [List.map, assembleParts, asPos, asByte, bind_ite_some, map_ite_some, Operand.byte]
    simp only [ite_and]
  · refine assembleLine_of_ite (m := .sendAll) (by decide) ?_
    simp only [List.map, assembleParts, asByte, bind_ite_some, map_ite_some, Operand.byte]
    simp only [ite_and]
  · refine assembleLine_of_ite (m := .renderChar) (by decide) ?_
    simp only [List.map, assembleParts, asPos, asByte, bind_ite_some, map_ite_some, Operand.byte]
    simp only [ite_and]
  · refine assembleLine_of_ite (m := .setColumn) (by decide) ?_
    simp only [List.map, assembleParts, expandPseudo, asPos, asByte, bind_ite_some, map_ite_some, Operand.byte]
    rw [asCol_bind_regDigit y.value fun r => if 0 ≤ z.value ∧ z.value ≤ 255 then
      some (Instr.sendPos x.value.toNat r (BitVec.ofInt 8 z.value)) else none]
    simp only [ite_and]

end Sys2Proof.Machine
end

section
/-! Accepting a word: the cause it records, computed from its own bits, or the command it runs (60_exceptions.md R161 to R163). -/

namespace Sys2Proof.Machine

open Sys2Proof.Config

/-! ## The first cause of a word -/

theorem firstCause_of_illegal {w : CommandWord} {c : Illegal} (h : decodeCommand w = .illegal c) (n : Nat) (session : Session) :
    firstCause n session w = some (causeOf c) := by
  unfold firstCause
  rw [← opField_toNat, ← rsvField_toNat]
  cases c with
  | illegalOpcode => exact if_pos (decodeCommand_illegalOpcode.mp h)
  | reservedBits =>
    obtain ⟨hop, hrsv⟩ := decodeCommand_reservedBits.mp h
    have hne : (rsvField w).toNat ≠ 0 := fun h0 => hrsv (BitVec.eq_of_toNat_eq h0)
    rw [if_neg hop, if_pos hne]
    rfl

/-- The two checks of a legal word, by the number of its opcode. -/
theorem firstCause_of_opcode {w : CommandWord} {op : Opcode} (ho : opcodeOf (opField w) = some op) (hr : rsvField w = 0)
    (n : Nat) (session : Session) :
    firstCause n session w =
      if op.number ≠ 1 ∧ session = .closed then some .notOpen
      else if (op.number = 6 ∨ op.number = 8) ∧ n ≤ posOperand w then some .badPosition
      else none := by
  have hnum : (opField w).toNat = op.number := by
    rw [opcodeOf_eq_some ho]
    cases op <;> rfl
  have hlegal : ¬ (op.number = 0 ∨ 9 ≤ op.number) := by cases op <;> decide
  have hrsv : ¬ (rsvField w).toNat ≠ 0 := by simp [hr]
  unfold firstCause
  rw [← opField_toNat, ← rsvField_toNat, ← posField_toNat, hnum, if_neg hlegal, if_neg hrsv]
  rfl

theorem number_eq_one_iff (op : Opcode) (w : CommandWord) : op.number = 1 ↔ assembleOperands op w = .openSession := by
  cases op <;> simp [Opcode.number, assembleOperands]

/-- SEND_POS and RENDER_CHAR are the commands with a position. -/
theorem badPosition_iff (op : Opcode) (w : CommandWord) (n : Nat) :
    (op.number = 6 ∨ op.number = 8) ∧ n ≤ posOperand w ↔ ¬ positionInChain n (assembleOperands op w) := by
  cases op <;> simp [Opcode.number, assembleOperands, positionInChain]

section
variable {w : CommandWord} {i : Instr} (hd : decodeCommand w = .instr i) (n : Nat)
include hd

theorem firstCause_notOpen (hi : i ≠ .openSession) : firstCause n .closed w = some .notOpen := by
  obtain ⟨op, ho, hr, rfl⟩ := decodeCommand_eq_instr.1 hd
  rw [firstCause_of_opcode ho hr, if_pos ⟨mt (number_eq_one_iff op w).mp hi, rfl⟩]

theorem firstCause_of_passes_session {session : Session} (hs : i = .openSession ∨ session = .opened) :
    (positionInChain n i → firstCause n session w = none) ∧
      (¬ positionInChain n i → firstCause n session w = some .badPosition) := by
  obtain ⟨op, ho, hr, rfl⟩ := decodeCommand_eq_instr.1 hd
  have hpass : ¬ (op.number ≠ 1 ∧ session = .closed) := by
    rintro ⟨h1, rfl⟩
    rcases hs with hs | hs
    · exact h1 ((number_eq_one_iff op w).mpr hs)
    · exact nomatch hs
  rw [firstCause_of_opcode ho hr, if_neg hpass]
  exact ⟨fun hp => if_neg fun h => (badPosition_iff op w n).mp h hp, fun hp => if_pos ((badPosition_iff op w n).mpr hp)⟩

end

theorem ne_none_of_firstCause {n : Nat} {session : Session} {w : CommandWord} {c : Cause}
    (h : firstCause n session w = some c) : c ≠ .none := by
  rintro rfl
  unfold firstCause at h
  split_ifs at h <;> exact Cause.noConfusion (Option.some.inj h)

/-! ## What accepting a word does -/

/-- Accepting the word `w` in the state `s`: its first cause is recorded, or it has none and its command runs. -/
inductive AcceptCase (w : CommandWord) (s t : State) : Prop where
  | faults (c : Cause) (hc : firstCause s.params.n s.session w = some c) (ht : t = s.afterFault c w)
  | runs (i : Instr) (hd : decodeCommand w = .instr i) (hc : firstCause s.params.n s.session w = none)
      (hs : i = .openSession ∨ s.session = .opened) (hp : positionInChain s.params.n i)
      (ht : t = (s.latch w).perform i (instrEvents i s))

theorem acceptCase_of_illegal {w : CommandWord} {c : Illegal} (h : decodeCommand w = .illegal c) (s : State) :
    AcceptCase w s (s.afterFault (causeOf c) w) :=
  .faults _ (firstCause_of_illegal h _ _) rfl

theorem acceptCase_of_exec {w : CommandWord} {i : Instr} {s t : State} (hd : decodeCommand w = .instr i)
    (h : exec i (s.latch w) = .next t) : AcceptCase w s t := by
  have hevs : instrEvents i (s.latch w) = instrEvents i s := instrEvents_congr i rfl rfl rfl rfl rfl rfl
  cases exec_command_cases (isCommand_of_decodeCommand hd) h with
  | notOpen hi hs ht =>
    have hclosed : s.session = .closed := hs
    exact .faults .notOpen (hclosed ▸ firstCause_notOpen hd s.params.n hi) ht
  | badPosition hs hp ht => exact .faults .badPosition ((firstCause_of_passes_session hd _ (.inr hs)).2 hp) ht
  | runs hs hp ht => exact .runs i hd ((firstCause_of_passes_session hd _ hs).1 hp) hs hp (hevs ▸ ht)

theorem executeWord_cases {w : CommandWord} {s t : State} (h : executeWord w s = .next t) : AcceptCase w s t := by
  cases hd : decodeCommand w with
  | illegal c =>
    simp only [executeWord, hd, Host.Outcome.next.injEq] at h
    rw [← h]
    exact acceptCase_of_illegal hd s
  | instr i =>
    rw [executeWord_of_instr hd] at h
    exact acceptCase_of_exec hd h

theorem faultRegistersKept_perform (s : State) (i : Instr) (evs : List Event) : FaultRegistersKept s (s.perform i evs) := by
  rcases s.perform_cases i evs with ⟨g, h⟩ | ⟨m, g, -, h⟩ <;> rw [h] <;> exact ⟨rfl, rfl, rfl, rfl⟩

/-- Settles O15: accepting a word by `AcceptCase`, whose two cases its first cause tells apart. -/
theorem firstCauseIsRecorded : Obligations.FirstCauseIsRecorded := by
  intro s w ha
  obtain ⟨t, ht⟩ := executeWord_answers_next w (s.drivePort none)
  have hstep : step s = .next t := (step_of_accepts ha).trans ht
  obtain ⟨-, -, -, -, hf, -⟩ := ha
  cases executeWord_cases ht with
  | faults c hc htc =>
    simp only [State.drivePort_params, State.drivePort_session] at hc
    refine ⟨fun c' hc' => ?_, fun hnone => nomatch hc.symm.trans hnone⟩
    rw [hstep, htc, Option.some.inj (hc.symm.trans hc')]
    rfl
  | runs i hd hc hs hp htp =>
    simp only [State.drivePort_params, State.drivePort_session] at hc
    have hevs : instrEvents i (s.drivePort none) = instrEvents i s := instrEvents_congr i rfl rfl rfl rfl rfl rfl
    have hk := faultRegistersKept_perform ((s.drivePort none).latch w) i (instrEvents i (s.drivePort none))
    have he := emitted_perform ((s.drivePort none).latch w) i (instrEvents i (s.drivePort none))
    rw [← htp] at hk he
    rw [hevs] at he
    refine ⟨fun c' hc' => (nomatch hc.symm.trans hc'), fun _ => ?_⟩
    exact ⟨i, t, _, hd, hstep, hk.faulted.trans hf, hk.cause, hk.faultCmd, he.trace⟩

/-! ## A step that takes a fault -/

theorem faultRegistersKept_settle (s : State) (total : Nat) : FaultRegistersKept s (s.settle total) := by
  rcases s.settle_cases total with h | ⟨j, -, -, h⟩ <;> rw [h] <;> exact ⟨rfl, rfl, rfl, rfl⟩

/-- The block records a fault only for a word it accepts. -/
theorem BlockCase.accepts_of_fault {s t : State} (h : BlockCase s t) (hf : s.faulted = false) (ht : t.faulted = true) :
    ∃ w, s.port = some w ∧ AcceptCase w (s.drivePort none) t := by
  have hno : ¬ FaultRegistersKept s t := fun hk => by simp [hk.faulted, hf] at ht
  cases h with
  | waits ht' _ => subst ht'; exact absurd ⟨rfl, rfl, rfl, rfl⟩ hno
  | illegal w c _ _ _ hp hd ht' => exact ⟨w, hp, ht' ▸ acceptCase_of_illegal hd _⟩
  | accepts w i _ _ _ hp hd he => exact ⟨w, hp, acceptCase_of_exec hd he⟩
  | event _ _ _ _ _ _ ht' =>
    exact absurd (ht' ▸ (faultRegistersKept_transfer s _).trans (faultRegistersKept_settle _ _)) hno
  | frame _ _ _ _ _ _ _ ht' => exact absurd (ht' ▸ faultRegistersKept_transfer s _) hno
  | ends _ _ _ _ ht' => exact absurd (ht' ▸ faultRegistersKept_settle s _) hno

theorem step_accepts_of_fault {s t : State} (h : step s = .next t) (hf : s.faulted = false) (ht : t.faulted = true) :
    ∃ w, s.port = some w ∧ AcceptCase w (s.popped.drivePort none) t := by
  have hno : ¬ FaultRegistersKept s t := fun hk => by simp [hk.faulted, hf] at ht
  cases step_cases h with
  | block _ hb => exact hb.accepts_of_fault hf ht
  | writesFont a b _ _ ht' =>
    exact absurd (ht' ▸ (faultRegistersKept_popped s).trans (faultRegistersKept_hostWriteFont _ a b)) hno
  | writesText a b _ _ ht' =>
    exact absurd (ht' ▸ (faultRegistersKept_popped s).trans (faultRegistersKept_hostWriteText _ a b)) hno
  | asserts _ _ ht' => rw [ht'] at ht; exact nomatch ht
  | presents _ _ _ ht' | withdraws _ _ ht' | releases _ _ ht' | grants _ _ _ ht' | foreign _ _ ht' =>
    subst ht'
    exact absurd ⟨rfl, rfl, rfl, rfl⟩ hno

/-- Settles O16: the step accepts a word, and of the two cases of that only the fault leaves FAULTED = 1. -/
theorem faultEntryWritesFourElements : Obligations.FaultEntryWritesFourElements := by
  intro s t hf h ht
  obtain ⟨w, hp, hw⟩ := step_accepts_of_fault h hf ht
  refine ⟨w, hp, ?_⟩
  cases hw with
  | faults c hc ht' =>
    subst ht'
    exact ⟨rfl, ne_none_of_firstCause hc, hc, rfl, rfl, rfl, rfl, rfl, rfl, rfl, rfl, rfl⟩
  | runs i _ _ _ _ ht' =>
    have hk := faultRegistersKept_perform ((s.popped.drivePort none).latch w) i (instrEvents i (s.popped.drivePort none))
    rw [← ht'] at hk
    have hff : t.faulted = s.faulted := hk.faulted
    rw [hff, hf] at ht
    exact nomatch ht

end Sys2Proof.Machine
end

section
/-! What a step keeps and what it emits, whichever agent moves: the command port (10_state.md R24), the memories (20_memory.md), the
lines (10_state.md R31, R32), reset (70_reset_and_hazards.md R180, R181) and the word a step takes its instruction from. -/

namespace Sys2Proof.Machine

open Sys2Proof.Config

/-! ## The step of an empty schedule, and every agent's answer -/

theorem step_of_sched_nil {s : State} (h : s.sched = []) : step s = blockTurn s := by simp only [step, scheduledTurn, h]

theorem step_of_sched_cons {s : State} {turn : Turn} {rest : List Turn} (h : s.sched = turn :: rest) :
    step s = takeTurn turn s.popped := by
  simp only [step, scheduledTurn, h, State.popped, List.tail_cons]

theorem takeTurn_answers_next (turn : Turn) (s : State) : ∃ t, takeTurn turn s = .next t := by
  cases turn with
  | block => exact blockTurn_answers_next s
  | _ => exact ⟨_, rfl⟩

theorem step_answers_next (s : State) : ∃ t, step s = .next t := by
  cases hs : s.sched with
  | nil => rw [step_of_sched_nil hs]; exact blockTurn_answers_next s
  | cons turn rest => rw [step_of_sched_cons hs]; exact takeTurn_answers_next turn s.popped

/-- Settles O10: instruction by instruction, and turn by turn. -/
theorem stepAlwaysAnswersNext : Obligations.StepAlwaysAnswersNext := ⟨exec_answers_next, step_answers_next⟩

/-! ## The word a step takes its instruction from -/

theorem blockTurn_of_job {s : State} {j : Job} (hr : s.rst = false) (hj : s.job = some j) : blockTurn s = continueJob j s := by
  simp only [blockTurn, hr, hj, Bool.false_eq_true, if_false]

theorem step_of_job {s : State} {j : Job} (hs : s.sched = []) (hr : s.rst = false) (hj : s.job = some j) :
    step s = continueJob j s := by
  rw [step_of_sched_nil hs, blockTurn_of_job hr hj]

/-- The step of a command in execution that has reached a frame of the table. -/
theorem step_of_frame {s : State} {j : Job} {w : FrameWord} {i : Instr} (hs : s.sched = []) (hr : s.rst = false)
    (hj : s.job = some j) (hn : nextItem (instrEvents j.instr s) j.done = some (.frame w)) (hd : decodeFrame w = some i) :
    step s = exec i s := by
  simp only [step_of_job hs hr hj, continueJob, hn, hd]

/-- Settles O8: the cases of accepting a word and of the next item. -/
theorem stepRunsDecodedInstruction : Obligations.StepRunsDecodedInstruction := by
  refine ⟨fun s w i ha hd => (step_of_accepts ha).trans (executeWord_of_instr hd _), fun s j w i => step_of_frame,
    fun s j e hs hr hj hn => ?_, fun s j w hs hr hj hn hd => ?_⟩
  · simp only [step_of_job hs hr hj, continueJob, hn, State.sendEvent]
  · simp only [step_of_job hs hr hj, continueJob, hn, hd, State.sendFrame, frameEvents]

theorem wordsOfBits_of_command_row (w : Nat) : wordsOfBits 64 w = .command (BitVec.ofNat 64 w) :=
  congrArg Words.command (BitVec.eq_of_toNat_eq (by simp))

theorem wordsOfBits_of_frame_row (w : Nat) : wordsOfBits 16 w = .frame (BitVec.ofNat 16 w) :=
  congrArg Words.frame (BitVec.eq_of_toNat_eq (by simp))

theorem withFetchWord_command (s : State) (w : Nat) : s.withFetchWord 64 w = s.presentNext (BitVec.ofNat 64 w) := by
  rw [State.withFetchWord, wordsOfBits_of_command_row]

theorem withFetchWord_frame (s : State) (w : Nat) : s.withFetchWord 16 w = s.frameNext (BitVec.ofNat 16 w) := by
  rw [State.withFetchWord, wordsOfBits_of_frame_row]

theorem accepts_presentNext (s : State) (w : CommandWord) : (s.presentNext w).accepts w := ⟨rfl, rfl, rfl, rfl, rfl, rfl⟩

/-- In the state of `frameNext` a SEND_ALL's pulse has just been opened, and its first frame is next. -/
theorem nextItem_frameNext (s : State) (w : FrameWord) :
    nextItem (instrEvents (.sendAll (frameReg w) (frameVal w)) (s.frameNext w)) 1 = some (.frame w) := by
  have hevs : ∃ rest, instrEvents (.sendAll (frameReg w) (frameVal w)) (s.frameNext w) =
      .selAssert :: .xfer (frameReg w) :: .xfer (frameVal w) :: rest := ⟨_, rfl⟩
  obtain ⟨rest, hevs⟩ := hevs
  simp [hevs, nextItem, Event.isXfer, frameWord_fields]

theorem decodeCommand_of_decodeTableWord {w : Nat} {i : Instr} (h : decodeTableWord 64 w = some i) :
    decodeCommand (BitVec.ofNat 64 w) = .instr i := by
  rw [decodeTableWord, wordsOfBits_of_command_row] at h
  exact decodeCommand_of_decodeWords h

/-- Settles O9: the presented word is accepted, and the frame in slot 0 is the next item. -/
theorem fetchedTableWordRuns : Obligations.FetchedTableWordRuns := by
  refine ⟨fun s w i h => ?_, fun s w i h => ?_⟩
  · rw [withFetchWord_command, step_of_accepts (accepts_presentNext s _),
      executeWord_of_instr (decodeCommand_of_decodeTableWord h)]
    exact ⟨_, rfl, rfl, rfl, rfl, rfl, rfl, rfl, rfl, rfl⟩
  · rw [decodeTableWord, wordsOfBits_of_frame_row] at h
    rw [withFetchWord_frame]
    exact ⟨step_of_frame rfl rfl rfl (nextItem_frameNext s _) h, rfl, rfl⟩

/-! ## What the block's turn keeps and emits -/

theorem restKept_settle (s : State) (total : Nat) : RestKept s (s.settle total) := by
  rcases s.settle_cases total with h | ⟨j, -, -, h⟩ <;> rw [h] <;> exact ⟨rfl, rfl, rfl, rfl, rfl, rfl, rfl⟩

theorem RestKept.trans {s t u : State} (h : RestKept s t) (h' : RestKept t u) : RestKept s u :=
  ⟨h'.params.trans h.params, h'.port.trans h.port, h'.rst.trans h.rst, h'.font.trans h.font, h'.text.trans h.text,
    h'.raceCount.trans h.raceCount, h'.sched.trans h.sched⟩

/-- In its turn the block takes the word on the port, ready and out of reset, or leaves the port; what else no instruction writes it
leaves. -/
theorem BlockCase.restKept {s t : State} (h : BlockCase s t) :
    RestKept s t ∨ (s.cmdReady = true ∧ s.rst = false ∧ (∃ w, s.port = some w) ∧ RestKept (s.drivePort none) t) := by
  cases h with
  | waits ht _ => subst ht; exact .inl ⟨rfl, rfl, rfl, rfl, rfl, rfl, rfl⟩
  | illegal w c hr _ hc hp _ ht => subst ht; exact .inr ⟨hc, hr, ⟨w, hp⟩, ⟨rfl, rfl, rfl, rfl, rfl, rfl, rfl⟩⟩
  | accepts w i hr _ hc hp _ he =>
    have hk := exec_restKept he
    exact .inr ⟨hc, hr, ⟨w, hp⟩, ⟨hk.params, hk.port, hk.rst, hk.font, hk.text, hk.raceCount, hk.sched⟩⟩
  | event _ _ _ _ _ _ ht => rw [ht]; exact .inl ((restKept_transfer s _).trans (restKept_settle _ _))
  | frame _ _ _ _ _ _ _ ht => rw [ht]; exact .inl (restKept_transfer s _)
  | ends _ _ _ _ ht => rw [ht]; exact .inl (restKept_settle s _)

theorem BlockCase.memories {s t : State} (h : BlockCase s t) : t.font = s.font ∧ t.text = s.text := by
  rcases h.restKept with hk | ⟨-, -, -, hk⟩ <;> exact ⟨hk.font, hk.text⟩

theorem Emitted.settle {s t : State} {evs : List Event} (h : Emitted s t evs) (total : Nat) : Emitted s (t.settle total) evs := by
  rcases t.settle_cases total with ht | ⟨j, -, -, ht⟩ <;> rw [ht] <;> exact ⟨h.trace, h.lines, h.chain⟩

theorem BlockCase.emitted {s t : State} (h : BlockCase s t) : ∃ evs, Emitted s t evs := by
  have hnil : Emitted s s [] := ⟨(List.append_nil _).symm, rfl, rfl⟩
  cases h with
  | waits ht _ => rw [ht]; exact ⟨[], hnil⟩
  | illegal w c _ _ _ _ _ ht => rw [ht]; exact ⟨[], ⟨(List.append_nil _).symm, rfl, rfl⟩⟩
  | accepts w i _ _ _ _ _ he =>
    obtain ⟨m, hem, -⟩ := exec_emitted he
    exact ⟨_, ⟨hem.trace, hem.lines, hem.chain⟩⟩
  | event _ _ _ _ _ _ ht => rw [ht]; exact ⟨_, (emitted_transfer s _).settle _⟩
  | frame _ _ _ _ _ _ _ ht => rw [ht]; exact ⟨_, emitted_transfer s _⟩
  | ends _ _ _ _ ht => rw [ht]; exact ⟨[], hnil.settle _⟩

/-! ## FONT and TEXT -/

theorem State.hostWriteFont_memories (s : State) (a : BitVec 11) (b : Byte) :
    (s.hostWriteFont a b).font = s.font.writeByte a.toNat b ∧ (s.hostWriteFont a b).text = s.text := by
  unfold State.hostWriteFont
  cases s.busy <;> exact ⟨rfl, rfl⟩

theorem State.hostWriteText_memories (s : State) (a : BitVec 16) (b : Byte) :
    (s.hostWriteText a b).text = s.text.writeByte a.toNat b ∧ (s.hostWriteText a b).font = s.font := by
  unfold State.hostWriteText
  cases s.busy <;> exact ⟨rfl, rfl⟩

/-- A byte that a write changes is the byte written. -/
theorem Memory.of_readByte_writeByte_ne {m : Memory} {a x : Nat} {b : Byte} (h : (m.writeByte x b).readByte a ≠ m.readByte a) :
    x = a ∧ (m.writeByte x b).readByte a = b := by
  have hx : a = x := by
    by_contra hne
    exact h (Memory.readByte_writeByte_other m b hne)
  subst hx
  exact ⟨rfl, Memory.readByte_writeByte_same m a b⟩

/-- A step leaves both memories, or is the host's write of one byte. -/
theorem step_memories {s t : State} (h : step s = .next t) :
    (t.font = s.font ∧ t.text = s.text) ∨
      (∃ x b rest, s.sched = .hostWritesFont x b :: rest ∧ t.font = s.font.writeByte x.toNat b ∧ t.text = s.text) ∨
      (∃ x b rest, s.sched = .hostWritesText x b :: rest ∧ t.text = s.text.writeByte x.toNat b ∧ t.font = s.font) := by
  cases step_cases h with
  | block _ hb => exact .inl hb.memories
  | writesFont x b rest hs ht =>
    obtain ⟨hf, htx⟩ := s.popped.hostWriteFont_memories x b
    exact .inr (.inl ⟨x, b, rest, hs, ht ▸ hf, ht ▸ htx⟩)
  | writesText x b rest hs ht =>
    obtain ⟨htx, hf⟩ := s.popped.hostWriteText_memories x b
    exact .inr (.inr ⟨x, b, rest, hs, ht ▸ htx, ht ▸ hf⟩)
  | presents _ _ _ ht | withdraws _ _ ht | asserts _ _ ht | releases _ _ ht | grants _ _ _ ht | foreign _ _ ht =>
    rw [ht]
    exact .inl ⟨rfl, rfl⟩

/-- Settles O25: no instruction writes a memory, and of the agents' turns only the host's writes do. -/
theorem blockWritesNoMemory : Obligations.BlockWritesNoMemory := by
  refine ⟨fun i s t h => ?_, fun s t h => ?_⟩
  · have hk := exec_restKept h
    exact ⟨fun a => by rw [hk.font], fun a => by rw [hk.text]⟩
  · rcases step_memories h with ⟨hf, ht⟩ | ⟨x, b, rest, hs, hf, ht⟩ | ⟨x, b, rest, hs, ht, hf⟩
    · exact ⟨fun a hne => absurd (by rw [hf]) hne, fun a hne => absurd (by rw [ht]) hne⟩
    · refine ⟨fun a hne => ?_, fun a hne => absurd (by rw [ht]) hne⟩
      rw [hf] at hne ⊢
      exact ⟨x, b, rest, hs, Memory.of_readByte_writeByte_ne hne⟩
    · refine ⟨fun a hne => absurd (by rw [hf]) hne, fun a hne => ?_⟩
      rw [ht] at hne ⊢
      exact ⟨x, b, rest, hs, Memory.of_readByte_writeByte_ne hne⟩

theorem State.hostWriteFont_of_idle {s : State} (hb : s.busy = false) (a : BitVec 11) (b : Byte) :
    s.hostWriteFont a b = { s with font := s.font.writeByte a.toNat b } := by
  simp only [State.hostWriteFont, hb, Bool.false_eq_true, if_false]

theorem State.hostWriteText_of_idle {s : State} (hb : s.busy = false) (a : BitVec 16) (b : Byte) :
    s.hostWriteText a b = { s with text := s.text.writeByte a.toNat b } := by
  simp only [State.hostWriteText, hb, Bool.false_eq_true, if_false]

/-- A TEXT write outside a command is what a read of the address gives, and no other read. -/
theorem State.char_hostWriteText_of_idle {s : State} (hb : s.busy = false) (hq : s.quiet) (x : BitVec 16) (b : Byte) (tag a : Nat) :
    (s.hostWriteText x b).char tag a = if a = x.toNat then b else s.char tag a := by
  rw [State.hostWriteText_of_idle hb, State.char_of_quiet (s := { s with text := s.text.writeByte x.toNat b }) hq,
    State.char_of_quiet hq]
  split
  · rename_i h
    rw [h, Memory.readByte_writeByte_same]
  · rename_i h
    exact Memory.readByte_writeByte_other _ _ h

theorem State.fontByte_hostWriteFont_of_idle {s : State} (hb : s.busy = false) (hq : s.quiet) (x : BitVec 11) (b : Byte)
    (tag a : Nat) : (s.hostWriteFont x b).fontByte tag a = if a = x.toNat then b else s.fontByte tag a := by
  have hraced : a ∉ s.racedFont := by simp [hq.1]
  rw [State.hostWriteFont_of_idle hb, State.fontByte_of_notRaced (s := { s with font := s.font.writeByte x.toNat b }) hraced,
    State.fontByte_of_notRaced hraced]
  split
  · rename_i h
    rw [h, Memory.readByte_writeByte_same]
  · rename_i h
    exact Memory.readByte_writeByte_other _ _ h

/-- A write during a command makes the address one that has raced (R62). -/
theorem State.char_hostWriteText_of_busy {s : State} (hb : s.busy = true) (x : BitVec 16) (b : Byte) (tag : Nat) :
    (s.hostWriteText x b).char tag x.toNat = racedTextByte (s.raceCount + 1) tag x.toNat := by
  simp only [State.hostWriteText, hb, if_true]
  exact if_pos List.mem_cons_self

theorem State.fontByte_hostWriteFont_of_busy {s : State} (hb : s.busy = true) (x : BitVec 11) (b : Byte) (tag : Nat) :
    (s.hostWriteFont x b).fontByte tag x.toNat = racedFontByte (s.raceCount + 1) tag x.toNat := by
  simp only [State.hostWriteFont, hb, if_true]
  exact if_pos List.mem_cons_self

/-- Settles O26: outside a command nothing has raced, so a read is the memory's; during one the address is listed as raced. -/
theorem hostWritesAreSeenOrRace : Obligations.HostWritesAreSeenOrRace := by
  refine ⟨fun s t x b rest tag hs h => ?_, fun s t x b rest tag hs h => ?_⟩
  · rw [step_of_sched_cons hs, takeTurn, Host.Outcome.next.injEq] at h
    subst h
    refine ⟨fun hb hq => ?_, State.char_hostWriteText_of_busy (s := s.popped) (x := x) (b := b) (tag := tag)⟩
    have hread := State.char_hostWriteText_of_idle (s := s.popped) hb hq x b tag
    exact ⟨(hread _).trans (if_pos rfl), fun a ha => (hread a).trans (if_neg ha)⟩
  · rw [step_of_sched_cons hs, takeTurn, Host.Outcome.next.injEq] at h
    subst h
    refine ⟨fun hb hq => ?_, State.fontByte_hostWriteFont_of_busy (s := s.popped) (x := x) (b := b) (tag := tag)⟩
    have hread := State.fontByte_hostWriteFont_of_idle (s := s.popped) hb hq x b tag
    exact ⟨(hread _).trans (if_pos rfl), fun a ha => (hread a).trans (if_neg ha)⟩

/-! ## The lines -/

theorem step_emitted {s t : State} (h : step s = .next t) (hr : ¬ s.resetNext) :
    ∃ evs, t.trace = s.trace ++ evs ∧ t.lines = evs.foldl Lines.take s.lines ∧
      (s.sched = [] → t.chain = evs.foldl (Chain.take s.params.n) s.chain) := by
  have hkept : BlockKept s t → s.sched ≠ [] → ∃ evs, t.trace = s.trace ++ evs ∧ t.lines = evs.foldl Lines.take s.lines ∧
      (s.sched = [] → t.chain = evs.foldl (Chain.take s.params.n) s.chain) := fun hk hs =>
    ⟨[], by rw [hk.trace, List.append_nil], hk.lines, fun hs' => absurd hs' hs⟩
  cases step_cases h with
  | block _ hb =>
    obtain ⟨evs, he⟩ := hb.emitted
    exact ⟨evs, he.trace, he.lines, fun _ => he.chain⟩
  | writesFont a b rest hs ht => exact hkept (.of_popped (ht ▸ blockKept_hostWriteFont _ a b)) (by simp [hs])
  | writesText a b rest hs ht => exact hkept (.of_popped (ht ▸ blockKept_hostWriteText _ a b)) (by simp [hs])
  | asserts rest hs _ => exact absurd ⟨rest, hs⟩ hr
  | presents _ _ hs ht | withdraws _ hs ht | releases _ hs ht | grants _ _ hs ht | foreign _ hs ht =>
    subst ht
    exact hkept ⟨⟨rfl, rfl, rfl, rfl⟩, rfl, rfl, rfl, rfl, rfl⟩ (by simp [hs])

/-- The byte transfer requested is the next event of the command in execution. -/
theorem State.txRequest_eq_some {s : State} {b : Byte} :
    s.txRequest = some b ↔ ∃ j rest, s.job = some j ∧ (instrEvents j.instr s).drop j.done = .xfer b :: rest := by
  unfold State.txRequest
  cases s.job with
  | none => simp
  | some j =>
    simp only [Option.some.injEq, exists_and_left, exists_eq_left']
    split
    · rename_i c rest hd
      simp [hd]
    · rename_i hne
      simp only [reduceCtorEq, false_iff, not_exists]
      exact fun rest hd => hne b rest hd

theorem State.txByte_of_request {s : State} {b : Byte} (h : s.txRequest = some b) : s.txByte = b := by
  rw [State.txByte, h, Option.getD_some]

theorem State.txValid_iff {s : State} : s.txValid = true ↔ ∃ b, s.txRequest = some b := Option.isSome_iff_exists

theorem State.completes_pos {s : State} (hg : s.grant ≠ some 0) {k : Nat} (hk : 0 < k) : 0 < s.completes k := by
  unfold State.completes
  split
  · exact hk
  · rename_i g hsg
    have hg0 : g ≠ 0 := fun h0 => hg (h0 ▸ hsg)
    omega

/-- The transport that has not stalled completes at least the first event it is given. -/
theorem first_event_of_transfer {s : State} (hg : s.grant ≠ some 0) (e : Event) (rest : List Event) :
    s.trace ++ [e] <+: (s.transfer (e :: rest)).trace := by
  have hpos := State.completes_pos hg (k := (e :: rest).length) (Nat.succ_pos _)
  obtain ⟨m, hm⟩ := Nat.exists_eq_succ_of_ne_zero (Nat.pos_iff_ne_zero.mp hpos)
  rw [(emitted_transfer s (e :: rest)).trace, hm, List.take_succ_cons]
  exact ⟨rest.take m, List.append_assoc ..⟩

theorem State.settle_trace (s : State) (total : Nat) : (s.settle total).trace = s.trace := by
  rcases s.settle_cases total with h | ⟨j, -, -, h⟩
  · rw [h]
  · rw [h]
    rfl

/-- The turn of a block that waits for a byte transfer, in a step in which the transport completes an event. -/
theorem step_of_txRequest {s t : State} {b : Byte} (hb : s.txRequest = some b) (hs : s.sched = []) (hr : s.rst = false)
    (hg : s.grant ≠ some 0) (h : step s = .next t) : s.trace ++ [.xfer b] <+: t.trace := by
  obtain ⟨j, rest, hj, hd⟩ := State.txRequest_eq_some.mp hb
  rw [step_of_sched_nil hs] at h
  have hjob : ∀ {j'}, s.job = some j' → j' = j := fun hj' => Option.some.inj (hj'.symm.trans hj)
  cases blockTurn_cases h with
  | waits _ hw => simp [hr, hj] at hw
  | illegal _ _ _ hn | accepts _ _ _ hn => simp [hj] at hn
  | event j' e rest' _ hj' hd' ht =>
    obtain rfl := hjob hj'
    rw [hd', List.cons.injEq] at hd
    rw [ht, State.settle_trace, ← hd.1]
    exact first_event_of_transfer hg e []
  | frame j' r v rest' _ hj' hd' ht =>
    obtain rfl := hjob hj'
    rw [hd', List.cons.injEq] at hd
    rw [ht, ← hd.1]
    exact first_event_of_transfer hg _ _
  | ends j' _ hj' hl _ =>
    obtain rfl := hjob hj'
    rw [List.drop_eq_nil_of_le hl] at hd
    exact nomatch hd

/-- CLOSE that has ended leaves the select line driven and high. -/
theorem exec_close_lines {s t : State} (hi : s.Inv) (hs : s.session = .opened) (h : exec .closeSession s = .next t)
    (hb : t.busy = false) : t.lines.selDriven = true ∧ t.lines.selLevel = true := by
  obtain ⟨hdriven, -⟩ := hi.openLines hs
  rw [exec_runs (i := .closeSession) rfl (.inr hs) trivial, Host.Outcome.next.injEq] at h
  rcases s.perform_cases .closeSession (instrEvents .closeSession s) with ⟨g, hp⟩ | ⟨m, g, -, hp⟩
  · have hl : t.lines = (instrEvents .closeSession s).foldl Lines.take s.lines := by rw [← h, hp]; rfl
    rw [hl, lines_after_instrEvents (i := .closeSession) rfl trivial]
    exact ⟨hdriven, rfl⟩
  · rw [← h, hp] at hb
    exact nomatch hb

/-- Settles O21: the lines by the events of a step, and the transport port by the next event of the command in execution. -/
theorem linesFollowEvents : Obligations.LinesFollowEvents := by
  refine ⟨fun s => ⟨rfl, rfl, rfl, rfl, rfl, fun _ => rfl, rfl, rfl, rfl⟩, fun s t h hr => step_emitted h hr,
    fun s t => exec_close_lines, fun s => ⟨?_, fun j b rest hj hd => ?_⟩, fun s t hv hs hr hg h => ?_⟩
  · rw [State.txValid_iff]
    constructor
    · rintro ⟨b, hb⟩
      obtain ⟨j, rest, hj, hd⟩ := State.txRequest_eq_some.mp hb
      exact ⟨j, b, rest, hj, hd⟩
    · rintro ⟨j, b, rest, hj, hd⟩
      exact ⟨b, State.txRequest_eq_some.mpr ⟨j, rest, hj, hd⟩⟩
  · exact State.txByte_of_request (State.txRequest_eq_some.mpr ⟨j, rest, hj, hd⟩)
  · obtain ⟨b, hb⟩ := State.txValid_iff.mp hv
    rw [State.txByte_of_request hb]
    exact step_of_txRequest hb hs hr hg h

/-! ## The command port -/

theorem State.eq_cmdWord {s : State} {w : CommandWord} (h : s.port = some w) : s.cmdValid = true ∧ s.port = some s.cmdWord := by
  simp [State.cmdValid, State.cmdWord, h]

/-- A word leaves the port only by the host's turn or by acceptance. -/
theorem step_port {s t : State} (h : step s = .next t) (hm : ¬ s.hostMovesPort) : t.port = s.port ∨
    (s.cmdValid = true ∧ s.cmdReady = true ∧ s.rst = false ∧ s.port = some s.cmdWord ∧ t.port = none) := by
  cases step_cases h with
  | block _ hb =>
    rcases hb.restKept with hk | ⟨hc, hr, ⟨w, hp⟩, hk⟩
    · exact .inl hk.port
    · obtain ⟨hv, hw⟩ := State.eq_cmdWord (s := s) hp
      exact .inr ⟨hv, hc, hr, hw, hk.port⟩
  | presents w rest hs _ => exact absurd (.inl ⟨w, rest, hs⟩) hm
  | withdraws rest hs _ => exact absurd (.inr ⟨rest, hs⟩) hm
  | writesFont a b _ _ ht => rw [ht]; exact .inl (State.hostWriteFont_port ..)
  | writesText a b _ _ ht => rw [ht]; exact .inl (State.hostWriteText_port ..)
  | asserts _ _ ht | releases _ _ ht | grants _ _ _ ht | foreign _ _ ht => rw [ht]; exact .inl rfl

theorem State.hostWriteFont_drivePort (s : State) (p : Option CommandWord) (a : BitVec 11) (b : Byte) :
    (s.drivePort p).hostWriteFont a b = (s.hostWriteFont a b).drivePort p := by
  unfold State.hostWriteFont
  rw [State.drivePort_busy]
  cases s.busy <;> rfl

theorem State.hostWriteText_drivePort (s : State) (p : Option CommandWord) (a : BitVec 16) (b : Byte) :
    (s.drivePort p).hostWriteText a b = (s.hostWriteText a b).drivePort p := by
  unfold State.hostWriteText
  rw [State.drivePort_busy]
  cases s.busy <;> rfl

/-- While the block is not ready, another word on the port changes no other part of what a turn answers. -/
theorem takeTurn_drivePort {turn : Turn} {s t : State} (hc : s.cmdReady = false) (h : takeTurn turn s = .next t)
    (p : Option CommandWord) : ∃ q, takeTurn turn (s.drivePort p) = .next (t.drivePort q) ∧ (q = p ∨ q = t.port) := by
  cases turn with
  | block => exact ⟨p, blockTurn_drivePort hc h p, .inl rfl⟩
  | hostPresents w =>
    rw [takeTurn, Host.Outcome.next.injEq] at h
    subst h
    exact ⟨some w, rfl, .inr rfl⟩
  | hostWithdraws =>
    rw [takeTurn, Host.Outcome.next.injEq] at h
    subst h
    exact ⟨none, rfl, .inr rfl⟩
  | hostWritesFont a b =>
    rw [takeTurn, Host.Outcome.next.injEq] at h
    subst h
    exact ⟨p, congrArg _ (State.hostWriteFont_drivePort ..), .inl rfl⟩
  | hostWritesText a b =>
    rw [takeTurn, Host.Outcome.next.injEq] at h
    subst h
    exact ⟨p, congrArg _ (State.hostWriteText_drivePort ..), .inl rfl⟩
  | hostDrivesReset level =>
    rw [takeTurn, Host.Outcome.next.injEq] at h
    subst h
    exact ⟨p, by cases level <;> rfl, .inl rfl⟩
  | transportGrants _ | foreignBusAgent =>
    rw [takeTurn, Host.Outcome.next.injEq] at h
    subst h
    exact ⟨p, rfl, .inl rfl⟩

theorem step_drivePort {s t : State} (hc : s.cmdReady = false) (h : step s = .next t) (p : Option CommandWord) :
    ∃ q, step (s.drivePort p) = .next (t.drivePort q) ∧ (q = p ∨ q = t.port) := by
  cases hs : s.sched with
  | nil =>
    rw [step_of_sched_nil hs] at h
    rw [step_of_sched_nil (s := s.drivePort p) hs]
    exact ⟨p, blockTurn_drivePort hc h p, .inl rfl⟩
  | cons turn rest =>
    rw [step_of_sched_cons hs] at h
    rw [step_of_sched_cons (s := s.drivePort p) hs]
    exact takeTurn_drivePort (s := s.popped) hc h p

/-- Once FAULTED = 1 only a reset clears it (R33). -/
theorem step_keeps_faulted {s t : State} (h : step s = .next t) (hf : s.faulted = true) (hr : ¬ s.resetNext) :
    t.faulted = true := by
  cases step_effect h with
  | keeps _ hk | ends _ _ _ hk => exact hk.faulted.trans hf
  | faults _ _ _ _ _ ht => rw [ht]; rfl
  | resets hr' _ => exact absurd hr' hr

/-- Settles O23: the port by the block's turn and the host's, and `cmd_ready` by FAULTED. -/
theorem wordsAreAcceptedOnlyWhenReady : Obligations.WordsAreAcceptedOnlyWhenReady := by
  intro s t h
  refine ⟨step_port h, fun w rest hs => ?_, fun rest hs => ?_, fun hc p => step_drivePort hc h p, fun hf hr => ?_⟩
  · rw [step_of_sched_cons hs, takeTurn, Host.Outcome.next.injEq] at h
    rw [← h, State.popped, hs]
    rfl
  · rw [step_of_sched_cons hs, takeTurn, Host.Outcome.next.injEq] at h
    rw [← h, State.popped, hs]
    rfl
  · simp [State.cmdReady, step_keeps_faulted h hf hr]

/-! ## Reset and the foreign bus agent -/

/-- In reset the elements have their reset values (R180). -/
theorem State.Inv.atReset {s : State} (hi : s.Inv) (hr : s.rst = true) : s.atReset := by
  obtain ⟨hs, hj, hf, hl⟩ := hi.inReset hr
  obtain ⟨hcause, hcmd⟩ := hi.noFault hf
  obtain ⟨hlatched, -, -⟩ := hi.idleTransient hj
  have hb : s.busy = false := by rw [hi.busyIff, hj]; rfl
  exact ⟨hs, hb, hf, hcause, hcmd, by rw [hl]; rfl, by rw [hl]; rfl, by rw [hl]; rfl, hj, hlatched⟩

theorem step_in_reset {s t : State} (hs : s.atReset) (hr : s.rst = true) (h : step s = .next t) :
    t.atReset ∧ t.trace = s.trace := by
  have hb : s.popped.busy = false := hs.2.1
  cases step_cases h with
  | block _ hbl =>
    have hr' : ¬ s.popped.rst = false := fun h0 => nomatch hr.symm.trans h0
    cases hbl with
    | waits ht _ => rw [ht]; exact ⟨hs, rfl⟩
    | illegal _ _ h0 | accepts _ _ h0 | event _ _ _ h0 | frame _ _ _ _ h0 | ends _ h0 => exact absurd h0 hr'
  | writesFont a b _ _ ht => rw [ht, State.hostWriteFont_of_idle hb]; exact ⟨hs, rfl⟩
  | writesText a b _ _ ht => rw [ht, State.hostWriteText_of_idle hb]; exact ⟨hs, rfl⟩
  | asserts _ _ ht => rw [ht]; exact ⟨⟨rfl, rfl, rfl, rfl, rfl, rfl, rfl, rfl, rfl, rfl⟩, rfl⟩
  | presents _ _ _ ht | withdraws _ _ ht | releases _ _ ht | grants _ _ _ ht | foreign _ _ ht => rw [ht]; exact ⟨hs, rfl⟩

/-- Settles O14: the reset turn field by field, the turns in reset, and the ready block with nothing to accept. -/
theorem resetRestoresTheBlock : Obligations.ResetRestoresTheBlock := by
  refine ⟨fun s t hr h => ?_, fun s t hi hr h => ?_, fun s hs hr hsch hp => ?_⟩
  · rw [step_of_resetNext hr, Host.Outcome.next.injEq] at h
    subst h
    exact ⟨⟨rfl, rfl, rfl, rfl, rfl, rfl, rfl, rfl, rfl, rfl⟩, rfl, rfl, rfl, fun _ _ => rfl, rfl, rfl, rfl, rfl⟩
  · exact ⟨hi.atReset hr, step_in_reset (hi.atReset hr) hr h⟩
  · obtain ⟨-, hb, hf, -, -, -, -, -, hj, -⟩ := hs
    have hc : s.cmdReady = true := State.cmdReady_eq_true.mpr ⟨hb, hf⟩
    refine ⟨hc, ?_⟩
    rw [step_of_sched_nil hsch]
    simp [blockTurn, hr, hj, hc, hp]

/-- Settles O31: the turn empties the known registers and spoils an open pulse, and touches the chain alone. -/
theorem foreignBusAgentMakesChainUnknown : Obligations.ForeignBusAgentMakesChainUnknown := by
  intro s t rest hs h
  rw [step_of_sched_cons hs, takeTurn, Host.Outcome.next.injEq] at h
  subst h
  refine ⟨fun _ _ => rfl, rfl, rfl, rfl, rfl, rfl, rfl, fun bytes hp k r => ?_⟩
  have hspoiled : s.popped.chain.disturb.pulse = .spoiled := by
    have hp' : s.popped.chain.pulse = .opened bytes := hp
    simp only [Chain.disturb, hp']
  simp only [State.emit_chain, Chain.take, Chain.latch, hspoiled]
  rfl

end Sys2Proof.Machine
end

section
/-! The command in execution, event by event: an invariant that each of its events keeps, from which the machine's invariant follows
while the command waits and when it has ended; and the run of a command that the transport has held up (10_state.md section 4,
70_reset_and_hazards.md R190). -/

namespace Sys2Proof.Machine

open Sys2Proof.Config

/-! ## Emitting and counting -/

/-- The events `evs` of the command in execution are emitted and counted. -/
def State.advance (s : State) (evs : List Event) : State :=
  { s with
    trace := s.trace ++ evs
    lines := evs.foldl Lines.take s.lines
    chain := evs.foldl (Chain.take s.params.n) s.chain
    job := s.job.map (fun j => { j with done := j.done + evs.length }) }

theorem State.advance_append (s : State) (as bs : List Event) : s.advance (as ++ bs) = (s.advance as).advance bs := by
  simp only [State.advance, List.append_assoc, List.foldl_append, List.length_append, Option.map_map,
    Function.comp_def, Nat.add_assoc]

theorem State.advance_nil (s : State) : s.advance [] = s := by
  obtain ⟨⟩ := s
  simp [State.advance]

theorem State.advance_cons (s : State) (e : Event) (es : List Event) : s.advance (e :: es) = (s.advance [e]).advance es :=
  s.advance_append [e] es

theorem State.advance_job {s : State} {j : Job} (h : s.job = some j) (evs : List Event) :
    (s.advance evs).job = some { j with done := j.done + evs.length } := by
  simp only [State.advance, h, Option.map_some]

theorem instrEvents_advance (i : Instr) (s : State) (evs : List Event) : instrEvents i (s.advance evs) = instrEvents i s :=
  instrEvents_congr i rfl rfl rfl rfl rfl rfl

/-- The transport's part in these terms: it completes a first part of the events it is given. -/
theorem State.transfer_eq_advance (s : State) (evs : List Event) :
    s.transfer evs =
      { s.advance (evs.take (s.completes evs.length)) with grant := s.grant.map (fun g => g - s.completes evs.length) } := by
  rw [State.transfer_eq, State.advance, List.length_take_of_le (s.completes_le _)]

theorem State.transfer_eq_advance_of_completes {s : State} (hg : s.transportCompletes) (evs : List Event) :
    s.transfer evs = s.advance evs := by
  rw [State.transfer_complete hg]
  rfl

theorem State.perform_eq_advance {s : State} (hg : s.transportCompletes) (i : Instr) (evs : List Event) :
    s.perform i evs = ((s.beginCommand i).advance evs).endCommand i := by
  rw [State.perform_complete hg]
  rfl

/-! ## Where the events outside the pulses stand -/

theorem instrEvents_open (s : State) : ∃ rest, instrEvents .openSession s = .selDrive :: .xportInit :: rest := ⟨_, rfl⟩

/-- The next event of OPEN is SelDrive, then XportInit. -/
theorem next_of_open {s : State} {j : Job} {e : Event} {rest : List Event}
    (hd : (instrEvents j.instr s).drop j.done = e :: rest) (ho : j.instr = .openSession) :
    (j.done = 0 → e = .selDrive) ∧ (j.done = 1 → e = .xportInit) := by
  obtain ⟨rest', hevs⟩ := instrEvents_open s
  rw [ho, hevs] at hd
  refine ⟨fun h0 => ?_, fun h1 => ?_⟩
  · rw [h0, List.drop_zero, List.cons.injEq] at hd
    exact hd.1.symm
  · rw [h1, List.drop_one, List.tail_cons, List.cons.injEq] at hd
    exact hd.1.symm

theorem lt_length_of_drop {evs : List Event} {k : Nat} {e : Event} {rest : List Event} (hd : evs.drop k = e :: rest) :
    k < evs.length := by
  have hlen := congrArg List.length hd
  rw [List.length_drop, List.length_cons] at hlen
  omega

/-- XportRelease is the last event of CLOSE. -/
theorem xportRelease_last {s : State} {k : Nat} {rest : List Event}
    (h : (instrEvents .closeSession s).drop k = .xportRelease :: rest) : rest = [] := by
  have hevs : instrEvents .closeSession s = sendToAll s.params.n regShutdown shutdownOn ++ [.xportRelease] := rfl
  rw [hevs, List.drop_append] at h
  cases hd : (sendToAll s.params.n regShutdown shutdownOn).drop k with
  | nil =>
    rw [hd, List.nil_append] at h
    have hlen := congrArg List.length h
    simp only [List.length_drop, List.length_cons, List.length_nil] at hlen
    exact List.length_eq_zero_iff.mp (by omega)
  | cons e es =>
    rw [hd, List.cons_append, List.cons.injEq] at h
    have hmem : e ∈ sendToAll s.params.n regShutdown shutdownOn := List.mem_of_mem_drop (hd ▸ List.mem_cons_self)
    rw [sendToAll_eq_pulseOf, h.1] at hmem
    exact nomatch ofPulse_of_mem_pulseOf hmem

/-- The event after those completed is no transfer where it is the last. -/
theorem last_not_xfer {i : Instr} {s : State} (hi : i.isCommand = true) (hp : positionInChain s.params.n i) {k : Nat}
    {pre : List Event} {b : Byte} : (instrEvents i s).drop k ≠ pre ++ [.xfer b] := by
  intro h
  have hscan := commandsEmitWholePulses i s hi hp
  rw [← List.take_append_drop k (instrEvents i s), h, ← List.append_assoc, scanPulses_append] at hscan
  obtain ⟨p, -, hp⟩ := Option.bind_eq_some_iff.mp hscan
  cases p <;> simp [scanPulses, Phase.next] at hp

/-! ## The invariant of a command in execution -/

/-- What holds of the command in execution after any number of its events, the last among them. -/
structure Running (s : State) (j : Job) : Prop where
  job : s.job = some j
  command : j.instr.isCommand = true
  position : positionInChain s.params.n j.instr
  session : j.instr = .openSession ∨ s.session = .opened
  upTo : j.done ≤ (instrEvents j.instr s).length
  driven : (j.instr = .openSession ∧ 1 ≤ j.done) ∨ s.session = .opened → s.lines.selDriven = true
  active : (j.instr = .openSession ∧ 2 ≤ j.done) ∨
    (s.session = .opened ∧ (j.instr = .closeSession → j.done < (instrEvents j.instr s).length)) → s.lines.xportActive = true
  phase : ∃ p, scanPulses s.params.n .outside ((instrEvents j.instr s).take j.done) = some p ∧
    PhaseInv s.params.n p s.chain s.lines

/-- What holds beside it, and what no event of it touches: the memories in canonical form, BUSY = 1, no fault, no reset. -/
structure Steady (s : State) : Prop where
  fontWf : Memory.wf fontSize s.font
  textWf : Memory.wf textSize s.text
  busy : s.busy = true
  faulted : s.faulted = false
  noFault : s.cause = .none ∧ s.faultCmd = 0
  rst : s.rst = false

theorem Lines.xportActive_take {l : Lines} (h : l.xportActive = true) {e : Event} (he : e ≠ .xportRelease) :
    (l.take e).xportActive = true := by
  cases e with
  | xportInit => rfl
  | xportRelease => exact absurd rfl he
  | _ => exact h

section
variable {s : State} {j : Job} (h : Running s j)
include h

/-- The next event is XportRelease only at the end of CLOSE. -/
theorem Running.next_xportRelease {rest : List Event} (hd : (instrEvents j.instr s).drop j.done = .xportRelease :: rest) :
    j.instr = .closeSession ∧ j.done + 1 = (instrEvents j.instr s).length := by
  have hmem : .xportRelease ∈ instrEvents j.instr s := List.mem_of_mem_drop (hd ▸ List.mem_cons_self)
  have hc : j.instr = .closeSession := by
    rcases mem_instrEvents (fun _ => h.position) hmem with hx | ⟨-, hx⟩ | ⟨hx, -⟩
    · exact nomatch hx
    · simp at hx
    · exact hx
  have hlen := congrArg List.length hd
  rw [hc] at hd
  rw [xportRelease_last hd, List.length_drop, List.length_singleton] at hlen
  exact ⟨hc, by omega⟩

/-- An event that only a pulse has comes with the transport active (R32). -/
theorem Running.active_of_ofPulse {e : Event} {rest : List Event} (hd : (instrEvents j.instr s).drop j.done = e :: rest)
    (he : e.ofPulse = true) : s.lines.xportActive = true := by
  refine h.active ?_
  rcases h.session with ho | hs
  · obtain ⟨h0, h1⟩ := next_of_open hd ho
    refine .inl ⟨ho, ?_⟩
    by_contra hlt
    have hd01 : j.done = 0 ∨ j.done = 1 := by omega
    rcases hd01 with hd0 | hd1
    · rw [h0 hd0] at he
      exact nomatch he
    · rw [h1 hd1] at he
      exact nomatch he
  · exact .inr ⟨hs, fun _ => lt_length_of_drop hd⟩

/-- After the next event SEL_DRIVEN is 1, where it is SelDrive or was 1 before. -/
theorem Running.driven_next {e : Event} {rest : List Event} (hd : (instrEvents j.instr s).drop j.done = e :: rest)
    (hc : j.instr = .openSession ∨ s.session = .opened) : (s.lines.take e).selDriven = true := by
  by_cases he : e = .selDrive
  · subst he; rfl
  · refine (Lines.selDriven_take_of_ne he s.lines).trans (h.driven (hc.imp_left fun ho => ⟨ho, ?_⟩))
    by_contra h0
    exact he ((next_of_open hd ho).1 (by omega))

/-- After the next event XPORT_ACTIVE is 1, where it is XportInit or was 1 before and is not CLOSE's last. -/
theorem Running.active_next {e : Event} {rest : List Event} (hd : (instrEvents j.instr s).drop j.done = e :: rest)
    (hc : (j.instr = .openSession ∧ 1 ≤ j.done) ∨
      (s.session = .opened ∧ (j.instr = .closeSession → j.done + 1 < (instrEvents j.instr s).length))) :
    (s.lines.take e).xportActive = true := by
  by_cases he : e = .xportInit
  · subst he; rfl
  · have hne : e ≠ .xportRelease := by
      rintro rfl
      obtain ⟨hclose, hlast⟩ := h.next_xportRelease hd
      rcases hc with ⟨ho, -⟩ | ⟨-, hlt⟩
      · exact nomatch ho.symm.trans hclose
      · exact absurd hlast (hlt hclose).ne
    refine Lines.xportActive_take (h.active ?_) hne
    rcases hc with ⟨ho, h1⟩ | ⟨hs, -⟩
    · refine .inl ⟨ho, ?_⟩
      by_contra h2
      exact he ((next_of_open hd ho).2 (by omega))
    · exact .inr ⟨hs, fun _ => lt_length_of_drop hd⟩

/-- The next event keeps the pulse structure, since all the events do, and so the chain and the lines agree with it. -/
theorem Running.phase_next {e : Event} {rest : List Event} (hd : (instrEvents j.instr s).drop j.done = e :: rest) :
    ∃ q, scanPulses s.params.n .outside ((instrEvents j.instr s).take (j.done + 1)) = some q ∧
      PhaseInv s.params.n q (s.chain.take s.params.n e) (s.lines.take e) := by
  obtain ⟨p, hp, hinv⟩ := h.phase
  have hget : (instrEvents j.instr s)[j.done]? = some e := by rw [← List.head?_drop, hd, List.head?_cons]
  have hscan := commandsEmitWholePulses j.instr s h.command h.position
  rw [← List.take_append_drop j.done (instrEvents j.instr s), hd, scanPulses_append, hp, Option.bind_some,
    ← List.singleton_append, scanPulses_append] at hscan
  obtain ⟨q, hq, -⟩ := Option.bind_eq_some_iff.mp hscan
  refine ⟨q, ?_, hinv.events [e] hq⟩
  rw [List.take_add_one, hget, Option.toList_some, scanPulses_append, hp, Option.bind_some, hq]

theorem Running.advance_one {e : Event} {rest : List Event} (hd : (instrEvents j.instr s).drop j.done = e :: rest) :
    Running (s.advance [e]) { j with done := j.done + 1 } := by
  have hevs := instrEvents_advance j.instr s [e]
  refine ⟨State.advance_job h.job [e], h.command, h.position, h.session, ?_, fun hc => ?_, fun hc => ?_, ?_⟩
  · rw [hevs]
    exact lt_length_of_drop hd
  · exact h.driven_next hd (hc.imp_left And.left)
  · rw [hevs] at hc
    exact h.active_next hd (hc.imp_left fun ⟨ho, h2⟩ => ⟨ho, Nat.le_of_succ_le_succ h2⟩)
  · rw [hevs]
    exact h.phase_next hd

end

theorem Running.advance {s : State} {j : Job} (h : Running s j) {evs rest : List Event}
    (hd : (instrEvents j.instr s).drop j.done = evs ++ rest) :
    Running (s.advance evs) { j with done := j.done + evs.length } := by
  induction evs generalizing s j with
  | nil => rw [State.advance_nil]; exact h
  | cons e es ih =>
    have hnext : (instrEvents j.instr (s.advance [e])).drop (j.done + 1) = es ++ rest := by
      rw [instrEvents_advance, ← List.tail_drop, hd]
      rfl
    rw [State.advance_cons]
    have hlen : j.done + (e :: es).length = j.done + 1 + es.length := by rw [List.length_cons]; omega
    rw [hlen]
    exact ih (h.advance_one hd) hnext

theorem Running.withGrant {s : State} {j : Job} (h : Running s j) (g : Option Nat) : Running { s with grant := g } j := by
  have hevs : instrEvents j.instr { s with grant := g } = instrEvents j.instr s := instrEvents_congr _ rfl rfl rfl rfl rfl rfl
  exact ⟨h.job, h.command, h.position, h.session, hevs ▸ h.upTo, h.driven, hevs ▸ h.active, hevs ▸ h.phase⟩

theorem Steady.transfer {s : State} (h : Steady s) (evs : List Event) : Steady (s.transfer evs) := by
  rw [State.transfer_eq]
  exact ⟨h.fontWf, h.textWf, h.busy, h.faulted, h.noFault, h.rst⟩

theorem instrEvents_transfer (i : Instr) (s : State) (evs : List Event) : instrEvents i (s.transfer evs) = instrEvents i s := by
  rw [State.transfer_eq]
  exact instrEvents_congr i rfl rfl rfl rfl rfl rfl

/-- Whatever the transport completes of the events, the command is still in execution after them. -/
theorem Running.transfer {s : State} {j : Job} (h : Running s j) {evs rest : List Event}
    (hd : (instrEvents j.instr s).drop j.done = evs ++ rest) :
    Running (s.transfer evs) { j with done := j.done + s.completes evs.length } := by
  have hsplit : (instrEvents j.instr s).drop j.done =
      evs.take (s.completes evs.length) ++ (evs.drop (s.completes evs.length) ++ rest) := by
    rw [← List.append_assoc, List.take_append_drop, hd]
  have hr := (h.advance hsplit).withGrant (s.grant.map fun g => g - s.completes evs.length)
  rw [List.length_take_of_le (s.completes_le _)] at hr
  rw [State.transfer_eq_advance]
  exact hr

/-! ## The machine's invariant from it, and back -/

theorem State.Inv.running {s : State} (hi : s.Inv) {j : Job} (hj : s.job = some j) : Running s j := by
  have hji := hi.jobInv j hj
  obtain ⟨p, hp, hag, hhigh, hlow⟩ := hji.phase
  refine ⟨hj, hji.command, hji.position, hji.session, hji.unfinished.le, ?_, ?_, p, hp, hag, hhigh, hlow, hi.chainWf, hi.notRefused⟩
  · rintro (⟨ho, h1⟩ | hs)
    · exact hji.driven ho h1
    · exact (hi.openLines hs).1
  · rintro (⟨ho, h2⟩ | ⟨hs, -⟩)
    · exact hji.active ho h2
    · exact (hi.openLines hs).2

theorem State.Inv.steady {s : State} (hi : s.Inv) {j : Job} (hj : s.job = some j) : Steady s := by
  have hb : s.busy = true := by rw [hi.busyIff, hj]; rfl
  have hf := hi.not_faulted_of_busy hb
  refine ⟨hi.fontWf, hi.textWf, hb, hf, hi.noFault hf, ?_⟩
  rw [Bool.eq_false_iff]
  intro hr
  obtain ⟨-, hnone, -⟩ := hi.inReset hr
  simp [hj] at hnone

theorem Running.inv {s : State} {j : Job} (h : Running s j) (hst : Steady s) (hlt : j.done < (instrEvents j.instr s).length) :
    s.Inv := by
  obtain ⟨p, hp, hinv⟩ := h.phase
  have hjob : s.job ≠ none := by rw [h.job]; exact Option.some_ne_none j
  have hnf : ¬ s.faulted = true := by rw [hst.faulted]; exact Bool.false_ne_true
  have hnr : ¬ s.rst = true := by rw [hst.rst]; exact Bool.false_ne_true
  refine ⟨hst.fontWf, hst.textWf, hinv.wf, hinv.notRefused, by rw [hst.busy, h.job]; rfl, fun hn => absurd hn hjob,
    fun _ => hst.noFault, fun hf => absurd hf hnf, fun hs => ⟨h.driven (.inr hs), h.active (.inr ⟨hs, fun _ => hlt⟩)⟩,
    fun hn => absurd hn hjob, fun hr => absurd hr hnr, fun j' hj' => ?_⟩
  obtain rfl : j = j' := Option.some.inj (h.job.symm.trans hj')
  exact ⟨h.command, h.position, h.session, hlt, fun ho h1 => h.driven (.inl ⟨ho, h1⟩),
    fun ho h2 => h.active (.inl ⟨ho, h2⟩), p, hp, hinv.agrees, hinv.high, hinv.low⟩

/-- After its last event a command stands outside every pulse. -/
theorem Running.outside {s : State} {j : Job} (h : Running s j) (hd : j.done = (instrEvents j.instr s).length) :
    PhaseInv s.params.n .outside s.chain s.lines := by
  obtain ⟨p, hp, hinv⟩ := h.phase
  rw [hd, List.take_length, commandsEmitWholePulses j.instr s h.command h.position] at hp
  exact Option.some.inj hp ▸ hinv

theorem Running.inv_endCommand {s : State} {j : Job} (h : Running s j) (hst : Steady s)
    (hd : j.done = (instrEvents j.instr s).length) : (s.endCommand j.instr).Inv := by
  have hinv := h.outside hd
  have hnf : ¬ s.faulted = true := by rw [hst.faulted]; exact Bool.false_ne_true
  have hnr : ¬ s.rst = true := by rw [hst.rst]; exact Bool.false_ne_true
  refine ⟨hst.fontWf, hst.textWf, hinv.wf, hinv.notRefused, rfl, fun _ => ⟨rfl, rfl, rfl⟩, fun _ => hst.noFault,
    fun hf => absurd hf hnf, fun hs => ?_, fun _ => ⟨hinv.high rfl, hinv.agrees⟩, fun hr => absurd hr hnr,
    fun _ hj => nomatch hj⟩
  have hcase : (j.instr = .openSession ∧ 2 ≤ j.done) ∨ (s.session = .opened ∧ j.instr ≠ .closeSession) := by
    have hs' : sessionAfter j.instr s.session = .opened := hs
    rcases h.session with ho | hopen
    · obtain ⟨rest, hevs⟩ := instrEvents_open s
      refine .inl ⟨ho, ?_⟩
      rw [hd, ho, hevs, List.length_cons, List.length_cons]
      omega
    · exact .inr ⟨hopen, fun hc => by rw [hc] at hs'; exact nomatch hs'⟩
  refine ⟨h.driven ?_, h.active ?_⟩
  · exact hcase.imp (fun ⟨ho, h2⟩ => ⟨ho, by omega⟩) And.left
  · exact hcase.imp_right fun ⟨hopen, hc⟩ => ⟨hopen, fun hc' => absurd hc' hc⟩

/-- The command is settled: it ends where all its events are completed, and waits where they are not. -/
theorem Running.inv_settle {s : State} {j : Job} (h : Running s j) (hst : Steady s) :
    (s.settle (instrEvents j.instr s).length).Inv := by
  rcases Nat.lt_or_ge j.done (instrEvents j.instr s).length with hlt | hge
  · rw [State.settle_of_unfinished h.job hlt]
    exact h.inv hst hlt
  · have hend : s.settle (instrEvents j.instr s).length = s.endCommand j.instr := by
      simp only [State.settle, h.job, hge, if_true]
    rw [hend]
    exact h.inv_endCommand hst (le_antisymm h.upTo hge)

end Sys2Proof.Machine
end

section
/-! The machine's invariant under every agent's turn, and what follows from it: where pulse events come (10_state.md R31, R32), and the
end of a command that the transport has held up (70_reset_and_hazards.md R190, 20_memory.md R61). -/

namespace Sys2Proof.Machine

open Sys2Proof.Config

/-! ## At reset -/

/-- Settles O12: at reset no command is in execution, and the memories and the chain's registers are empty. -/
theorem invariantHoldsAtReset : Obligations.InvariantHoldsAtReset := by
  have h : ∀ p : Params, (State.resetOf p).Inv := fun p =>
    { fontWf := Memory.wf_nil _
      textWf := Memory.wf_nil _
      chainWf := ⟨List.Pairwise.nil, fun _ hx => nomatch hx⟩
      notRefused := rfl
      busyIff := rfl
      idleTransient := fun _ => ⟨rfl, rfl, rfl⟩
      noFault := fun _ => ⟨rfl, rfl⟩
      fault := fun hf => nomatch hf
      openLines := fun hs => nomatch hs
      idleLines := fun _ => ⟨fun _ => rfl, rfl⟩
      inReset := fun _ => ⟨rfl, rfl, rfl, rfl⟩
      jobInv := fun _ hj => nomatch hj }
  exact ⟨h, h _⟩

/-! ## Turns that leave the block -/

/-- A host write during a command changes the bytes of its events, but neither their number nor their pulses. -/
theorem JobInv.of_kept {s t : State} {j : Job} (h : JobInv s j) (hp : t.params = s.params) (hs : t.session = s.session)
    (hl : t.lines = s.lines) (hc : ∀ p : Phase, p.agrees s.chain.pulse → p.agrees t.chain.pulse) : JobInv t j := by
  have hshape := shape_instrEvents j.instr hp
  have hlen : (instrEvents j.instr t).length = (instrEvents j.instr s).length := by rw [← length_shape, hshape, length_shape]
  have hscan : ∀ p, scanPulses t.params.n p ((instrEvents j.instr t).take j.done) =
      scanPulses s.params.n p ((instrEvents j.instr s).take j.done) := fun p => by
    rw [hp, ← scanPulses_shape, shape_take, hshape, ← shape_take, scanPulses_shape]
  obtain ⟨p, hphase, hag, hhigh, hlow⟩ := h.phase
  exact ⟨h.command, hp ▸ h.position, hs ▸ h.session, hlen ▸ h.unfinished, hl ▸ h.driven, hl ▸ h.active,
    p, (hscan _).trans hphase, hc p hag, hl ▸ hhigh, hl ▸ hlow⟩

/-- The invariant where the block is left as it is, and FONT, TEXT and the chain are in canonical form. -/
theorem State.Inv.of_blockKept {s t : State} (hi : s.Inv) (hk : BlockKept s t) (hf : Memory.wf fontSize t.font)
    (ht : Memory.wf textSize t.text) (hw : Chain.wf s.params.n t.chain) (href : t.chain.refused = s.chain.refused)
    (hc : ∀ p : Phase, p.agrees s.chain.pulse → p.agrees t.chain.pulse)
    (hidle : s.job = none → t.latched = 0 ∧ t.racedFont = [] ∧ t.racedText = []) (hr : t.rst = true → s.rst = true) : t.Inv where
  fontWf := hf
  textWf := ht
  chainWf := hk.params ▸ hw
  notRefused := href.trans hi.notRefused
  busyIff := by rw [hk.busy, hk.job]; exact hi.busyIff
  idleTransient := fun hj => hidle (hk.job ▸ hj)
  noFault := by rw [hk.faulted, hk.cause, hk.faultCmd]; exact hi.noFault
  fault := by rw [hk.faulted, hk.cause, hk.job]; exact hi.fault
  openLines := by rw [hk.session, hk.lines]; exact hi.openLines
  idleLines := fun hj => by
    obtain ⟨hhigh, hpulse⟩ := hi.idleLines (hk.job ▸ hj)
    rw [hk.lines]
    exact ⟨hhigh, hc .outside hpulse⟩
  inReset := fun h => by rw [hk.session, hk.job, hk.faulted, hk.lines]; exact hi.inReset (hr h)
  jobInv := fun j hj => (hi.jobInv j (hk.job ▸ hj)).of_kept hk.params hk.session hk.lines hc

theorem State.Inv.hostWriteFont {s : State} (hi : s.Inv) (a : BitVec 11) (b : Byte) : (s.hostWriteFont a b).Inv := by
  obtain ⟨hfont, htext⟩ := s.hostWriteFont_memories a b
  have hf : Memory.wf fontSize (s.hostWriteFont a b).font := by rw [hfont]; exact Memory.wf_writeByte hi.fontWf a.isLt b
  have ht : Memory.wf textSize (s.hostWriteFont a b).text := by rw [htext]; exact hi.textWf
  have hchain : (s.hostWriteFont a b).chain = s.chain := by unfold State.hostWriteFont; cases s.busy <;> rfl
  have hrst : (s.hostWriteFont a b).rst = s.rst := by unfold State.hostWriteFont; cases s.busy <;> rfl
  refine hi.of_blockKept (blockKept_hostWriteFont s a b) hf ht (hchain ▸ hi.chainWf) (by rw [hchain])
    (fun p hp => hchain ▸ hp) (fun hj => ?_) (fun hr => hrst ▸ hr)
  have hb : s.busy = false := by rw [hi.busyIff, hj]; rfl
  rw [State.hostWriteFont_of_idle hb]
  exact hi.idleTransient hj

theorem State.Inv.hostWriteText {s : State} (hi : s.Inv) (a : BitVec 16) (b : Byte) : (s.hostWriteText a b).Inv := by
  obtain ⟨htext, hfont⟩ := s.hostWriteText_memories a b
  have hf : Memory.wf fontSize (s.hostWriteText a b).font := by rw [hfont]; exact hi.fontWf
  have ht : Memory.wf textSize (s.hostWriteText a b).text := by rw [htext]; exact Memory.wf_writeByte hi.textWf a.isLt b
  have hchain : (s.hostWriteText a b).chain = s.chain := by unfold State.hostWriteText; cases s.busy <;> rfl
  have hrst : (s.hostWriteText a b).rst = s.rst := by unfold State.hostWriteText; cases s.busy <;> rfl
  refine hi.of_blockKept (blockKept_hostWriteText s a b) hf ht (hchain ▸ hi.chainWf) (by rw [hchain])
    (fun p hp => hchain ▸ hp) (fun hj => ?_) (fun hr => hrst ▸ hr)
  have hb : s.busy = false := by rw [hi.busyIff, hj]; rfl
  rw [State.hostWriteText_of_idle hb]
  exact hi.idleTransient hj

/-- A disturbed pulse is an open one still. -/
theorem Phase.agrees_disturb {p : Phase} {c : Chain} (h : p.agrees c.pulse) : p.agrees c.disturb.pulse := by
  cases p with
  | outside =>
    have hidle : c.pulse = .idle := h
    simp only [Phase.agrees, Chain.disturb, hidle]
  | inside k =>
    rcases h with hs | ⟨bytes, ho, -⟩
    · exact .inl (by simp only [Chain.disturb, hs])
    · exact .inl (by simp only [Chain.disturb, ho])

theorem State.Inv.disturb {s : State} (hi : s.Inv) : ({ s with chain := s.chain.disturb } : State).Inv :=
  hi.of_blockKept ⟨⟨rfl, rfl, rfl, rfl⟩, rfl, rfl, rfl, rfl, rfl⟩ hi.fontWf hi.textWf
    ⟨List.Pairwise.nil, fun _ hx => nomatch hx⟩ rfl (fun _ => Phase.agrees_disturb) hi.idleTransient id

theorem State.Inv.resetBlock {s : State} (hi : s.Inv) : ({ s.resetBlock with rst := true } : State).Inv where
  fontWf := hi.fontWf
  textWf := hi.textWf
  chainWf := ⟨List.Pairwise.nil, fun _ hx => nomatch hx⟩
  notRefused := hi.notRefused
  busyIff := rfl
  idleTransient := fun _ => ⟨rfl, rfl, rfl⟩
  noFault := fun _ => ⟨rfl, rfl⟩
  fault := fun hf => nomatch hf
  openLines := fun hs => nomatch hs
  idleLines := fun _ => ⟨fun _ => rfl, rfl⟩
  inReset := fun _ => ⟨rfl, rfl, rfl, rfl⟩
  jobInv := fun _ hj => nomatch hj

/-! ## The block's turn -/

theorem State.Inv.drivePort {s : State} (hi : s.Inv) (w : Option CommandWord) : (s.drivePort w).Inv :=
  hi.of_blockKept ⟨⟨rfl, rfl, rfl, rfl⟩, rfl, rfl, rfl, rfl, rfl⟩ hi.fontWf hi.textWf hi.chainWf rfl (fun _ => id)
    hi.idleTransient id

/-- Taking a fault outside reset and outside a command keeps the invariant. -/
theorem State.Inv.afterFault {s : State} (hi : s.Inv) (hr : s.rst = false) (hj : s.job = none) {c : Cause} (hc : c ≠ .none)
    (w : CommandWord) : (s.afterFault c w).Inv where
  fontWf := hi.fontWf
  textWf := hi.textWf
  chainWf := hi.chainWf
  notRefused := hi.notRefused
  busyIff := rfl
  idleTransient := fun _ => ⟨rfl, rfl, rfl⟩
  noFault := fun hf => nomatch hf
  fault := fun _ => ⟨hc, rfl⟩
  openLines := hi.openLines
  idleLines := fun _ => hi.idleLines hj
  inReset := fun h => nomatch hr.symm.trans h
  jobInv := fun _ hj => nomatch hj

/-- A command that has passed its checks is in execution with none of its events emitted. -/
theorem State.Inv.running_begin {s : State} (hi : s.Inv) (hj : s.job = none) {i : Instr} (hc : i.isCommand = true)
    (hs : i = .openSession ∨ s.session = .opened) (hp : positionInChain s.params.n i) (w : CommandWord) :
    Running ((s.latch w).beginCommand i) { instr := i, done := 0 } := by
  obtain ⟨hhigh, hidle⟩ := hi.idleLines hj
  refine ⟨rfl, hc, hp, hs, Nat.zero_le _, ?_, ?_, .outside, rfl, hidle, fun _ => hhigh, fun h => absurd rfl h, hi.chainWf,
    hi.notRefused⟩
  · rintro (⟨-, h1⟩ | ho)
    · exact absurd h1 (Nat.not_succ_le_zero _)
    · exact (hi.openLines ho).1
  · rintro (⟨-, h2⟩ | ⟨ho, -⟩)
    · exact absurd h2 (Nat.not_succ_le_zero _)
    · exact (hi.openLines ho).2

theorem State.Inv.steady_begin {s : State} (hi : s.Inv) (hr : s.rst = false) (hf : s.faulted = false) (i : Instr)
    (w : CommandWord) : Steady ((s.latch w).beginCommand i) :=
  ⟨hi.fontWf, hi.textWf, rfl, hf, hi.noFault hf, hr⟩

/-- The block goes on with the command in execution: the next events are given to the transport, and the command is settled. -/
theorem BlockCase.goesOn {s t : State} {j : Job} (h : BlockCase s t) (hr : s.rst = false) (hj : s.job = some j)
    (hi : j.instr.isCommand = true) (hp : positionInChain s.params.n j.instr) (hlt : j.done < (instrEvents j.instr s).length) :
    ∃ evs rest, evs ≠ [] ∧ (instrEvents j.instr s).drop j.done = evs ++ rest ∧
      t = (s.transfer evs).settle (instrEvents j.instr s).length := by
  have hjob : ∀ {j'}, s.job = some j' → j' = j := fun hj' => Option.some.inj (hj'.symm.trans hj)
  cases h with
  | waits _ hw => simp [hr, hj] at hw
  | illegal _ _ _ hn | accepts _ _ _ hn => simp [hj] at hn
  | event j' e rest _ hj' hd ht =>
    obtain rfl := hjob hj'
    exact ⟨[e], rest, List.cons_ne_nil _ _, hd, ht⟩
  | frame j' r v rest _ hj' hd ht =>
    obtain rfl := hjob hj'
    refine ⟨[.xfer r, .xfer v], rest, List.cons_ne_nil _ _, hd, ?_⟩
    have hrest : rest ≠ [] := by
      rintro rfl
      exact last_not_xfer hi hp (pre := [.xfer r]) hd
    have hlen := congrArg List.length hd
    have hpos := List.length_pos_iff.mpr hrest
    simp only [List.length_drop, List.length_cons] at hlen
    have hle := s.completes_le [Event.xfer r, .xfer v].length
    have hjob' : (s.transfer [.xfer r, .xfer v]).job =
        some { j' with done := j'.done + s.completes [Event.xfer r, .xfer v].length } := by
      rw [State.transfer_eq, hj]
      rfl
    rw [ht, State.settle_of_unfinished hjob']
    simp only [List.length_cons, List.length_nil] at hle ⊢
    omega
  | ends j' _ hj' hl _ =>
    obtain rfl := hjob hj'
    exact absurd hlt (Nat.not_lt.mpr hl)

/-- What the block's turn can do from a state of the invariant: stay, take a fault, or give the transport the next events of a command
in execution, which for a command it accepts are all its events. -/
inductive InvTurn (s t : State) : Prop where
  | stays (ht : t = s)
  | faults (c : Cause) (w : CommandWord) (hc : c ≠ .none) (hr : s.rst = false) (hj : s.job = none)
      (ht : t = (s.drivePort none).afterFault c w)
  | emits (u : State) (j : Job) (evs rest : List Event) (hl : u.lines = s.lines) (htr : u.trace = s.trace) (hrun : Running u j)
      (hst : Steady u) (hd : (instrEvents j.instr u).drop j.done = evs ++ rest)
      (ht : t = (u.transfer evs).settle (instrEvents j.instr u).length)

theorem State.Inv.turn_of_accept {s t : State} {w : CommandWord} (hi : s.Inv) (hj : s.job = none) (hr : s.rst = false)
    (hc : s.cmdReady = true) (h : AcceptCase w (s.drivePort none) t) : InvTurn s t := by
  cases h with
  | faults c hc' ht => exact .faults c w (ne_none_of_firstCause hc') hr hj ht
  | runs i hd _ hs hp ht =>
    have hf := (State.cmdReady_eq_true.mp hc).2
    have hevs : instrEvents i (((s.drivePort none).latch w).beginCommand i) = instrEvents i (s.drivePort none) :=
      instrEvents_congr i rfl rfl rfl rfl rfl rfl
    have hrun := (hi.drivePort none).running_begin (i := i) hj (isCommand_of_decodeCommand hd) hs hp w
    refine .emits (((s.drivePort none).latch w).beginCommand i) { instr := i, done := 0 } (instrEvents i (s.drivePort none)) []
      rfl rfl hrun ((hi.drivePort none).steady_begin hr hf i w) ?_ ?_
    · rw [hevs, List.drop_zero, List.append_nil]
    · rw [ht, State.perform, hevs]

theorem State.Inv.turn {s t : State} (hi : s.Inv) (h : BlockCase s t) : InvTurn s t := by
  cases hj : s.job with
  | some j =>
    have hji := hi.jobInv j hj
    have hst := hi.steady hj
    obtain ⟨evs, rest, -, hd, ht⟩ := h.goesOn hst.rst hj hji.command hji.position hji.unfinished
    exact .emits s j evs rest rfl rfl (hi.running hj) hst hd ht
  | none =>
    cases h with
    | waits ht _ => exact .stays ht
    | illegal w c hr _ hc hp hd ht => exact hi.turn_of_accept hj hr hc (ht ▸ acceptCase_of_illegal hd _)
    | accepts w i hr _ hc hp hd he => exact hi.turn_of_accept hj hr hc (acceptCase_of_exec hd he)
    | event _ _ _ _ hj' | frame _ _ _ _ _ hj' | ends _ _ hj' => exact nomatch hj.symm.trans hj'

theorem InvTurn.inv {s t : State} (hi : s.Inv) (h : InvTurn s t) : t.Inv := by
  cases h with
  | stays ht => exact ht ▸ hi
  | faults c w hc hr hj ht => rw [ht]; exact (hi.drivePort none).afterFault hr hj hc w
  | emits u j evs rest _ _ hrun hst hd ht =>
    rw [ht, ← instrEvents_transfer j.instr u evs]
    exact (hrun.transfer hd).inv_settle (hst.transfer evs)

/-- Settles O13: the block's turn by `InvTurn`, whose commands in execution `Running` follows event by event; of the other agents only
a reset touches the block, and it leaves the reset values. -/
theorem stepKeepsInvariant : Obligations.StepKeepsInvariant := by
  intro s t hi h
  have hpop := hi.popped
  cases step_cases h with
  | block _ hb => exact (hpop.turn hb).inv hpop
  | presents w _ _ ht => rw [ht]; exact hpop.drivePort (some w)
  | withdraws _ _ ht => rw [ht]; exact hpop.drivePort none
  | writesFont a b _ _ ht => rw [ht]; exact hpop.hostWriteFont a b
  | writesText a b _ _ ht => rw [ht]; exact hpop.hostWriteText a b
  | asserts _ _ ht => rw [ht]; exact hpop.resetBlock
  | releases _ _ ht | grants _ _ _ ht =>
    rw [ht]
    exact hpop.of_blockKept ⟨⟨rfl, rfl, rfl, rfl⟩, rfl, rfl, rfl, rfl, rfl⟩ hpop.fontWf hpop.textWf hpop.chainWf rfl
      (fun _ => id) hpop.idleTransient (by simp)
  | foreign _ _ ht => rw [ht]; exact hpop.disturb

/-! ## Where pulse events come -/

/-- A pulse event that a command in execution emits, after any of its events, comes with the transport active. -/
theorem Running.active_before_ofPulse {s : State} {j : Job} (h : Running s j) {before after rest : List Event} {e : Event}
    (hd : (instrEvents j.instr s).drop j.done = before ++ e :: after ++ rest) (he : e.ofPulse = true) :
    (before.foldl Lines.take s.lines).xportActive = true := by
  rw [List.append_assoc] at hd
  have hnext : (instrEvents j.instr (s.advance before)).drop (j.done + before.length) = e :: (after ++ rest) := by
    rw [instrEvents_advance, ← List.drop_drop, hd, List.drop_left]
    rfl
  exact (h.advance hd).active_of_ofPulse hnext he

/-- Settles O22: of the turns only the block's, with a command in execution, emits events; and the invariant holds after the step. -/
theorem pulsesOnlyWhileActiveAndLineIdleHigh : Obligations.PulsesOnlyWhileActiveAndLineIdleHigh := by
  refine ⟨fun s t hi h before e after htr he => ?_, fun s t hi h hb hd => ?_⟩
  · have hquiet : t.trace ≠ s.trace := fun heq => by simp [heq] at htr
    cases step_cases h with
    | block _ hb =>
      cases hi.popped.turn hb with
      | stays ht => exact absurd (by rw [ht]; rfl) hquiet
      | faults _ _ _ _ _ ht => exact absurd (by rw [ht]; rfl) hquiet
      | emits u j evs rest hl hut hrun _ hd ht =>
        have hem := (emitted_transfer u evs).settle (instrEvents j.instr u).length
        have hevs : evs.take (u.completes evs.length) = before ++ e :: after := by
          have htrace := hem.trace
          rw [← ht, htr, hut, List.append_assoc] at htrace
          exact (List.append_cancel_left htrace).symm
        have hlines : s.lines = u.lines := hl.symm
        rw [hlines]
        refine hrun.active_before_ofPulse (after := after) (rest := evs.drop (u.completes evs.length) ++ rest) ?_ he
        rw [← hevs, ← List.append_assoc, List.take_append_drop, hd]
    | writesFont a b _ _ ht => exact absurd (ht ▸ (blockKept_hostWriteFont _ a b).trace) hquiet
    | writesText a b _ _ ht => exact absurd (ht ▸ (blockKept_hostWriteText _ a b).trace) hquiet
    | presents _ _ _ ht | withdraws _ _ ht | asserts _ _ ht | releases _ _ ht | grants _ _ _ ht | foreign _ _ ht =>
      exact absurd (by rw [ht]; rfl) hquiet
  · have hti := stepKeepsInvariant s t hi h
    have hj : t.job = none := by
      have hbj := hti.busyIff
      rwa [hb, eq_comm, Option.isSome_eq_false_iff, Option.isNone_iff_eq_none] at hbj
    exact (hti.idleLines hj).1 hd

/-! ## The end of a command that was held up -/

/-- With a transport that completes every event, the block's turns bring the command in execution to its end, by at least one event
each. -/
theorem exists_core_run_end {s : State} {j : Job} (hs : s.sched = []) (hr : s.rst = false) (hg : s.transportCompletes)
    (hj : s.job = some j) (hi : j.instr.isCommand = true) (hp : positionInChain s.params.n j.instr)
    (hlt : j.done < (instrEvents j.instr s).length) :
    ∃ k, k ≤ (instrEvents j.instr s).length - j.done ∧ Sys2Proof.core.run k s =
      .next ((s.advance ((instrEvents j.instr s).drop j.done)).endCommand j.instr) := by
  obtain ⟨left, hleft⟩ : ∃ left, left = (instrEvents j.instr s).length - j.done := ⟨_, rfl⟩
  induction left using Nat.strong_induction_on generalizing s j with
  | _ left ih =>
    obtain ⟨t, ht⟩ := step_answers_next s
    have hturn : blockTurn s = .next t := (step_of_sched_nil hs).symm.trans ht
    obtain ⟨evs, rest, hne, hd, htevs⟩ := (blockTurn_cases hturn).goesOn hr hj hi hp hlt
    rw [State.transfer_eq_advance_of_completes hg] at htevs
    have hjob := State.advance_job hj evs
    have hlen := congrArg List.length hd
    have hpos := List.length_pos_iff.mpr hne
    rw [List.length_drop, List.length_append] at hlen
    have hevs := instrEvents_advance j.instr s evs
    cases rest with
    | nil =>
      rw [List.length_nil] at hlen
      refine ⟨1, by omega, ?_⟩
      rw [core_run_succ 0 ht, core_run_zero, htevs, hd, List.append_nil]
      have hend : (instrEvents j.instr s).length ≤ j.done + evs.length := by omega
      simp only [State.settle, hjob, hend, if_true]
    | cons e rest =>
      rw [List.length_cons] at hlen
      rw [State.settle_of_unfinished hjob (by simp only; omega)] at htevs
      obtain ⟨k, hk, hrun⟩ := ih ((instrEvents j.instr s).length - (j.done + evs.length)) (by omega)
        (s := s.advance evs) (j := { j with done := j.done + evs.length }) hs hr hg hjob hi hp (by simp only [hevs]; omega)
        (by simp only [hevs])
      simp only [hevs] at hk hrun
      refine ⟨k + 1, by omega, ?_⟩
      rw [core_run_succ k ht, htevs, hrun, ← State.advance_append]
      have hdrop : (instrEvents j.instr s).drop (j.done + evs.length) = e :: rest := by
        rw [← List.drop_drop, hd, List.drop_left]
      rw [hdrop, hd]

/-- Settles O59: the run to the command's end, whose trace is the events left. -/
theorem heldUpCommandTerminates : Obligations.HeldUpCommandTerminates := by
  intro s j hi hj hg hs
  have hst := hi.steady hj
  have hji := hi.jobInv j hj
  obtain ⟨k, hk, hrun⟩ := exists_core_run_end hs hst.rst hg hj hji.command hji.position hji.unfinished
  exact ⟨k, _, hk, hrun, rfl, hst.faulted, rfl⟩

/-- A command that the transport holds up after `g` of its events, in terms of the run with no stall. -/
theorem perform_heldUp {s : State} {i : Instr} {g : Nat} (hg : s.grant = some g) (hlt : g < (instrEvents i s).length) :
    ({ s.perform i (instrEvents i s) with grant := none } : State) =
      (({ s with grant := none } : State).beginCommand i).advance ((instrEvents i s).take g) := by
  have hc : s.completes (instrEvents i s).length = g := by rw [State.completes, hg]; exact Nat.min_eq_left hlt.le
  have htake : ((instrEvents i s).take g).length = g := List.length_take_of_le hlt.le
  rw [State.perform_eq, hc, if_neg hlt.ne]
  simp only [State.advance, State.beginCommand, htake, Option.map_some, Nat.zero_add]

/-- Settles O60: the events emitted before the stall and those of the run after it are the command's, in order. -/
theorem heldUpCommandEndsAsUninterrupted : Obligations.HeldUpCommandEndsAsUninterrupted := by
  intro i s g hi hp hs hsch hr hg
  have hevs : instrEvents i { s with grant := none } = instrEvents i s := instrEvents_congr i rfl rfl rfl rfl rfl rfl
  have hu : exec i { s with grant := none } = .next (({ s with grant := none } : State).perform i (instrEvents i s)) := by
    rw [exec_runs (s := { s with grant := none }) hi hs hp, hevs]
  have ht := exec_runs hi hs hp
  rcases Nat.lt_or_ge g (instrEvents i s).length with hlt | hge
  · have hmid := perform_heldUp hg hlt
    have hevs' : instrEvents i ((({ s with grant := none } : State).beginCommand i).advance ((instrEvents i s).take g)) =
        instrEvents i s := instrEvents_congr i rfl rfl rfl rfl rfl rfl
    have hjob : ((({ s with grant := none } : State).beginCommand i).advance ((instrEvents i s).take g)).job =
        some { instr := i, done := g } := by
      rw [State.advance_job rfl, List.length_take_of_le hlt.le, Nat.zero_add]
    obtain ⟨k, -, hrun⟩ := exists_core_run_end (s := (({ s with grant := none } : State).beginCommand i).advance
      ((instrEvents i s).take g)) hsch hr rfl hjob hi hp (by simp only [hevs']; exact hlt)
    refine ⟨_, _, k, ht, hu, ?_⟩
    simp only [hevs'] at hrun
    rw [hmid, hrun, ← State.advance_append, List.take_append_drop,
      State.perform_eq_advance (s := { s with grant := none }) rfl]
  · refine ⟨_, _, 0, ht, hu, ?_⟩
    have hc : s.completes (instrEvents i s).length = (instrEvents i s).length := by
      rw [State.completes, hg]
      exact Nat.min_eq_right hge
    rw [core_run_zero, State.perform_eq, hc, if_pos rfl, State.perform_complete (s := { s with grant := none }) rfl]
    rfl

end Sys2Proof.Machine
end
